-- ==== Sys2Proof/Word.lean ====
section
/-! DEFINITION. The word types of the block (R6, R8, R91): register data, addresses, ids, 64-bit quantities. -/

namespace Sys2Proof

/-- A 32-bit word: register data (`W` = 32, R6), a command word, an extension word, a result word. -/
abbrev Word := BitVec 32

/-- A 64-bit quantity: a log data word, a timestamp, `base`, `ud`, a cumulative counter (R6, R43, R44). -/
abbrev DWord := BitVec 64

/-- A register address, an opaque identifier carried by one extension word (R61, R67, R92). -/
abbrev Addr := BitVec 32

/-- A device id as the command word carries it, `CW[23:20]` (R91). -/
abbrev DevId := BitVec 4

/-- A subdevice id as the command word carries it, `CW[19:18]` (R91). -/
abbrev SubId := BitVec 2

/-- A ring id as the command word carries it, `CW[17:12]` (R91). -/
abbrev RingId := BitVec 6

/-- A leaf id: an index into `TREE.leaves` (R20). -/
abbrev LeafId := Nat

/-- `ones`, the word `0xFFFFFFFF` (R8). -/
abbrev ones : Word := 0xFFFFFFFF#32

end Sys2Proof
end

