-- ==== Sys2Proof/Syntax.lean ====
section
/-! DEFINITION. The commands of the command port: one constructor per row of the opcode table (R94). -/

namespace Sys2Proof

/-- The direction of a log entry, in the order of its codes 0 to 5 (R241). -/
inductive LogDir where
  | push
  | pull
  | start
  | service
  | dmaRd
  | dmaWr
deriving DecidableEq, Repr, Inhabited

/-- The fourteen commands with their operands (R92, R94, R97). -/
inductive Instr where
  /-- `RD d, s, addr` (R120). -/
  | rd (d : DevId) (s : SubId) (addr : Addr)
  /-- `WR d, s, addr, value` (R121). -/
  | wr (d : DevId) (s : SubId) (addr : Addr) (value : Word)
  /-- `DEV_INIT d` (R128). -/
  | devInit (d : DevId)
  /-- `RING_CFG d, s, r, base, depth, wpd, lock` (R154). -/
  | ringCfg (d : DevId) (s : SubId) (r : RingId) (base : DWord) (depth : Word) (wpd : BitVec 16) (lock : Bool)
  /-- `UPDATE_VIEW d, s, r` (R158). -/
  | updateView (d : DevId) (s : SubId) (r : RingId)
  /-- `USED d, s, r` (R157). -/
  | used (d : DevId) (s : SubId) (r : RingId)
  /-- `RING_DUMP d, s, r` (R161). -/
  | ringDump (d : DevId) (s : SubId) (r : RingId)
  /-- `POLL d, s` with `force = false`, `POLL.F d, s` with `force = true` (R180). -/
  | poll (force : Bool) (d : DevId) (s : SubId)
  /-- `CB_REG d, addr, fn, ud` (R200). -/
  | cbReg (d : DevId) (addr : Addr) (fn : Word) (ud : DWord)
  /-- `CNT_SHOW d, addr` (R203). -/
  | cntShow (d : DevId) (addr : Addr)
  /-- `INJECT_ALL d, s, addr` (R223). -/
  | injectAll (d : DevId) (s : SubId) (addr : Addr)
  /-- `ENABLE_ALL d, s, addr, on` (R224). -/
  | enableAll (on : Bool) (d : DevId) (s : SubId) (addr : Addr)
  /-- `LOG_EVENT d, s, r, dir, head, tail, [w0, ...]` (R240); `n_words` is the length of `data`. -/
  | logEvent (d : DevId) (s : SubId) (r : RingId) (dir : LogDir) (head tail : Word) (data : List DWord)
  /-- `LOG_READ d, s, filter` (R246). -/
  | logRead (d : DevId) (s : SubId) (filter : DWord)
deriving DecidableEq, Repr, Inhabited

end Sys2Proof
end

