-- ==== Sys2Proof/Config.lean ====
section
/-! DEFINITION. The configuration record `CFG` (R6) as plain data, the types of the static tables (R31 to R33), the
free values of the model, and the sample configuration of 95_test_vectors.md section 1. -/

namespace Sys2Proof

/-- `N_SLOT` = 16 shadow slots (R6). -/
abbrev nSlot : Nat := 16

/-- `N_BIT` = 32 status bits per word (R6). -/
abbrev nBit : Nat := 32

/-- `LOG_DEPTH` = 1024 entries (R6). -/
abbrev logDepth : Nat := 1024

/-- `N_PIPE` = 4 physical pipes (R6). -/
abbrev nPipe : Nat := 4

/-- The five bus classes (R6, R10). -/
inductive BusClass where
  | host
  | tbus
  | cbus
  | pbus
  | mbus
deriving DecidableEq, Repr

/-- The label of a slot: a bus class and, for pbus, a pipe number (R33). -/
structure SlotLabel where
  busClass : BusClass
  pipe : Option (Fin nPipe) := none
deriving DecidableEq, Repr

/-- A leaf descriptor: the addresses of its four registers and its shadow-bit mask (R31). -/
structure LeafDesc where
  statusAddr : Addr
  enHiAddr : Addr
  enLoAddr : Addr
  injectAddr : Addr
  shadowMask : Word
deriving DecidableEq, Repr

mutual
/-- What stands behind one entry of a bus table: leaves, or groups keyed by a sub-mask (R32). -/
inductive Body where
  | flat (leaves : List LeafId)
  | nested (groups : Groups)
deriving DecidableEq, Repr

/-- The list `subs` of a `Nested` body, in table order (R32). -/
inductive Groups where
  | nil
  | cons (submask : Word) (body : Body) (rest : Groups)
deriving DecidableEq, Repr
end

/-- One slot's table: the body of each shadow bit that has one, as (bit, body) pairs (R32). -/
structure BusTable where
  entries : List (Nat × Body)
deriving DecidableEq, Repr

/-- Which side fills a ring (R153). -/
inductive RingDir where
  | hostProduces
  | hwProduces
deriving DecidableEq, Repr

/-- An operand of a handler's command: a literal word, or one of the arguments the `DISPATCH` message carries (R193). -/
inductive HandlerArg where
  | lit (w : Word)
  | statusAddr
  | raw
  | enHiAddr
  | enLoAddr
  | udLow
  | udHigh
deriving DecidableEq, Repr

/-- One command of a tabulated handler (R194): a read or a write of the device and subdevice the message names, or a
command given in full. -/
inductive HandlerStep where
  | rd (addr : HandlerArg)
  | wr (addr value : HandlerArg)
  | cmd (i : Instr)
deriving DecidableEq, Repr

/-- The default of `SLOT_CLASS`: 0 host, 1 tbus, 2 and 3 cbus, 4 to 7 pbus pipes 0 to 3, 8 to 15 mbus (R33). -/
def defaultSlotClass : List (Option SlotLabel) :=
  [ some ⟨.host, none⟩, some ⟨.tbus, none⟩, some ⟨.cbus, none⟩, some ⟨.cbus, none⟩,
    some ⟨.pbus, some 0⟩, some ⟨.pbus, some 1⟩, some ⟨.pbus, some 2⟩, some ⟨.pbus, some 3⟩ ] ++
  List.replicate 8 (some ⟨.mbus, none⟩)

/-- The configuration record (R6). A field with a default is a parameter to which R6 gives one; the others are open. -/
structure Cfg where
  /-- `AW`, the register address width. -/
  aw : Nat := 32
  /-- `PTR_IDX_W`, the width of the index field of a pointer word. -/
  ptrIdxW : Nat := 20
  /-- `N_DEV`. -/
  nDev : Nat := 1
  /-- `N_SUBDEV`. -/
  nSubdev : Nat := 1
  /-- `N_RING`. -/
  nRing : Nat
  /-- `DESC_WORD_BYTES`. -/
  descWordBytes : Nat := 8
  /-- `ADDR(GLB_SHADOW)`. -/
  glbShadowAddr : Addr
  /-- `ADDR(SHADOW_INT[i])`, i = 0..15. -/
  shadowIntAddr : List Addr
  /-- `ADDR(SHADOW_MSK[i])`, i = 0..15. -/
  shadowMskAddr : List Addr
  /-- `ADDR(HEAD_PTR[r])`, r = 0..N_RING-1. -/
  headPtrAddr : List Addr
  /-- `ADDR(TAIL_PTR[r])`, r = 0..N_RING-1. -/
  tailPtrAddr : List Addr
  /-- `TREE.leaves`; the four addresses of a leaf are `ADDR`'s (R31). -/
  leaves : List LeafDesc
  /-- `TREE.slot(i)`, i = 0..15; an index past the end is `none`. -/
  slots : List (Option BusTable)
  /-- `SLOT_CLASS`. -/
  slotClass : List (Option SlotLabel) := defaultSlotClass
  /-- `SEC_OK` is false on exactly these (device, subdevice, address) triples. -/
  secDeny : List (DevId × SubId × Addr) := []
  /-- `SEC_GATES_DISPATCH`. -/
  secGatesDispatch : Bool := false
  /-- `FORCE_ALL_DEEP`. -/
  forceAllDeep : Bool := false
  /-- `CB_ON_ZERO`. -/
  cbOnZero : Bool := false
  /-- `INJECT_PATTERN` where it is not `0xFFFFFFFF`. -/
  injectPattern : List (LeafId × Word) := []
  /-- `RING_DIR` is `HW_PRODUCES` on exactly these rings. -/
  hwProduces : List RingId
  /-- `ALLOC_CAN_FAIL`. -/
  allocCanFail : Bool := true
  /-- `HANDLER` of the callback handles tabulated here; every other handle has the free handler `Config.handler`. -/
  handlers : List (Word × List HandlerStep) := []
deriving DecidableEq, Repr

/-- The `DISPATCH` message on the callback port, which is also the argument of `HANDLER` (R193, R194). -/
structure DispatchMsg where
  fn : Word
  dev : DevId
  sub : SubId
  statusAddr : Addr
  raw : Word
  enHiAddr : Addr
  enLoAddr : Addr
  ud : DWord
deriving DecidableEq, Repr

/-- FREE VALUE (DESIGN CHOICE, log entry 6). `HANDLER(fn, args)` of a handle the configuration does not tabulate: some
finite sequence of commands, the body of the callback being outside the block (R194). -/
opaque Config.handler : DispatchMsg → List Instr

/-- FREE VALUE (DESIGN CHOICE, log entry 4). The n-th value the agent `CLOCK` draws when no draw is queued (R242). -/
opaque Config.clock : Nat → DWord

/-- FREE VALUE (DESIGN CHOICE, log entry 5). The n-th outcome of the allocation draw when none is queued (R246). -/
opaque Config.alloc : Nat → Bool

/-- FREE VALUE (DESIGN CHOICE, log entry 24). The wrap bit and the index of `adv(p, n, depth)` where `p.idx < depth` fails,
from `p.wrap`, `p.idx`, `n` and `depth`: "`adv` is defined for `p.idx < depth` only" (R152). -/
opaque Config.advOutside : Bool → Nat → Nat → Nat → Bool × Nat

/-- Leaf `Lk` of the sample configuration. -/
def sampleLeaf (k : Nat) (mask : Word) : LeafDesc :=
  ⟨BitVec.ofNat 32 (0x1000 + 0x10 * k), BitVec.ofNat 32 (0x1004 + 0x10 * k), BitVec.ofNat 32 (0x1008 + 0x10 * k),
   BitVec.ofNat 32 (0x100C + 0x10 * k), mask⟩

/-- The example configuration of 95_test_vectors.md section 1, "one value of `CFG` that satisfies the well-formedness
conditions" of R7 (DESIGN CHOICE, log entry 1: the open parameters have no other value anywhere in the spec). -/
def Cfg.sample : Cfg where
  nDev := 2
  nSubdev := 2
  nRing := 8
  glbShadowAddr := 0x0080#32
  shadowIntAddr := (List.range 16).map (fun i => BitVec.ofNat 32 (0x0100 + 4 * i))
  shadowMskAddr := (List.range 16).map (fun i => BitVec.ofNat 32 (0x0140 + 4 * i))
  headPtrAddr := (List.range 8).map (fun r => BitVec.ofNat 32 (0x2000 + 8 * r))
  tailPtrAddr := (List.range 8).map (fun r => BitVec.ofNat 32 (0x2004 + 8 * r))
  leaves := [sampleLeaf 0 0x00000001#32, sampleLeaf 1 0x00000002#32, sampleLeaf 2 0x00000001#32,
             sampleLeaf 3 0x00000001#32, sampleLeaf 4 0x00000004#32]
  slots :=
    [ some ⟨[(0, .flat [0]), (1, .flat [1])]⟩, none, none, none,
      some ⟨[(0, .nested (.cons 0x00000001#32 (.flat [2, 3]) .nil)),
             (2, .nested (.cons 0x00000004#32 (.nested (.cons 0x00000004#32 (.flat [4]) .nil)) .nil))]⟩ ]
  hwProduces := [5#6]
  handlers := [(0xA0#32, [.wr .statusAddr .raw]), (0xB0#32, [])]

end Sys2Proof
end

