-- ==== Sys2Proof/Machine/Store.lean ====
section
/-! DEFINITION. Sparse arrays as sorted lists of (key, value) pairs, every key not listed holding the array's reset
value. `Memory` is the one that holds 32-bit registers, the addressable unit of R61. -/

namespace Sys2Proof.Machine

/-- An array indexed by numbers; a key that is not listed holds the default its operations are given. -/
abbrev Store (α : Type) := List (Nat × α)

/-- Read the array at a key. -/
def Store.get {α : Type} (dflt : α) : Store α → Nat → α
  | [], _ => dflt
  | (k', v) :: m, k => if k = k' then v else Store.get dflt m k

/-- Insert a pair before the first larger key. -/
def Store.insert {α : Type} (k : Nat) (v : α) : Store α → Store α
  | [] => [(k, v)]
  | (k', w) :: m => if k < k' then (k, v) :: (k', w) :: m else (k', w) :: Store.insert k v m

/-- Write the array at a key; writing the default removes the key. -/
def Store.put {α : Type} [DecidableEq α] (dflt : α) (m : Store α) (k : Nat) (v : α) : Store α :=
  let rest := m.filter (fun c => !decide (c.1 = k))
  if v = dflt then rest else Store.insert k v rest

/-- Set every key of residue `d` modulo 16 back to the default: the elements of one device (R128). -/
def Store.clearDev {α : Type} (d : DevId) (m : Store α) : Store α :=
  m.filter (fun c => !decide (c.1 % 16 = d.toNat))

/-- The canonical form: keys strictly rising, no key listed with the default. -/
abbrev Store.Canonical {α : Type} (dflt : α) (m : Store α) : Prop :=
  (m.map Prod.fst).Pairwise (· < ·) ∧ ∀ c ∈ m, c.2 ≠ dflt

/-- A file of 32-bit registers whose reset value is zero (R50). -/
abbrev Memory := Store Word

/-- Read a register of the file. -/
def Memory.read (m : Memory) (k : Nat) : Word := Store.get 0#32 m k

/-- Write a register of the file. -/
def Memory.write (m : Memory) (k : Nat) (v : Word) : Memory := Store.put 0#32 m k v

/-- The canonical form of a register file. -/
abbrev Memory.wf (m : Memory) : Prop := Store.Canonical 0#32 m

end Sys2Proof.Machine
end

