-- ==== Sys2Proof/Machine/State.lean ====
section
/-! DEFINITION. The state of the machine as plain data (R20 to R50), the reasons it stops, and the state after reset. -/

namespace Sys2Proof.Machine

/-- Why the machine faults: never. "A command never traps, never aborts half-way with state undone" (R260), and there
is "no access fault, no bus error and no imprecise fault in the model" (R264), so no constructor raises anything. -/
inductive Fault where
deriving DecidableEq, Repr

/-- Why the model refuses a run. Every constructor is safe: the machine stops where the spec calls the run outside
itself. -/
inductive Refusal where
  /-- An instruction that has no meaning yet; no arm of `exec` answers it. Safe. -/
  | notModelled (mnemonic : String)
  /-- Raised by `step` on a configuration that fails R7: "A `CFG` that fails any of these is refused". Safe. -/
  | illFormedConfig
  /-- Raised by `step` on a stream that ends before the extension words: "a model refuses the stream" (R93). Safe. -/
  | truncatedStream
  /-- Raised by `POLL`, `CB_REG`, `CNT_SHOW`, `DEV_INIT` while another poll on the device is in progress (R182, R311): "the
  model refuses it rather than defining a race"; and by a handler that issues `POLL`, `CB_REG` or `DEV_INIT` on a device
  its thread is polling (R194). Safe. -/
  | deviceBusy (d : DevId)
  /-- Raised by `UPDATE_VIEW` while another `UPDATE_VIEW` of the ring is in progress, and by `RING_CFG` and `DEV_INIT` while
  one of any ring of the device is (R312). Safe. -/
  | ringBusy (d : DevId)
deriving DecidableEq, Repr

/-- The status codes of a response (R261). -/
inductive Status where
  | ok
  | invalidArg
  | noResource
  | illegalCmd
deriving DecidableEq, Repr

/-- A response of the command port: the status `ST` and the result words (R90, R98). -/
structure Response where
  status : Status
  words : List Word
deriving DecidableEq, Repr

/-- The names of the registers of one register space (R36). -/
inductive Reg where
  | glbShadow
  | shadowInt (i : Nat)
  | shadowMsk (i : Nat)
  | status (L : LeafId)
  | enHi (L : LeafId)
  | enLo (L : LeafId)
  | inject (L : LeafId)
  | headPtr (r : Nat)
  | tailPtr (r : Nat)
deriving DecidableEq, Repr

/-- A decoded pointer word: the wrap bit and the entry index (R27). -/
structure Ptr where
  wrap : Bool
  idx : Nat
deriving DecidableEq, Repr

/-- A callback slot that is filled: an opaque handle and its user-data (R41). -/
structure Callback where
  fn : Word
  ud : DWord
deriving DecidableEq, Repr

/-- The record `VIEW[d][s][r]` of one ring (R43). -/
structure View where
  base : DWord
  depth : Word
  wpd : BitVec 16
  lockRequired : Bool
  head : Ptr
  tail : Ptr
  lastPtr : DWord
  descCount : DWord
  byteCount : DWord
  occupancy : Word
deriving DecidableEq, Repr

/-- A view that is not configured: all fields 0 (R43, R50). -/
def View.zero : View :=
  { base := 0#64, depth := 0#32, wpd := 0#16, lockRequired := false, head := ⟨false, 0⟩, tail := ⟨false, 0⟩,
    lastPtr := 0#64, descCount := 0#64, byteCount := 0#64, occupancy := 0#32 }

/-- The payload of a log entry: everything but the timestamp (R44, R240). -/
structure LogPayload where
  dir : LogDir
  dev : DevId
  sub : SubId
  ring : RingId
  nWords : BitVec 3
  head : Word
  tail : Word
  data0 : DWord
  data1 : DWord
  data2 : DWord
  data3 : DWord
deriving DecidableEq, Repr

/-- The payload of an entry nothing has written: all fields 0 (R44, R50). -/
def LogPayload.zero : LogPayload :=
  { dir := .push, dev := 0#4, sub := 0#2, ring := 0#6, nWords := 0#3, head := 0#32, tail := 0#32, data0 := 0#64,
    data1 := 0#64, data2 := 0#64, data3 := 0#64 }

/-- An entry of the log (R44); a zero timestamp is the empty marker. -/
structure LogEntry where
  ts : DWord
  payload : LogPayload
deriving DecidableEq, Repr

/-- The empty entry (R44, R50). -/
def LogEntry.empty : LogEntry := ⟨0#64, LogPayload.zero⟩

/-- The states of the poll sequencer (R45). -/
inductive SeqState where
  | idle
  | globalCheck
  | shadowWordScan
  | leafDispatch
deriving DecidableEq, Repr

/-- Within a slot's scan: is the mask write or the shadow read next? R45 names the two values and not what they stand for
(DESIGN CHOICE, log entry 21). -/
inductive SeqPhase where
  | mask
  | read
deriving DecidableEq, Repr

/-- The poll sequencer `SEQ[d]` of one device (R45). -/
structure Seq where
  st : SeqState
  sub : SubId
  force : Bool
  g : BitVec 16
  i : Nat
  phase : SeqPhase
  w : Word
  todo : List LeafId
deriving DecidableEq, Repr

/-- `st = IDLE`, every other field zero or empty (R45, R50); `phase` is MASK (DESIGN CHOICE, log entry 21). -/
def Seq.reset : Seq :=
  { st := .idle, sub := 0#2, force := false, g := 0#16, i := 0, phase := .mask, w := 0#32, todo := [] }

/-- What the outside sees happen on the register transport and on the callback port, in order (R72, R193). -/
inductive Event where
  | read (d : DevId) (s : SubId) (a : Addr) (v : Word)
  | write (d : DevId) (s : SubId) (a : Addr) (v : Word)
  | dispatch (m : DispatchMsg)
deriving DecidableEq, Repr

/-- What a host thread has still to do: a command it has presented, or the rest of one after some of its micro-steps
(R70). The constructors after the first are the points between two micro-steps of R158, R224, R240, R246, R180. -/
inductive Frame where
  /-- The command, none of its micro-steps done. -/
  | cmd (i : Instr)
  /-- `UPDATE_VIEW` after line 1, with the head word read. -/
  | viewTail (d : DevId) (s : SubId) (r : RingId) (h : Word)
  /-- `UPDATE_VIEW` after line 2, with both words read. -/
  | viewCommit (d : DevId) (s : SubId) (r : RingId) (h t : Word)
  /-- `ENABLE_ALL` after the write of `EN_HI`. -/
  | enableLo (on : Bool) (d : DevId) (s : SubId) (L : LeafId)
  /-- `LOG_EVENT` after `E1`. -/
  | logStamp (slot : BitVec 10) (p : LogPayload)
  /-- `LOG_EVENT` after `E2`. -/
  | logFill (slot : BitVec 10) (p : LogPayload)
  /-- `LOG_READ` before slot `j`, with the records of the slots below it. -/
  | logScan (d : DevId) (s : SubId) (filter : DWord) (j : Nat) (out : List (List Word))
  /-- `POLL` on device `d`, standing where `SEQ[d]` says. -/
  | poll (d : DevId)
  /-- Inside a poll: leaf `L` has been read and counted, its callback comes next. -/
  | leafCallback (d : DevId) (L : LeafId) (raw : Word)
deriving DecidableEq, Repr

/-- Another host thread: what it has still to do, innermost first, and the response of its last command (R12, R90). -/
structure Thread where
  frames : List Frame
  resp : Response
deriving DecidableEq, Repr

/-- A thread that has presented nothing yet. -/
def Thread.fresh : Thread := ⟨[], ⟨.ok, []⟩⟩

/-- One step of an agent other than the host thread the machine runs (R12). -/
inductive AgentStep where
  /-- `SRC_RAISE(d, s, L, bits)` (R131). -/
  | srcRaise (d : DevId) (s : SubId) (L : LeafId) (bits : Word)
  /-- `DMA_ADV(d, s, r, n)` (R163). -/
  | dmaAdv (d : DevId) (s : SubId) (r : RingId) (n : Nat)
  /-- Host thread `t` presents a command and performs its first micro-step. -/
  | present (t : Nat) (i : Instr)
  /-- Host thread `t` performs the next micro-step of its command. -/
  | resume (t : Nat)
deriving DecidableEq, Repr

/-- The state of the machine. -/
structure State where
  /-- `CFG`, a parameter of the run that no step changes (R6, R49). -/
  cfg : Cfg
  /-- `STATUS[d][s][L]` (R22). -/
  status : Memory
  /-- `EN_HI[d][s][L]` (R23). -/
  enHi : Memory
  /-- `EN_LO[d][s][L]` (R23). -/
  enLo : Memory
  /-- `SHADOW_MSK[d][s][i]` (R25). -/
  shadowMsk : Memory
  /-- `HEAD_PTR[d][s][r]` (R26). -/
  headPtr : Memory
  /-- `TAIL_PTR[d][s][r]` (R26). -/
  tailPtr : Memory
  /-- `CB[d][L]` (R41). -/
  cb : Store (Option Callback)
  /-- `COUNT[d][L][b]` (R42). -/
  count : Memory
  /-- `COUNT_SHOWN[d][L][b]` (R42). -/
  countShown : Memory
  /-- `VIEW[d][s][r]` (R43). -/
  view : Store View
  /-- `LOG.entries[0..1023]` (R44). -/
  logEntries : Store LogEntry
  /-- `LOG.next` (R44). -/
  logNext : DWord
  /-- `LOG.lock`: free, or held by a thread (R44). -/
  logLock : Option Nat
  /-- `SEQ[d]` (R45). -/
  seq : Store Seq
  /-- `DEV_READY[d]` (R46). -/
  devReady : Store Bool
  /-- The command words waiting at the command port of the host thread the machine runs (R60 (b), R90). -/
  port : List Word
  /-- The response of that thread's last command (R90). -/
  resp : Response
  /-- The accesses and messages the outside has seen, oldest first (R72, R193). -/
  trace : List Event
  /-- The MODEL's own: the steps of the other agents at each coming boundary between two micro-steps (R70). -/
  sched : List (List AgentStep)
  /-- The MODEL's own: the other host threads (R12). -/
  threads : Store Thread
  /-- The MODEL's own: the devices whose poll the running thread is inside, innermost first (R311). -/
  polling : List DevId
  /-- The MODEL's own: the rings with an `UPDATE_VIEW` in progress (R312). -/
  updating : List (DevId × SubId × RingId)
  /-- The MODEL's own: the coming draws of the agent `CLOCK` (R242). -/
  clockIn : List DWord
  /-- The MODEL's own: the coming allocation draws (R246). -/
  allocIn : List Bool
  /-- The MODEL's own: how many draws were made with none queued, the index of the next free value. -/
  draws : Nat
deriving DecidableEq, Repr

/-- The block right after power-on reset with configuration `c`: every element at the value of R50's table. -/
def State.resetWith (c : Cfg) : State :=
  { cfg := c
    status := []
    enHi := []
    enLo := []
    shadowMsk := []
    headPtr := []
    tailPtr := []
    cb := []
    count := []
    countShown := []
    view := []
    logEntries := []
    logNext := 0#64
    logLock := none
    seq := []
    devReady := []
    port := []
    resp := ⟨.ok, []⟩
    trace := []
    sched := []
    threads := []
    polling := []
    updating := []
    clockIn := []
    allocIn := []
    draws := 0 }

/-- The machine right after reset (R300), with the sample configuration (log entry 1). -/
def State.reset : State := State.resetWith Cfg.sample

/-- An outcome of one command. -/
abbrev Result := Host.Outcome State Fault Refusal

end Sys2Proof.Machine
end

