-- ==== Sys2Proof/Machine/Flags.lean ====
section
/-! DEFINITION. The block has no condition codes; its flags are the wrap bits of the ring pointers (R47). Here are the
pointer word and the arithmetic of the wrap bits (R27, R150 to R156). -/

namespace Sys2Proof.Machine

/-- `PTR_MASK = (1 << (PTR_IDX_W+1)) - 1` (R63). -/
def ptrMask (c : Cfg) : Word := BitVec.ofNat 32 (2 ^ (c.ptrIdxW + 1) - 1)

/-- `dec(p)`: the wrap bit is bit `PTR_IDX_W`, the index the bits below it (R27). -/
def decPtr (c : Cfg) (p : Word) : Ptr := ⟨p.getLsbD c.ptrIdxW, p.toNat % 2 ^ c.ptrIdxW⟩

/-- `enc(wrap, idx) = (wrap << PTR_IDX_W) | idx` (R27). -/
def encPtr (c : Cfg) (p : Ptr) : Word := (BitVec.ofNat 32 p.wrap.toNat <<< c.ptrIdxW) ||| BitVec.ofNat 32 p.idx

/-- `pos(p) = p.wrap * depth + p.idx` (R11, R150). -/
def pos (p : Ptr) (depth : Nat) : Nat := p.wrap.toNat * depth + p.idx

/-- `valid(head, tail, depth)` (R151). -/
def validPtrs (head tail : Ptr) (depth : Nat) : Bool :=
  decide (1 ≤ depth) && decide (head.idx < depth) && decide (tail.idx < depth) &&
  (if tail.wrap = head.wrap then decide (head.idx ≤ tail.idx) else decide (tail.idx ≤ head.idx))

/-- The advance of a pointer with `p.idx < depth` on the circle of `2 * depth` positions (R152). -/
def advCircle (p : Ptr) (n depth : Nat) : Ptr :=
  let q := (pos p depth + n) % (2 * depth)
  ⟨decide (q / depth = 1), q % depth⟩

/-- `adv(p, n, depth)`: advance by `n` entries (R152). It "is defined for `p.idx < depth` only"; elsewhere, `depth = 0`
among it, the result is a free value (DESIGN CHOICE, log entry 24). -/
def adv (p : Ptr) (n depth : Nat) : Ptr :=
  if p.idx < depth then advCircle p n depth
  else ⟨(Config.advOutside p.wrap p.idx n depth).1, (Config.advOutside p.wrap p.idx n depth).2⟩

/-- `used(head, tail, depth)` over the integers (R156). -/
def usedInt (head tail : Ptr) (depth : Nat) : Int :=
  if tail.wrap = head.wrap then (tail.idx : Int) - head.idx
  else (depth : Int) - ((head.idx : Int) - tail.idx)

/-- `used` as a signed 32-bit word (R156, R157). -/
def usedWord (head tail : Ptr) (depth : Nat) : Word := BitVec.ofInt 32 (usedInt head tail depth)

/-- The advance of the head since the previous snapshot, `(pos(nh) - pos(v.head)) mod (2 * v.depth)` (R158). -/
def headDelta (new old : Ptr) (depth : Nat) : Nat := (((pos new depth : Int) - pos old depth) % (2 * (depth : Int))).toNat

end Sys2Proof.Machine
end

