-- ==== Sys2Proof/WellFormed.lean ====
section
/-! DEFINITION. Which commands the encoding can carry. Every operand is bounded by its type but one: a `LOG_EVENT`
carries at most four data words (R97). -/

namespace Sys2Proof

/-- `LOG_DATA_MAX`: "up to 4 64-bit data words" (R6, R44). -/
abbrev logWords : Nat := 4

/-- The check on a `LOG_EVENT`'s data list: `n_words` has the legal values 0 to 4 (R97). -/
def dataFits (data : List DWord) : Bool := decide (data.length ≤ logWords)

/-- A command the command word and its extension words can carry (R91, R92, R97). -/
def Instr.wellFormed : Instr → Bool
  | .rd _ _ _ => true
  | .wr _ _ _ _ => true
  | .devInit _ => true
  | .ringCfg _ _ _ _ _ _ _ => true
  | .updateView _ _ _ => true
  | .used _ _ _ => true
  | .ringDump _ _ _ => true
  | .poll _ _ _ => true
  | .cbReg _ _ _ _ => true
  | .cntShow _ _ => true
  | .injectAll _ _ _ => true
  | .enableAll _ _ _ _ => true
  | .logEvent _ _ _ _ _ _ data => dataFits data
  | .logRead _ _ _ => true

end Sys2Proof
end

