-- ==== Sys2Proof/Decode.lean ====
section
/-! DEFINITION. The decoder of the command stream (R90 to R97), total on any list of words, and the encoder written
from the same tables. -/

namespace Sys2Proof

/-- The opcode map's row names (R94). -/
inductive Op where
  | rd
  | wr
  | devInit
  | ringCfg
  | updateView
  | used
  | ringDump
  | poll
  | cbReg
  | cntShow
  | injectAll
  | enableAll
  | logEvent
  | logRead
deriving DecidableEq, Repr

/-- One row of the opcode map: a word `CW` selects it iff `(CW & mask) == match` (R94). -/
structure OpRow where
  op : Op
  matchBits : Word
  maskBits : Word
deriving DecidableEq, Repr

/-- The opcode map, row by row as R94 gives it. -/
def opRows : List OpRow :=
  [ ⟨.rd,         0x04000000#32, 0xFF03FFFF#32⟩,
    ⟨.wr,         0x08000000#32, 0xFF03FFFF#32⟩,
    ⟨.devInit,    0x0C000000#32, 0xFF0FFFFF#32⟩,
    ⟨.ringCfg,    0x20000000#32, 0xFF000FFF#32⟩,
    ⟨.updateView, 0x24000000#32, 0xFF000FFF#32⟩,
    ⟨.used,       0x28000000#32, 0xFF000FFF#32⟩,
    ⟨.ringDump,   0x2C000000#32, 0xFF000FFF#32⟩ ] ++
  [ ⟨.poll,       0x40000000#32, 0xFD03FFFF#32⟩,
    ⟨.cbReg,      0x44000000#32, 0xFF0FFFFF#32⟩,
    ⟨.cntShow,    0x48000000#32, 0xFF0FFFFF#32⟩,
    ⟨.injectAll,  0x4C000000#32, 0xFF03FFFF#32⟩,
    ⟨.enableAll,  0x50000000#32, 0xFD03FFFF#32⟩,
    ⟨.logEvent,   0x60000000#32, 0xFF000F88#32⟩,
    ⟨.logRead,    0x64000000#32, 0xFF03FFFF#32⟩ ]

/-- `CW` selects the row (R94). -/
def OpRow.selects (row : OpRow) (cw : Word) : Bool := decide (cw &&& row.maskBits = row.matchBits)

/-- `CW[25]`, the flag `F` (R91). -/
def cwFlag (cw : Word) : Bool := cw.getLsbD 25

/-- `CW[23:20]`, the device id (R91). -/
def cwDev (cw : Word) : DevId := cw.extractLsb' 20 4

/-- `CW[19:18]`, the subdevice id (R91). -/
def cwSub (cw : Word) : SubId := cw.extractLsb' 18 2

/-- `CW[17:12]`, the ring id (R91). -/
def cwRing (cw : Word) : RingId := cw.extractLsb' 12 6

/-- `N[6:4]`, the direction code of a `LOG_EVENT` (R97). -/
def cwDir (cw : Word) : BitVec 3 := cw.extractLsb' 4 3

/-- `N[2:0]`, the number of data words of a `LOG_EVENT` (R97). -/
def cwWords (cw : Word) : BitVec 3 := cw.extractLsb' 0 3

/-- The code of a direction (R241). -/
def LogDir.code : LogDir → BitVec 3
  | .push => 0#3
  | .pull => 1#3
  | .start => 2#3
  | .service => 3#3
  | .dmaRd => 4#3
  | .dmaWr => 5#3

/-- The direction of a code 0 to 5 (R241). Codes 6 and 7 are illegal and never reach it: `selectOp` refuses them. -/
def LogDir.ofCode (c : BitVec 3) : LogDir :=
  if c = 0#3 then .push
  else if c = 1#3 then .pull
  else if c = 2#3 then .start
  else if c = 3#3 then .service
  else if c = 4#3 then .dmaRd
  else .dmaWr

/-- The value constraints of `LOG_EVENT` that a mask cannot express: `N[2:0] <= 4` and `N[6:4] <= 5` (R94). -/
def logConstraints (cw : Word) : Bool := decide (cwWords cw ≤ 4#3 ∧ cwDir cw ≤ 5#3)

/-- The command a command word names, or none where it is illegal (R94, R96). -/
def selectOp (cw : Word) : Option Op :=
  match opRows.find? (fun row => row.selects cw) with
  | none => none
  | some row => if row.op = .logEvent ∧ logConstraints cw = false then none else some row.op

/-- How many extension words follow the command word: `len - 1` of R94, a function of `CW` alone (R93). -/
def extCount (op : Op) (cw : Word) : Nat :=
  match op with
  | .rd => 1
  | .wr => 2
  | .devInit => 0
  | .ringCfg => 4
  | .updateView => 0
  | .used => 0
  | .ringDump => 0
  | .poll => 0
  | .cbReg => 4
  | .cntShow => 1
  | .injectAll => 1
  | .enableAll => 1
  | .logEvent => 2 + 2 * (cwWords cw).toNat
  | .logRead => 2

/-- A 64-bit operand presented as two words, the low word first (R65, R97). -/
def join64 (low high : Word) : DWord := high ++ low

/-- The low half of a 64-bit quantity, the word presented first (R65). -/
def lowWord (v : DWord) : Word := v.extractLsb' 0 32

/-- The high half of a 64-bit quantity, the word presented second (R65). -/
def highWord (v : DWord) : Word := v.extractLsb' 32 32

/-- Extension word `X(k+1)` (R92); `assemble` names only words that are there. -/
def extWord (xs : List Word) (k : Nat) : Word := xs.getD k 0#32

/-- The data words of a `LOG_EVENT`, two extension words each, the low one first (R92). -/
def joinPairs : List Word → List DWord
  | low :: high :: rest => join64 low high :: joinPairs rest
  | _ => []

/-- Operand assembly: the command of a command word and its extension words (R92, R97). -/
def assemble (op : Op) (cw : Word) (xs : List Word) : Instr :=
  match op with
  | .rd => .rd (cwDev cw) (cwSub cw) (extWord xs 0)
  | .wr => .wr (cwDev cw) (cwSub cw) (extWord xs 0) (extWord xs 1)
  | .devInit => .devInit (cwDev cw)
  | .ringCfg => .ringCfg (cwDev cw) (cwSub cw) (cwRing cw) (join64 (extWord xs 0) (extWord xs 1)) (extWord xs 2)
      ((extWord xs 3).extractLsb' 0 16) ((extWord xs 3).getLsbD 16)
  | .updateView => .updateView (cwDev cw) (cwSub cw) (cwRing cw)
  | .used => .used (cwDev cw) (cwSub cw) (cwRing cw)
  | .ringDump => .ringDump (cwDev cw) (cwSub cw) (cwRing cw)
  | .poll => .poll (cwFlag cw) (cwDev cw) (cwSub cw)
  | .cbReg => .cbReg (cwDev cw) (extWord xs 0) (extWord xs 1) (join64 (extWord xs 2) (extWord xs 3))
  | .cntShow => .cntShow (cwDev cw) (extWord xs 0)
  | .injectAll => .injectAll (cwDev cw) (cwSub cw) (extWord xs 0)
  | .enableAll => .enableAll (cwFlag cw) (cwDev cw) (cwSub cw) (extWord xs 0)
  | .logEvent => .logEvent (cwDev cw) (cwSub cw) (cwRing cw) (LogDir.ofCode (cwDir cw)) (extWord xs 0) (extWord xs 1)
      (joinPairs (xs.drop 2))
  | .logRead => .logRead (cwDev cw) (cwSub cw) (join64 (extWord xs 0) (extWord xs 1))

/-- What the decoder finds at the front of a command stream. -/
inductive Decoded where
  /-- No word is waiting: no command is presented. -/
  | empty
  /-- The command word is illegal; it alone is consumed (R96). -/
  | illegal (rest : List Word)
  /-- The stream ends inside the command (R93). -/
  | truncated
  /-- A command, and the stream after its `len` words. -/
  | command (i : Instr) (rest : List Word)
deriving DecidableEq, Repr

/-- The decoder: it reads `CW`, finds its row, then takes `len - 1` extension words (R93). -/
def decode : List Word → Decoded
  | [] => .empty
  | cw :: rest =>
    match selectOp cw with
    | none => .illegal rest
    | some op =>
      if rest.length < extCount op cw then .truncated
      else .command (assemble op cw (rest.take (extCount op cw))) (rest.drop (extCount op cw))

/-- The most words a command has: a `LOG_EVENT` with four data words (R93). -/
abbrev longestCommand : Nat := 11

/-- Cut a number into `n` words, bits 31..0 first (the numbering of the opcode table). -/
def wordsOf (n w : Nat) : List Word := (List.range n).map (fun k => BitVec.ofNat 32 (w >>> (32 * k)))

/-- The instruction the decoder reads from an instruction whose table bits are `w`, every bit above them zero. -/
def decodeTableWord (nbits w : Nat) : Option Instr :=
  match decode (wordsOf longestCommand (w % 2 ^ nbits)) with
  | .command i _ => some i
  | _ => none

/-- The opcode `OP` of a row (R94). -/
def Op.code : Op → BitVec 6
  | .rd => 0x01#6
  | .wr => 0x02#6
  | .devInit => 0x03#6
  | .ringCfg => 0x08#6
  | .updateView => 0x09#6
  | .used => 0x0A#6
  | .ringDump => 0x0B#6
  | .poll => 0x10#6
  | .cbReg => 0x11#6
  | .cntShow => 0x12#6
  | .injectAll => 0x13#6
  | .enableAll => 0x14#6
  | .logEvent => 0x18#6
  | .logRead => 0x19#6

/-- A command word from its fields, the format of R91 with bit 24 zero. -/
def commandWord (op : Op) (f : Bool) (d : DevId) (s : SubId) (r : RingId) (n : BitVec 12) : Word :=
  op.code ++ BitVec.ofBool f ++ 0#1 ++ d ++ s ++ r ++ n

/-- The immediate `N` of a `LOG_EVENT`: `dir` in `N[6:4]`, `n_words` in `N[2:0]`, the rest zero (R97). -/
def logImmediate (dir : LogDir) (words : BitVec 3) : BitVec 12 := 0#5 ++ dir.code ++ 0#1 ++ words

/-- Data words as extension words, the low half of each first (R92). -/
def splitPairs : List DWord → List Word
  | [] => []
  | v :: rest => lowWord v :: highWord v :: splitPairs rest

/-- The words of a command: `CW`, then the extension words (R91, R92). -/
def encode : Instr → List Word
  | .rd d s addr => [commandWord .rd false d s 0 0, addr]
  | .wr d s addr value => [commandWord .wr false d s 0 0, addr, value]
  | .devInit d => [commandWord .devInit false d 0 0 0]
  | .ringCfg d s r base depth wpd lock =>
      [commandWord .ringCfg false d s r 0, lowWord base, highWord base, depth, 0#15 ++ BitVec.ofBool lock ++ wpd]
  | .updateView d s r => [commandWord .updateView false d s r 0]
  | .used d s r => [commandWord .used false d s r 0]
  | .ringDump d s r => [commandWord .ringDump false d s r 0]
  | .poll force d s => [commandWord .poll force d s 0 0]
  | .cbReg d addr fn ud => [commandWord .cbReg false d 0 0 0, addr, fn, lowWord ud, highWord ud]
  | .cntShow d addr => [commandWord .cntShow false d 0 0 0, addr]
  | .injectAll d s addr => [commandWord .injectAll false d s 0 0, addr]
  | .enableAll on d s addr => [commandWord .enableAll on d s 0 0, addr]
  | .logEvent d s r dir head tail data =>
      commandWord .logEvent false d s r (logImmediate dir (BitVec.ofNat 3 data.length)) :: head :: tail :: splitPairs data
  | .logRead d s filter => [commandWord .logRead false d s 0 0, lowWord filter, highWord filter]

end Sys2Proof
end

