-- ==== Sys2Proof/Machine/Tree.lean ====
section
/-! DEFINITION. The static tree and the other parameters of `CFG` as functions: `ADDR` and `KIND` (R36), the tables and
their walk (R31 to R34, R188), the security check (R221), and the well-formedness of a configuration (R7). -/

namespace Sys2Proof.Machine

/-- A leaf's descriptor, all zero past the end of `TREE.leaves` (no rule names such a leaf). -/
def leafDesc (c : Cfg) (L : LeafId) : LeafDesc := c.leaves.getD L ⟨0#32, 0#32, 0#32, 0#32, 0#32⟩

/-- `ADDR`: the address of a register (R36). -/
def addrOf (c : Cfg) : Reg → Addr
  | .glbShadow => c.glbShadowAddr
  | .shadowInt i => c.shadowIntAddr.getD i 0#32
  | .shadowMsk i => c.shadowMskAddr.getD i 0#32
  | .status L => (leafDesc c L).statusAddr
  | .enHi L => (leafDesc c L).enHiAddr
  | .enLo L => (leafDesc c L).enLoAddr
  | .inject L => (leafDesc c L).injectAddr
  | .headPtr r => c.headPtrAddr.getD r 0#32
  | .tailPtr r => c.tailPtrAddr.getD r 0#32

/-- `leaf_of(a)`: the leaf whose status address is `a` (R34). -/
def leafOf (c : Cfg) (a : Addr) : Option LeafId := c.leaves.findIdx? (fun l => decide (l.statusAddr = a))

/-- `KIND(a)`: the register an address names, none where it is unmapped (R36). -/
def kind (c : Cfg) (a : Addr) : Option Reg :=
  if a = c.glbShadowAddr then some .glbShadow
  else match c.shadowIntAddr.findIdx? (fun x => decide (x = a)) with
  | some i => some (.shadowInt i)
  | none => match c.shadowMskAddr.findIdx? (fun x => decide (x = a)) with
  | some i => some (.shadowMsk i)
  | none => match leafOf c a with
  | some L => some (.status L)
  | none => match c.leaves.findIdx? (fun l => decide (l.enHiAddr = a)) with
  | some L => some (.enHi L)
  | none => match c.leaves.findIdx? (fun l => decide (l.enLoAddr = a)) with
  | some L => some (.enLo L)
  | none => match c.leaves.findIdx? (fun l => decide (l.injectAddr = a)) with
  | some L => some (.inject L)
  | none => match c.headPtrAddr.findIdx? (fun x => decide (x = a)) with
  | some r => some (.headPtr r)
  | none => match c.tailPtrAddr.findIdx? (fun x => decide (x = a)) with
  | some r => some (.tailPtr r)
  | none => none

/-- The registers that have an address (R36). -/
def regExists (c : Cfg) : Reg → Bool
  | .glbShadow => true
  | .shadowInt i => decide (i < nSlot)
  | .shadowMsk i => decide (i < nSlot)
  | .status L => decide (L < c.leaves.length)
  | .enHi L => decide (L < c.leaves.length)
  | .enLo L => decide (L < c.leaves.length)
  | .inject L => decide (L < c.leaves.length)
  | .headPtr r => decide (r < c.nRing)
  | .tailPtr r => decide (r < c.nRing)

/-- `TREE.slot(i)` (R32). -/
def slotTable (c : Cfg) (i : Nat) : Option BusTable := c.slots.getD i none

/-- `SLOT_CLASS(i)`, a label that selects nothing by itself (R33). -/
def slotClassOf (c : Cfg) (i : Nat) : Option SlotLabel := c.slotClass.getD i none

/-- `T.entry(b)` of a bus table (R32). -/
def tableEntry (t : BusTable) (b : Nat) : Option Body := (t.entries.find? (fun e => decide (e.1 = b))).map Prod.snd

mutual
/-- Every leaf under a body, in table order. -/
def bodyLeaves : Body → List LeafId
  | .flat ls => ls
  | .nested g => groupsLeaves g

/-- Every leaf under a list of groups, in table order. -/
def groupsLeaves : Groups → List LeafId
  | .nil => []
  | .cons _ b rest => bodyLeaves b ++ groupsLeaves rest
end

/-- Every leaf in a bus table. -/
def tableLeaves (t : BusTable) : List LeafId := t.entries.flatMap (fun e => bodyLeaves e.2)

/-- Every leaf in the table of slot `i`. -/
def slotLeaves (c : Cfg) (i : Nat) : List LeafId :=
  match slotTable c i with
  | none => []
  | some t => tableLeaves t

/-- `slot_of(L)`: the slot whose tables contain `L` (R34). -/
def slotOf (c : Cfg) (L : LeafId) : Option Nat := (List.range nSlot).find? (fun i => (slotLeaves c i).contains L)

/-- `bits_asc(v)`: the set bits of a word in ascending order (R8). -/
def bitsAsc (v : Word) : List Nat := (List.range nBit).filter (fun b => v.getLsbD b)

mutual
/-- `walk(body, W)`: every mask is tested against the slot's latched word (R188). -/
def walk (c : Cfg) (w : Word) : Body → List LeafId
  | .flat ls => ls.filter (fun L => decide (w &&& (leafDesc c L).shadowMask ≠ 0#32))
  | .nested g => walkGroups c w g

/-- The groups of a `Nested` body whose sub-mask meets `W`, in table order (R188). -/
def walkGroups (c : Cfg) (w : Word) : Groups → List LeafId
  | .nil => []
  | .cons submask b rest => (if w &&& submask ≠ 0#32 then walk c w b else []) ++ walkGroups c w rest
end

/-- `leaves_to_service(i, W)` (R188). -/
def leavesToService (c : Cfg) (i : Nat) (w : Word) : List LeafId :=
  match slotTable c i with
  | none => []
  | some t => (bitsAsc w).flatMap (fun b =>
      match tableEntry t b with
      | none => []
      | some body => walk c w body)

/-- `SEC_OK(d, s, a)` (R221). -/
def secOk (c : Cfg) (d : DevId) (s : SubId) (a : Addr) : Bool := !(c.secDeny.contains (d, s, a))

/-- `leaf_ok(d, s, L)` (R221). -/
def leafOk (c : Cfg) (d : DevId) (s : SubId) (L : LeafId) : Bool := secOk c d s (leafDesc c L).statusAddr

/-- `INJECT_PATTERN(L)` (R223). -/
def injectPatternOf (c : Cfg) (L : LeafId) : Word :=
  match c.injectPattern.find? (fun e => decide (e.1 = L)) with
  | some e => e.2
  | none => ones

/-- `RING_DIR(r)` (R153). -/
def ringDir (c : Cfg) (r : RingId) : RingDir := if c.hwProduces.contains r then .hwProduces else .hostProduces

/-- The value of a handler operand in a message (R193). -/
def handlerArg (m : DispatchMsg) : HandlerArg → Word
  | .lit w => w
  | .statusAddr => m.statusAddr
  | .raw => m.raw
  | .enHiAddr => m.enHiAddr
  | .enLoAddr => m.enLoAddr
  | .udLow => lowWord m.ud
  | .udHigh => highWord m.ud

/-- The command a tabulated handler's step stands for. -/
def handlerStepCommand (m : DispatchMsg) : HandlerStep → Instr
  | .rd a => .rd m.dev m.sub (handlerArg m a)
  | .wr a v => .wr m.dev m.sub (handlerArg m a) (handlerArg m v)
  | .cmd i => i

/-- `HANDLER(fn, args)`: the finite sequence of commands a callback issues (R194). -/
def handlerCommands (c : Cfg) (m : DispatchMsg) : List Instr :=
  match c.handlers.find? (fun h => decide (h.1 = m.fn)) with
  | some h => h.2.map (handlerStepCommand m)
  | none => Config.handler m

/-- Every address `ADDR` yields (R36). -/
def allAddrs (c : Cfg) : List Addr :=
  c.glbShadowAddr :: c.shadowIntAddr ++ c.shadowMskAddr ++
    c.leaves.flatMap (fun l => [l.statusAddr, l.enHiAddr, l.enLoAddr, l.injectAddr]) ++ c.headPtrAddr ++ c.tailPtrAddr

/-- The number occurs in the list. -/
def occurs (x : Nat) : List Nat → Bool
  | [] => false
  | y :: ys => Nat.beq x y || occurs x ys

/-- No two elements are equal. -/
def allDistinct : List Nat → Bool
  | [] => true
  | x :: xs => !(occurs x xs) && allDistinct xs

/-- R7 (a) and (b): `ADDR` gives an address to each register, is injective, and stays below `2^AW`. -/
def cfgAddrsWf (c : Cfg) : Bool :=
  decide (c.shadowIntAddr.length = nSlot) && decide (c.shadowMskAddr.length = nSlot) &&
  decide (c.headPtrAddr.length = c.nRing) && decide (c.tailPtrAddr.length = c.nRing) &&
  allDistinct ((allAddrs c).map BitVec.toNat) && (allAddrs c).all (fun a => decide (a.toNat < 2 ^ c.aw))

/-- R7 (c): every leaf occurs exactly once in the tables of exactly one slot, and the tables hold nothing else. -/
def cfgLeavesWf (c : Cfg) : Bool :=
  let placed := (List.range nSlot).flatMap (slotLeaves c)
  allDistinct placed && placed.all (fun L => decide (L < c.leaves.length)) &&
  (List.range c.leaves.length).all (fun L => occurs L placed)

/-- R7 (d): at most one entry per bit 0..31. -/
def tableEntriesWf (t : BusTable) : Bool :=
  allDistinct (t.entries.map Prod.fst) && t.entries.all (fun e => decide (e.1 < nBit))

mutual
/-- How many `Nested` levels a body has. -/
def bodyDepth : Body → Nat
  | .flat _ => 0
  | .nested g => 1 + groupsDepth g

/-- The most `Nested` levels below a list of groups. -/
def groupsDepth : Groups → Nat
  | .nil => 0
  | .cons _ b rest => max (bodyDepth b) (groupsDepth rest)
end

/-- R7 (d) and (e) for a bus table: nesting below an entry is at most two `Nested` levels. -/
def tableWf (t : BusTable) : Bool := tableEntriesWf t && t.entries.all (fun e => decide (bodyDepth e.2 ≤ 2))

/-- The bounds of R6 on the id ranges, the room a 32-bit pointer word leaves for its index, at most one table per slot
(log entry 9). -/
def cfgBoundsWf (c : Cfg) : Bool :=
  decide (c.nDev ≤ 16) && decide (c.nSubdev ≤ 4) && decide (c.nRing ≤ 64) && decide (c.ptrIdxW ≤ 31) &&
  decide (c.slots.length ≤ nSlot)

/-- `SEC_OK` "must take the same value on the four addresses of one leaf" (R221). -/
def cfgSecWf (c : Cfg) : Bool :=
  c.secDeny.all (fun t => c.leaves.all (fun l =>
    let four := [l.statusAddr, l.enHiAddr, l.enLoAddr, l.injectAddr]
    !(four.contains t.2.2) || four.all (fun a => !(secOk c t.1 t.2.1 a))))

/-- The well-formedness of a configuration (R7); R7 (f) is about configured rings and is kept by `RING_CFG` (R154). -/
def cfgWf (c : Cfg) : Bool :=
  cfgBoundsWf c && cfgAddrsWf c && cfgLeavesWf c && c.slots.all (fun t => match t with | none => true | some t => tableWf t) && cfgSecWf c

end Sys2Proof.Machine
end

