-- ==== Sys2Proof/Machine/Operands.lean ====
section
/-! DEFINITION. The operands of a command: ids and their ranges (R20, R95), 64-bit quantities as result words (R65), and
what an entry test answers. -/

namespace Sys2Proof.Machine

/-- `d < N_DEV` (R20). -/
def devOk (c : Cfg) (d : DevId) : Bool := decide (d.toNat < c.nDev)

/-- `s < N_SUBDEV` (R20). -/
def subOk (c : Cfg) (s : SubId) : Bool := decide (s.toNat < c.nSubdev)

/-- `r < N_RING` (R20). -/
def ringOk (c : Cfg) (r : RingId) : Bool := decide (r.toNat < c.nRing)

/-- The ids of a device command with a subdevice are in range (R95). -/
def idsOk (c : Cfg) (d : DevId) (s : SubId) : Bool := devOk c d && subOk c s

/-- The ids of a ring command or a `LOG_EVENT` are in range (R95). -/
def ringIdsOk (c : Cfg) (d : DevId) (s : SubId) (r : RingId) : Bool := devOk c d && subOk c s && ringOk c r

/-- A flag as a result word, `zext_32` of one bit (R161). -/
def boolWord (b : Bool) : Word := BitVec.ofNat 32 b.toNat

/-- What the tests at the head of a command's pseudocode answer (R262). -/
inductive Gate (α : Type) where
  /-- The command ends here with this response. -/
  | answer (r : Response)
  /-- The run is outside the spec. -/
  | refuse (r : Refusal)
  /-- The command goes on, with what the tests found. -/
  | pass (a : α)
deriving Repr

/-- `return (ST_INVALID_ARG, [])` (R261). -/
def rInvalid : Response := ⟨.invalidArg, []⟩

/-- `return (ST_OK, [])` (R261). -/
def rOk : Response := ⟨.ok, []⟩

/-- `return (ST_NO_RESOURCE, [])` (R246). -/
def rNoResource : Response := ⟨.noResource, []⟩

/-- `return (ST_ILLEGAL_CMD, [])` (R96). -/
def rIllegal : Response := ⟨.illegalCmd, []⟩

/-- The number of a status code (R261). -/
def Status.code : Status → Word
  | .ok => 0#32
  | .invalidArg => 1#32
  | .noResource => 2#32
  | .illegalCmd => 3#32

/-- The words of a response as the port carries them: the status word, then the result words (R90). -/
def Response.toWords (r : Response) : List Word := r.status.code :: r.words

end Sys2Proof.Machine
end

