-- ==== Sys2Proof/Machine/Ops.lean ====
section
/-! DEFINITION. The named operations over the state: the indexed registers of R20 to R46, the two transport primitives
`RegRead` and `RegWrite` (R62, R63), the derived words of the masked status shadow tree (R38 to R40), the failure of a
command (R260), and service entry and return (R274, R276). -/

namespace Sys2Proof.Machine

/-- Go on with the next state of an outcome. -/
def andThen {α β : Type} (o : Host.Outcome α Fault Refusal) (f : α → Host.Outcome β Fault Refusal) :
    Host.Outcome β Fault Refusal :=
  match o with
  | .next a => f a
  | .fault r => .fault r
  | .refused r => .refused r

/-! ## Indices -/

/-- The key of element `[d][s][x]` of an array (R20). -/
def dsKey (d : DevId) (s : SubId) (x : Nat) : Nat := d.toNat + 16 * (s.toNat + 4 * x)

/-- The key of element `[d][x]` of an array (R20). -/
def dKey (d : DevId) (x : Nat) : Nat := d.toNat + 16 * x

/-- The key of element `[d][L][b]` of a counter array (R42). -/
def cntKey (d : DevId) (L : LeafId) (b : Nat) : Nat := dKey d (b + nBit * L)

/-! ## Registers and arrays -/

/-- `STATUS[d][s][L]` (R22). -/
def State.statusAt (st : State) (d : DevId) (s : SubId) (L : LeafId) : Word := st.status.read (dsKey d s L)
/-- `EN_HI[d][s][L]` (R23). -/
def State.enHiAt (st : State) (d : DevId) (s : SubId) (L : LeafId) : Word := st.enHi.read (dsKey d s L)
/-- `EN_LO[d][s][L]` (R23). -/
def State.enLoAt (st : State) (d : DevId) (s : SubId) (L : LeafId) : Word := st.enLo.read (dsKey d s L)
/-- `SHADOW_MSK[d][s][i]` (R25). -/
def State.shadowMskAt (st : State) (d : DevId) (s : SubId) (i : Nat) : Word := st.shadowMsk.read (dsKey d s i)
/-- `HEAD_PTR[d][s][r]` (R26). -/
def State.headPtrAt (st : State) (d : DevId) (s : SubId) (r : Nat) : Word := st.headPtr.read (dsKey d s r)
/-- `TAIL_PTR[d][s][r]` (R26). -/
def State.tailPtrAt (st : State) (d : DevId) (s : SubId) (r : Nat) : Word := st.tailPtr.read (dsKey d s r)
/-- `CB[d][L]` (R41). -/
def State.cbAt (st : State) (d : DevId) (L : LeafId) : Option Callback := Store.get none st.cb (dKey d L)
/-- `COUNT[d][L][b]` (R42). -/
def State.countAt (st : State) (d : DevId) (L : LeafId) (b : Nat) : Word := st.count.read (cntKey d L b)
/-- `COUNT_SHOWN[d][L][b]` (R42). -/
def State.countShownAt (st : State) (d : DevId) (L : LeafId) (b : Nat) : Word := st.countShown.read (cntKey d L b)
/-- `VIEW[d][s][r]` (R43). -/
def State.viewAt (st : State) (d : DevId) (s : SubId) (r : RingId) : View := Store.get View.zero st.view (dsKey d s r.toNat)
/-- `LOG.entries[slot]` (R44). -/
def State.logAt (st : State) (slot : Nat) : LogEntry := Store.get LogEntry.empty st.logEntries slot
/-- `SEQ[d]` (R45). -/
def State.seqAt (st : State) (d : DevId) : Seq := Store.get Seq.reset st.seq (dKey d 0)
/-- `DEV_READY[d]` (R46). -/
def State.readyAt (st : State) (d : DevId) : Bool := Store.get false st.devReady (dKey d 0)
/-- Host thread `t` (R12). -/
def State.threadAt (st : State) (t : Nat) : Thread := Store.get Thread.fresh st.threads t

/-- `STATUS[d][s][L] <- v`. -/
def State.setStatus (st : State) (d : DevId) (s : SubId) (L : LeafId) (v : Word) : State :=
  { st with status := st.status.write (dsKey d s L) v }
/-- `EN_HI[d][s][L] <- v`. -/
def State.setEnHi (st : State) (d : DevId) (s : SubId) (L : LeafId) (v : Word) : State :=
  { st with enHi := st.enHi.write (dsKey d s L) v }
/-- `EN_LO[d][s][L] <- v`. -/
def State.setEnLo (st : State) (d : DevId) (s : SubId) (L : LeafId) (v : Word) : State :=
  { st with enLo := st.enLo.write (dsKey d s L) v }
/-- `SHADOW_MSK[d][s][i] <- v`. -/
def State.setShadowMsk (st : State) (d : DevId) (s : SubId) (i : Nat) (v : Word) : State :=
  { st with shadowMsk := st.shadowMsk.write (dsKey d s i) v }
/-- `HEAD_PTR[d][s][r] <- v`; the caller masks (R63). -/
def State.setHeadPtr (st : State) (d : DevId) (s : SubId) (r : Nat) (v : Word) : State :=
  { st with headPtr := st.headPtr.write (dsKey d s r) v }
/-- `TAIL_PTR[d][s][r] <- v`; the caller masks (R63). -/
def State.setTailPtr (st : State) (d : DevId) (s : SubId) (r : Nat) (v : Word) : State :=
  { st with tailPtr := st.tailPtr.write (dsKey d s r) v }
/-- `CB[d][L] <- v`. -/
def State.setCb (st : State) (d : DevId) (L : LeafId) (v : Option Callback) : State :=
  { st with cb := Store.put none st.cb (dKey d L) v }
/-- `COUNT[d][L][b] <- v`. -/
def State.setCount (st : State) (d : DevId) (L : LeafId) (b : Nat) (v : Word) : State :=
  { st with count := st.count.write (cntKey d L b) v }
/-- `COUNT_SHOWN[d][L][b] <- v`. -/
def State.setCountShown (st : State) (d : DevId) (L : LeafId) (b : Nat) (v : Word) : State :=
  { st with countShown := st.countShown.write (cntKey d L b) v }
/-- `VIEW[d][s][r] <- v`. -/
def State.setView (st : State) (d : DevId) (s : SubId) (r : RingId) (v : View) : State :=
  { st with view := Store.put View.zero st.view (dsKey d s r.toNat) v }
/-- `LOG.entries[slot] <- e`. -/
def State.setLog (st : State) (slot : Nat) (e : LogEntry) : State :=
  { st with logEntries := Store.put LogEntry.empty st.logEntries slot e }
/-- `SEQ[d] <- q`. -/
def State.setSeq (st : State) (d : DevId) (q : Seq) : State := { st with seq := Store.put Seq.reset st.seq (dKey d 0) q }
/-- `DEV_READY[d] <- b`. -/
def State.setReady (st : State) (d : DevId) (b : Bool) : State :=
  { st with devReady := Store.put false st.devReady (dKey d 0) b }
/-- Host thread `t` becomes `th`. -/
def State.setThread (st : State) (t : Nat) (th : Thread) : State :=
  { st with threads := Store.put Thread.fresh st.threads t th }

/-- Append to what the transport and the callback port have shown. -/
def State.emit (st : State) (e : Event) : State := { st with trace := st.trace ++ [e] }

/-- The end of a command: its response stands at the port (R90). -/
def State.respond (st : State) (r : Response) : State := { st with resp := r }

/-- Which polls the running thread is inside of. -/
def State.setPolling (st : State) (ds : List DevId) : State := { st with polling := ds }

/-- The failure of a command: a non-zero status, no result words, no state change (R260). -/
def State.fail (st : State) (r : Response) : Result := .next (st.respond r)

/-- An `UPDATE_VIEW` of some ring of the device is in progress: "`RING_CFG` and `DEV_INIT` of the ring's device do not
overlap it" (R312). -/
def deviceUpdating (st : State) (d : DevId) : Bool := st.updating.any (fun u => decide (u.1 = d))

/-! ## The masked status shadow tree -/

/-- The word whose bit `b`, for `b < n`, is `f b`. -/
def wordOfBits (f : Nat → Bool) : Nat → Word
  | 0 => 0#32
  | n + 1 => wordOfBits f n ||| (if f n then BitVec.twoPow 32 n else 0#32)

/-- `leaf_pending(d, s, L)` (R38). -/
def leafPending (st : State) (d : DevId) (s : SubId) (L : LeafId) : Bool :=
  decide (st.statusAt d s L &&& (st.enHiAt d s L ||| st.enLoAt d s L) ≠ 0#32)

/-- The bitwise OR of a list of words. -/
def orAll : List Word → Word
  | [] => 0#32
  | w :: ws => w ||| orAll ws

/-- `SHADOW_INT[d][s][i]`: the OR of the shadow masks of the slot's pending leaves (R38). -/
def shadowIntAt (st : State) (d : DevId) (s : SubId) (i : Nat) : Word :=
  orAll (((List.range st.cfg.leaves.length).filter
    (fun L => decide (slotOf st.cfg L = some i) && leafPending st d s L)).map (fun L => (leafDesc st.cfg L).shadowMask))

/-- `GLB_SHADOW[d][s]`: bit `i` is 1 iff slot `i` has an unmasked shadow bit (R39). -/
def glbShadowAt (st : State) (d : DevId) (s : SubId) : Word :=
  wordOfBits (fun i => decide (shadowIntAt st d s i &&& ~~~ st.shadowMskAt d s i ≠ 0#32)) nSlot

/-- `INT_LINE[d][s]`, the output wire (R40). -/
def intLine (st : State) (d : DevId) (s : SubId) : Bool := decide (glbShadowAt st d s ≠ 0#32)

/-! ## The two transport primitives -/

/-- The value a read of a register returns (R62). -/
def regValue (st : State) (d : DevId) (s : SubId) : Reg → Word
  | .glbShadow => glbShadowAt st d s
  | .shadowInt i => shadowIntAt st d s i
  | .shadowMsk i => st.shadowMskAt d s i
  | .status L => st.statusAt d s L
  | .enHi L => st.enHiAt d s L
  | .enLo L => st.enLoAt d s L
  | .inject _ => 0#32
  | .headPtr r => st.headPtrAt d s r
  | .tailPtr r => st.tailPtrAt d s r

/-- What a write of a register changes (R63). -/
def regStore (st : State) (d : DevId) (s : SubId) (reg : Reg) (v : Word) : State :=
  match reg with
  | .glbShadow => st
  | .shadowInt _ => st
  | .shadowMsk i => st.setShadowMsk d s i v
  | .status L => st.setStatus d s L (st.statusAt d s L &&& ~~~ v)
  | .enHi L => st.setEnHi d s L v
  | .enLo L => st.setEnLo d s L v
  | .inject L => st.setStatus d s L (st.statusAt d s L ||| v)
  | .headPtr r => st.setHeadPtr d s r (v &&& ptrMask st.cfg)
  | .tailPtr r => st.setTailPtr d s r (v &&& ptrMask st.cfg)

/-- `RegRead(d, s, ADDR(reg))` as the transport sees it: the access, with its value, and no other change (R62). -/
def regRead (st : State) (d : DevId) (s : SubId) (reg : Reg) : State :=
  st.emit (.read d s (addrOf st.cfg reg) (regValue st d s reg))

/-- `RegWrite(d, s, ADDR(reg), v)` as the transport sees it (R63). -/
def regWrite (st : State) (d : DevId) (s : SubId) (reg : Reg) (v : Word) : State :=
  (regStore st d s reg v).emit (.write d s (addrOf st.cfg reg) v)

/-! ## Service entry and return -/

/-- P3, the first act of service entry: mask slot `i` off (R186, R274). `phase` becomes READ, log entry 21. -/
def serviceMask (st : State) (d : DevId) (i : Nat) : State :=
  let q := st.seqAt d
  (regWrite st d q.sub (.shadowMsk i) ones).setSeq d { q with i := i, phase := .read }

/-- P4, the second act of service entry: latch the cause and find the leaves to service (R186, R188, R274). `phase`, to
which R45 and R180 give no value in LEAF_DISPATCH, stays READ until P6 (DESIGN CHOICE, log entry 21). -/
def serviceLatch (st : State) (d : DevId) (i : Nat) : State :=
  let q := st.seqAt d
  let w := if q.force && st.cfg.forceAllDeep then ones else regValue st d q.sub (.shadowInt i)
  (regRead st d q.sub (.shadowInt i)).setSeq d
    { q with st := .leafDispatch, w := w, todo := leavesToService st.cfg i w }

/-- P6, service return: un-mask slot `i` and go on with the next (R192, R276). `phase` becomes MASK, log entry 21. -/
def serviceUnmask (st : State) (d : DevId) (i : Nat) : State :=
  let q := st.seqAt d
  (regWrite st d q.sub (.shadowMsk i) 0#32).setSeq d { q with st := .shadowWordScan, phase := .mask, i := i + 1 }

end Sys2Proof.Machine
end

