-- ==== Sys2Proof/Machine/Dispatcher.lean ====
section
/-! DEFINITION. The dispatcher: `CB_REG` (R200), `CNT_SHOW` (R203), and the micro-steps of a poll cycle (R182 to R193);
service entry and return stand in Machine/Ops.lean. -/

namespace Sys2Proof.Machine

/-- The result words of `CB_REG`: the previous callback, or three zeros (R200). -/
def callbackWords : Option Callback → List Word
  | none => [0#32, 0#32, 0#32]
  | some cb => [cb.fn, lowWord cb.ud, highWord cb.ud]

/-- `CB_REG d, addr, fn, ud` (R200), refused while a poll of the device is in progress (R311). -/
def execCbReg (d : DevId) (addr : Addr) (fn : Word) (ud : DWord) (st : State) : Result :=
  if devOk st.cfg d = false then st.fail rInvalid
  else match leafOf st.cfg addr with
    | none => st.fail rInvalid
    | some L =>
      if st.readyAt d = false then .next (st.respond ⟨.ok, callbackWords none⟩)
      else if (st.seqAt d).st ≠ .idle then .refused (.deviceBusy d)
      else .next ((st.setCb d L (if fn = 0#32 then none else some ⟨fn, ud⟩)).respond
        ⟨.ok, callbackWords (st.cbAt d L)⟩)

/-- The result words of `CNT_SHOW`: the counts, then the differences since the last display (R203). -/
def countWords (st : State) (d : DevId) (L : LeafId) : List Word :=
  (List.range nBit).map (fun b => st.countAt d L b) ++
  (List.range nBit).map (fun b => st.countAt d L b - st.countShownAt d L b)

/-- `COUNT_SHOWN[d][L][b] <- COUNT[d][L][b]` for the bits listed (R203). -/
def showCounts (st : State) (d : DevId) (L : LeafId) : List Nat → State
  | [] => st
  | b :: bs => showCounts (st.setCountShown d L b (st.countAt d L b)) d L bs

/-- `CNT_SHOW d, addr` (R203), refused while a poll of the device is in progress on another thread (R311); a handler of
the device's own poll may issue it (R194). -/
def execCntShow (d : DevId) (addr : Addr) (st : State) : Result :=
  if devOk st.cfg d = false then st.fail rInvalid
  else match leafOf st.cfg addr with
    | none => st.fail rInvalid
    | some L =>
      if (st.seqAt d).st ≠ .idle ∧ d ∉ st.polling then .refused (.deviceBusy d)
      else .next ((showCounts st d L (List.range nBit)).respond ⟨.ok, countWords st d L⟩)

/-- The device whose poll a handler's command would break into: `POLL`, `CB_REG` and `DEV_INIT` on a device the thread is
polling are "forbidden, and refused by the model" (R194). `polled` is empty for a command no handler issues. -/
def handlerForbids (polled : List DevId) : Instr → Option DevId
  | .rd _ _ _ => none
  | .wr _ _ _ _ => none
  | .devInit d => polled.find? (fun d' => decide (d' = d))
  | .ringCfg _ _ _ _ _ _ _ => none
  | .updateView _ _ _ => none
  | .used _ _ _ => none
  | .ringDump _ _ _ => none
  | .poll _ d _ => polled.find? (fun d' => decide (d' = d))
  | .cbReg d _ _ _ => polled.find? (fun d' => decide (d' = d))
  | .cntShow _ _ => none
  | .injectAll _ _ _ => none
  | .enableAll _ _ _ _ => none
  | .logEvent _ _ _ _ _ _ _ => none
  | .logRead _ _ _ => none

/-- The tests of P0 (R182). -/
def pollGate (st : State) (d : DevId) (s : SubId) : Gate Unit :=
  if idsOk st.cfg d s = false then .answer rInvalid
  else if st.readyAt d = false then .answer rOk
  else if (st.seqAt d).st ≠ .idle then .refuse (.deviceBusy d)
  else .pass ()

/-- P0: `SEQ[d] <- { st = GLOBAL_CHECK, sub = s, force }`, every other field zero or empty (R182); `phase` is
MASK, log entry 21. -/
def pollOpen (st : State) (d : DevId) (s : SubId) (force : Bool) : State :=
  st.setSeq d { Seq.reset with st := .globalCheck, sub := s, force := force }

/-- P1: read the global word once, and leave or latch it (R183, R184). `phase` becomes MASK with SHADOW_WORD_SCAN, log
entry 21. -/
def pollGlobal (st : State) (d : DevId) : State :=
  let q := st.seqAt d
  let g : BitVec 16 := (regValue st d q.sub .glbShadow).setWidth 16
  (regRead st d q.sub .glbShadow).setSeq d
    (if g = 0#16 ∧ q.force = false then { q with st := .idle }
     else { q with g := if q.force then 0xFFFF#16 else g, i := 0, st := .shadowWordScan, phase := .mask })

/-- P2 on a slot whose latched bit is 0: no register access (R185). -/
def pollSkip (st : State) (d : DevId) (i : Nat) : State := st.setSeq d { st.seqAt d with i := i + 1 }

/-- P2 with no slot left: the sequencer returns to `IDLE` (R185). -/
def pollClose (st : State) (d : DevId) : State := st.setSeq d { st.seqAt d with i := nSlot, st := .idle }

/-- `SEQ[d].todo` after the first leaf is taken off it. -/
def leafPop (st : State) (d : DevId) (rest : List LeafId) : State := st.setSeq d { st.seqAt d with todo := rest }

/-- The leaf is skipped because leaf service is gated and its check fails (R190). -/
def leafGated (st : State) (d : DevId) (L : LeafId) : Bool :=
  st.cfg.secGatesDispatch && !(leafOk st.cfg d (st.seqAt d).sub L)

/-- The raw status a leaf service reads: not masked with the enables (R190). -/
def leafRaw (st : State) (d : DevId) (L : LeafId) : Word := st.statusAt d (st.seqAt d).sub L

/-- `COUNT[d][L][b] <- COUNT[d][L][b] + 1` for the bits listed (R191). -/
def countBits (st : State) (d : DevId) (L : LeafId) : List Nat → State
  | [] => st
  | b :: bs => countBits (st.setCount d L b (st.countAt d L b + 1#32)) d L bs

/-- The first part of `service_leaf`: read the live status and count each asserted bit (R190, R191). -/
def leafRead (st : State) (d : DevId) (L : LeafId) : State :=
  countBits (regRead st d (st.seqAt d).sub (.status L)) d L (bitsAsc (leafRaw st d L))

/-- The message for the callback of a leaf, if one is registered and to be invoked (R192, R193). -/
def leafMessage (st : State) (d : DevId) (L : LeafId) (raw : Word) : Option DispatchMsg :=
  match st.cbAt d L with
  | none => none
  | some cb =>
    if raw ≠ 0#32 ∨ st.cfg.cbOnZero = true then
      some { fn := cb.fn, dev := d, sub := (st.seqAt d).sub, statusAddr := (leafDesc st.cfg L).statusAddr, raw := raw,
             enHiAddr := (leafDesc st.cfg L).enHiAddr, enLoAddr := (leafDesc st.cfg L).enLoAddr, ud := cb.ud }
    else none

end Sys2Proof.Machine
end

