-- ==== Sys2Proof/Machine/Inject.lean ====
section
/-! DEFINITION. Interrupt injection and enable control behind the security gate: `INJECT_ALL` (R223) and the micro-steps
of `ENABLE_ALL` (R224). -/

namespace Sys2Proof.Machine

/-- The tests of `INJECT_ALL` and `ENABLE_ALL`: ids, the leaf, readiness, the security gate (R222 to R224). -/
def leafGate (st : State) (d : DevId) (s : SubId) (addr : Addr) : Gate LeafId :=
  if idsOk st.cfg d s = false then .answer rInvalid
  else match leafOf st.cfg addr with
    | none => .answer rInvalid
    | some L =>
      if st.readyAt d = false then .answer rOk
      else if leafOk st.cfg d s L = false then .answer rOk
      else .pass L

/-- `INJECT_ALL d, s, addr` (R223). -/
def execInjectAll (d : DevId) (s : SubId) (addr : Addr) (st : State) : Result :=
  match leafGate st d s addr with
  | .answer r => .next (st.respond r)
  | .refuse r => .refused r
  | .pass L => .next ((regWrite st d s (.inject L) (injectPatternOf st.cfg L)).respond rOk)

/-- The word `ENABLE_ALL` writes: all-ones or zero (R224). -/
def enableWord (on : Bool) : Word := if on then ones else 0#32

/-- The first write of `ENABLE_ALL` (R224). -/
def enableHi (st : State) (on : Bool) (d : DevId) (s : SubId) (L : LeafId) : State :=
  regWrite st d s (.enHi L) (enableWord on)

/-- The second write of `ENABLE_ALL`, after which it returns (R224). -/
def enableLo (st : State) (on : Bool) (d : DevId) (s : SubId) (L : LeafId) : State :=
  (regWrite st d s (.enLo L) (enableWord on)).respond rOk

end Sys2Proof.Machine
end

