-- ==== Sys2Proof/Machine/Log.lean ====
section
/-! DEFINITION. The DMA transaction log: the draws (R242, R246), the micro-steps of `LOG_EVENT` (R240) and of `LOG_READ`
(R246). -/

namespace Sys2Proof.Machine

/-- `draw CLOCK`: the next queued draw, or a free value where none is queued (R242, log entry 4). -/
def clockValue (st : State) : DWord :=
  match st.clockIn with
  | t :: _ => t
  | [] => Config.clock st.draws

/-- The state after a clock draw. -/
def clockDrawn (st : State) : State :=
  match st.clockIn with
  | _ :: ts => { st with clockIn := ts }
  | [] => { st with draws := st.draws + 1 }

/-- `draw ALLOC`: true where `ALLOC_CAN_FAIL` is false, else the next queued draw, or a free value where none is queued
(R246, log entry 5). -/
def allocValue (st : State) : Bool :=
  if st.cfg.allocCanFail = false then true
  else match st.allocIn with
    | b :: _ => b
    | [] => Config.alloc st.draws

/-- The state after an allocation draw. -/
def allocDrawn (st : State) : State :=
  if st.cfg.allocCanFail = false then st
  else match st.allocIn with
    | _ :: bs => { st with allocIn := bs }
    | [] => { st with draws := st.draws + 1 }

/-- The test of `LOG_EVENT` (R240). A term with more than four data words has no legal encoding (R96, log entry 16). -/
def logGate (st : State) (d : DevId) (s : SubId) (r : RingId) (data : List DWord) : Gate Unit :=
  if dataFits data = false then .answer rIllegal
  else if ringIdsOk st.cfg d s r = false then .answer rInvalid
  else .pass ()

/-- The payload of a `LOG_EVENT`; data words beyond `n_words` are zero (R240). -/
def logPayload (d : DevId) (s : SubId) (r : RingId) (dir : LogDir) (head tail : Word) (data : List DWord) : LogPayload :=
  { dir := dir, dev := d, sub := s, ring := r, nWords := BitVec.ofNat 3 data.length, head := head, tail := tail,
    data0 := data.getD 0 0#64, data1 := data.getD 1 0#64, data2 := data.getD 2 0#64, data3 := data.getD 3 0#64 }

/-- The slot `E1` returns: `LOG.next mod 1024` (R240). -/
def logSlot (st : State) : BitVec 10 := st.logNext.setWidth 10

/-- `LOG.lock <- held` (R243). -/
def logAcquire (st : State) : State := { st with logLock := some 0 }

/-- `LOG.lock <- free` (R243). -/
def logRelease (st : State) : State := { st with logLock := none }

/-- `LOG.next <- (LOG.next + 1) mod 2^64`, under the lock (R240). -/
def logAdvance (st : State) : State := { st with logNext := st.logNext + 1#64 }

/-- `E1`: the whole critical section, one micro-step (R243). -/
def logClaim (st : State) : State := logRelease (logAdvance (logAcquire st))

/-- `E2`: the timestamp is drawn and written (R240). -/
def logStamp (st : State) (slot : BitVec 10) : State :=
  (clockDrawn st).setLog slot.toNat { st.logAt slot.toNat with ts := clockValue st }

/-- `E3`: the payload is written and the command returns (R240). -/
def logFill (st : State) (slot : BitVec 10) (p : LogPayload) : State :=
  (st.setLog slot.toNat { st.logAt slot.toNat with payload := p }).respond rOk

/-- The identity word of a record, its fields where the command word has them (R246). -/
def identityWord (p : LogPayload) : Word := 0#8 ++ p.dev ++ p.sub ++ p.ring ++ 0#5 ++ p.dir.code ++ 0#1 ++ p.nWords

/-- `record(j, e)`: fourteen words (R246). -/
def logRecord (j : Nat) (e : LogEntry) : List Word :=
  [ BitVec.ofNat 32 j, lowWord e.ts, highWord e.ts, identityWord e.payload, e.payload.head, e.payload.tail,
    lowWord e.payload.data0, highWord e.payload.data0, lowWord e.payload.data1, highWord e.payload.data1,
    lowWord e.payload.data2, highWord e.payload.data2, lowWord e.payload.data3, highWord e.payload.data3 ]

/-- The entry is reported: not empty, of this device and subdevice, of a wanted ring (R246). -/
def logWanted (d : DevId) (s : SubId) (filter : DWord) (e : LogEntry) : Bool :=
  decide (e.ts ≠ 0#64) && decide (e.payload.dev = d) && decide (e.payload.sub = s) &&
  (decide (filter = 0#64) || filter.getLsbD e.payload.ring.toNat)

/-- What slot `j` adds to the output of `LOG_READ`, read as it is now (R246). -/
def logPick (st : State) (d : DevId) (s : SubId) (filter : DWord) (j : Nat) : List (List Word) :=
  if logWanted d s filter (st.logAt j) then [logRecord j (st.logAt j)] else []

/-- The response of `LOG_READ`: the number of records, then their words (R246). -/
def logResponse (out : List (List Word)) : Response := ⟨.ok, BitVec.ofNat 32 out.length :: out.flatten⟩

end Sys2Proof.Machine
end

