-- ==== Sys2Proof/Machine/Register.lean ====
section
/-! DEFINITION. Register access and device initialisation: `RD` (R120), `WR` (R121, R125 to R127), `DEV_INIT` (R128). -/

namespace Sys2Proof.Machine

/-- `RD d, s, addr` (R120): a mapped address is read through the transport, any other is an invalid argument. -/
def execRd (d : DevId) (s : SubId) (addr : Addr) (st : State) : Result :=
  if idsOk st.cfg d s = false then st.fail rInvalid
  else match kind st.cfg addr with
    | none => st.fail rInvalid
    | some reg => .next ((regRead st d s reg).respond ⟨.ok, [regValue st d s reg]⟩)

/-- `WR d, s, addr, value` (R121): a mapped address is written through the transport, a read-only one without effect.
It runs beside a poll of the device whatever the register, the enables among them (DESIGN CHOICE, log entry 25). -/
def execWr (d : DevId) (s : SubId) (addr : Addr) (value : Word) (st : State) : Result :=
  if idsOk st.cfg d s = false then st.fail rInvalid
  else match kind st.cfg addr with
    | none => st.fail rInvalid
    | some reg => .next ((regWrite st d s reg value).respond rOk)

/-- The driver-side structures of one device rebuilt: callbacks, counters, views and sequencer as after reset, and the
device ready (R128, R301). -/
def rebuildDevice (st : State) (d : DevId) : State :=
  { st with
    cb := Store.clearDev d st.cb
    count := Store.clearDev d st.count
    countShown := Store.clearDev d st.countShown
    view := Store.clearDev d st.view
    seq := Store.put Seq.reset st.seq (dKey d 0) Seq.reset
    devReady := Store.put false st.devReady (dKey d 0) true }

/-- `DEV_INIT d` (R128), refused while a poll (R311) or an `UPDATE_VIEW` (R312) of the device is in progress. -/
def execDevInit (d : DevId) (st : State) : Result :=
  if devOk st.cfg d = false then st.fail rInvalid
  else if (st.seqAt d).st ≠ .idle then .refused (.deviceBusy d)
  else if deviceUpdating st d then .refused (.ringBusy d)
  else .next ((rebuildDevice st d).respond rOk)

end Sys2Proof.Machine
end

