-- ==== Sys2Proof/Machine/Ring.lean ====
section
/-! DEFINITION. The descriptor ring and its view: `RING_CFG` (R154), `USED` (R157), `RING_DUMP` (R161), and the
micro-steps of `UPDATE_VIEW` (R158). -/

namespace Sys2Proof.Machine

/-- "A ring is configured iff `depth != 0` and `base != 0`" (R43). -/
def viewConfigured (v : View) : Bool := decide (v.depth ≠ 0#32) && decide (v.base ≠ 0#64)

/-- An `UPDATE_VIEW` of the ring is in progress (R312). -/
def viewBusy (st : State) (d : DevId) (s : SubId) (r : RingId) : Bool := st.updating.contains (d, s, r)

/-- The view a `RING_CFG` creates (R154). -/
def freshView (base : DWord) (depth : Word) (wpd : BitVec 16) (lock : Bool) : View :=
  { View.zero with base := base, depth := depth, wpd := wpd, lockRequired := lock }

/-- `RING_CFG d, s, r, base, depth, wpd, lock` (R154), refused while an `UPDATE_VIEW` of a ring of the device is in
progress (R312). The tests stand in the order of R154's pseudocode: a device that is not ready answers ST_OK before the
view and the depth are looked at (R46), where R262's summary has a bad operand first (DEDUCED, log entry 8). -/
def execRingCfg (d : DevId) (s : SubId) (r : RingId) (base : DWord) (depth : Word) (wpd : BitVec 16) (lock : Bool)
    (st : State) : Result :=
  if ringIdsOk st.cfg d s r = false then st.fail rInvalid
  else if st.readyAt d = false then .next (st.respond rOk)
  else if deviceUpdating st d then .refused (.ringBusy d)
  else if viewConfigured (st.viewAt d s r) then st.fail rInvalid
  else if 2 ^ st.cfg.ptrIdxW ≤ depth.toNat then st.fail rInvalid
  else .next ((st.setView d s r (freshView base depth wpd lock)).respond rOk)

/-- The result of `USED` on a view (R157). -/
def viewUsed (v : View) : Word := if viewConfigured v then usedWord v.head v.tail v.depth.toNat else 0#32

/-- `USED d, s, r` (R157). -/
def execUsed (d : DevId) (s : SubId) (r : RingId) (st : State) : Result :=
  if ringIdsOk st.cfg d s r = false then st.fail rInvalid
  else .next (st.respond ⟨.ok, [viewUsed (st.viewAt d s r)]⟩)

/-- The thirteen words of `RING_DUMP` (R98, R161). -/
def viewDump (c : Cfg) (r : RingId) (v : View) : List Word :=
  [ encPtr c v.head, encPtr c v.tail, v.depth, v.wpd.setWidth 32, boolWord v.lockRequired, lowWord v.lastPtr,
    highWord v.lastPtr, lowWord v.base, highWord v.base, v.occupancy, r.setWidth 32, lowWord v.descCount,
    highWord v.descCount ]

/-- `RING_DUMP d, s, r` (R161). -/
def execRingDump (d : DevId) (s : SubId) (r : RingId) (st : State) : Result :=
  if ringIdsOk st.cfg d s r = false then st.fail rInvalid
  else .next (st.respond ⟨.ok, viewDump st.cfg r (st.viewAt d s r)⟩)

/-- Line 0 of `UPDATE_VIEW` (R158), with the refusal of R312. -/
def viewGate (st : State) (d : DevId) (s : SubId) (r : RingId) : Gate Unit :=
  if ringIdsOk st.cfg d s r = false then .answer rInvalid
  else if st.readyAt d = false then .answer rOk
  else if viewConfigured (st.viewAt d s r) = false then .answer rOk
  else if viewBusy st d s r then .refuse (.ringBusy d)
  else .pass ()

/-- Line 1 of `UPDATE_VIEW`: the head pointer register is read; from here the update is in progress. -/
def viewReadHead (st : State) (d : DevId) (s : SubId) (r : RingId) : State :=
  { regRead st d s (.headPtr r.toNat) with updating := (d, s, r) :: st.updating }

/-- Line 2 of `UPDATE_VIEW`: the tail pointer register is read. -/
def viewReadTail (st : State) (d : DevId) (s : SubId) (r : RingId) : State := regRead st d s (.tailPtr r.toNat)

/-- The view after an update that read the pointer words `h` and `t`, line 3 of `UPDATE_VIEW` (R158). -/
def updatedView (c : Cfg) (v : View) (h t : Word) : View :=
  let nh := decPtr c h
  let nt := decPtr c t
  let delta := headDelta nh v.head v.depth.toNat
  { v with
    descCount := v.descCount + BitVec.ofNat 64 delta
    byteCount := v.byteCount + BitVec.ofNat 64 (delta * v.wpd.toNat * c.descWordBytes)
    head := nh
    tail := nt
    occupancy := usedWord nh nt v.depth.toNat }

/-- Line 3 of `UPDATE_VIEW`: the view takes the new snapshot and the command returns. -/
def viewCommit (st : State) (d : DevId) (s : SubId) (r : RingId) (h t : Word) : State :=
  ({ st.setView d s r (updatedView st.cfg (st.viewAt d s r) h t) with
      updating := st.updating.erase (d, s, r) }).respond rOk

end Sys2Proof.Machine
end

