-- ==== Sys2Proof/Machine/Agents.lean ====
section
/-! DEFINITION. The other agents of R12 and what they do at a boundary between two micro-steps (R70): the sources
(`SRC_RAISE`, R131), the DMA engine (`DMA_ADV`, R163), and the other host threads, whose commands advance one
micro-step at a time (R79). -/

namespace Sys2Proof.Machine

/-! ## Sources and the DMA engine -/

/-- `SRC_RAISE(d, s, L, bits)` is a step: the leaf exists and `bits` is non-zero (R131). -/
def srcEnabled (st : State) (d : DevId) (s : SubId) (L : LeafId) (bits : Word) : Bool :=
  idsOk st.cfg d s && decide (L < st.cfg.leaves.length) && decide (bits ≠ 0#32)

/-- `SRC_RAISE(d, s, L, bits)`: `STATUS[d][s][L] <- STATUS[d][s][L] | bits` (R131). -/
def srcRaise (st : State) (d : DevId) (s : SubId) (L : LeafId) (bits : Word) : State :=
  if srcEnabled st d s L bits then st.setStatus d s L (st.statusAt d s L ||| bits) else st

/-- The decoded pointer registers of a ring. -/
def ringHead (st : State) (d : DevId) (s : SubId) (r : RingId) : Ptr := decPtr st.cfg (st.headPtrAt d s r.toNat)
def ringTail (st : State) (d : DevId) (s : SubId) (r : RingId) : Ptr := decPtr st.cfg (st.tailPtrAt d s r.toNat)

/-- The entries the DMA engine may take or fill: `used`, or `depth - used` (R163). -/
def dmaRoom (st : State) (d : DevId) (s : SubId) (r : RingId) : Int :=
  let depth := (st.viewAt d s r).depth.toNat
  let u := usedInt (ringHead st d s r) (ringTail st d s r) depth
  match ringDir st.cfg r with
  | .hostProduces => u
  | .hwProduces => depth - u

/-- `DMA_ADV(d, s, r, n)` is enabled: the ring is configured, `n >= 1`, the register pair is valid, there is room
(R163). -/
def dmaEnabled (st : State) (d : DevId) (s : SubId) (r : RingId) (n : Nat) : Bool :=
  ringIdsOk st.cfg d s r && viewConfigured (st.viewAt d s r) && decide (1 ≤ n) &&
  validPtrs (ringHead st d s r) (ringTail st d s r) (st.viewAt d s r).depth.toNat &&
  decide ((n : Int) ≤ dmaRoom st d s r)

/-- `DMA_ADV(d, s, r, n)`: the hardware's pointer advances by `n`; where it is not enabled the engine has no step
(R163). -/
def dmaAdv (st : State) (d : DevId) (s : SubId) (r : RingId) (n : Nat) : State :=
  let depth := (st.viewAt d s r).depth.toNat
  if dmaEnabled st d s r n then
    match ringDir st.cfg r with
    | .hostProduces => st.setHeadPtr d s r.toNat (encPtr st.cfg (adv (ringHead st d s r) n depth))
    | .hwProduces => st.setTailPtr d s r.toNat (encPtr st.cfg (adv (ringTail st d s r) n depth))
  else st

/-! ## Other host threads -/

/-- What a thread's micro-step leaves: the state, and what stands in the place of the frame it took. -/
abbrev FrameResult := Host.Outcome (State × List Frame) Fault Refusal

/-- A command of one micro-step is finished by it. -/
def finished (o : Result) : FrameResult := andThen o (fun st => .next (st, []))

/-- The first micro-step of a command. -/
def beginCommand (i : Instr) (st : State) : FrameResult :=
  match i with
  | .rd d s addr => finished (execRd d s addr st)
  | .wr d s addr value => finished (execWr d s addr value st)
  | .devInit d => finished (execDevInit d st)
  | .ringCfg d s r base depth wpd lock => finished (execRingCfg d s r base depth wpd lock st)
  | .updateView d s r =>
    match viewGate st d s r with
    | .answer resp => .next (st.respond resp, [])
    | .refuse why => .refused why
    | .pass _ => .next (viewReadHead st d s r, [.viewTail d s r (st.headPtrAt d s r.toNat)])
  | .used d s r => finished (execUsed d s r st)
  | .ringDump d s r => finished (execRingDump d s r st)
  | .poll force d s =>
    match pollGate st d s with
    | .answer resp => .next (st.respond resp, [])
    | .refuse why => .refused why
    | .pass _ => .next (pollOpen st d s force, [.poll d])
  | .cbReg d addr fn ud => finished (execCbReg d addr fn ud st)
  | .cntShow d addr => finished (execCntShow d addr st)
  | .injectAll d s addr => finished (execInjectAll d s addr st)
  | .enableAll on d s addr =>
    match leafGate st d s addr with
    | .answer resp => .next (st.respond resp, [])
    | .refuse why => .refused why
    | .pass L => .next (enableHi st on d s L, [.enableLo on d s L])
  | .logEvent d s r dir head tail data =>
    match logGate st d s r data with
    | .answer resp => .next (st.respond resp, [])
    | .refuse why => .refused why
    | .pass _ => .next (logClaim st, [.logStamp (logSlot st) (logPayload d s r dir head tail data)])
  | .logRead d s filter =>
    if idsOk st.cfg d s = false then .next (st.respond rInvalid, [])
    else if allocValue st = false then .next ((allocDrawn st).respond rNoResource, [])
    else .next (allocDrawn st, [.logScan d s filter 0 []])

/-- The first slot at or after `i` whose latched global bit is set (R185). -/
def nextSlot (q : Seq) : Option Nat := (List.range nSlot).find? (fun i => decide (q.i ≤ i) && q.g.getLsbD i)

/-- The next micro-step of a poll, where `SEQ[d]` says it stands (R45, R180). -/
def pollAdvance (st : State) (d : DevId) : State × List Frame :=
  let q := st.seqAt d
  match q.st with
  | .idle => (st.respond rOk, [])
  | .globalCheck =>
    let st₁ := pollGlobal st d
    if (st₁.seqAt d).st = .idle then (st₁.respond rOk, []) else (st₁, [.poll d])
  | .shadowWordScan =>
    match q.phase with
    | .mask =>
      match nextSlot q with
      | none => ((pollClose st d).respond rOk, [])
      | some i => (serviceMask st d i, [.poll d])
    | .read => (serviceLatch st d q.i, [.poll d])
  | .leafDispatch =>
    match q.todo with
    | [] => (serviceUnmask st d q.i, [.poll d])
    | L :: rest =>
      if leafGated st d L then (leafPop st d rest, [.poll d])
      else (leafRead (leafPop st d rest) d L, [.leafCallback d L (leafRaw st d L), .poll d])

/-- The next micro-step of a command that is in progress. -/
def frameStep (f : Frame) (st : State) : FrameResult :=
  match f with
  | .cmd i =>
    match handlerForbids st.polling i with
    | some d => .refused (.deviceBusy d)
    | none => beginCommand i st
  | .viewTail d s r h => .next (viewReadTail st d s r, [.viewCommit d s r h (st.tailPtrAt d s r.toNat)])
  | .viewCommit d s r h t => .next (viewCommit st d s r h t, [])
  | .enableLo on d s L => .next (enableLo st on d s L, [])
  | .logStamp slot p => .next (logStamp st slot, [.logFill slot p])
  | .logFill slot p => .next (logFill st slot p, [])
  | .logScan d s filter j out =>
    if j < logDepth then .next (st, [.logScan d s filter (j + 1) (out ++ logPick st d s filter j)])
    else .next (st.respond (logResponse out), [])
  | .poll d => .next (pollAdvance st d)
  | .leafCallback d L raw =>
    match leafMessage st d L raw with
    | none => .next (st, [])
    | some m => .next (st.emit (.dispatch m), (handlerCommands st.cfg m).map Frame.cmd)

/-- The polls a thread with these frames is inside of. -/
def pollsOf : List Frame → List DevId
  | [] => []
  | .poll d :: fs => d :: pollsOf fs
  | _ :: fs => pollsOf fs

/-- Host thread `t` performs the micro-step of its innermost frame; the running thread's own response and the polls it
is inside of are not touched. -/
def threadStep (t : Nat) (f : Frame) (fs : List Frame) (st : State) : Result :=
  andThen (frameStep f { st with resp := (st.threadAt t).resp, polling := pollsOf fs }) (fun out =>
    .next { out.1.setThread t ⟨out.2 ++ fs, out.1.resp⟩ with resp := st.resp, polling := st.polling })

/-! ## Boundaries -/

/-- One step of another agent; a step that is not enabled is none. A thread presents a command only after the response
of the one before (R90). -/
def agentStep (a : AgentStep) (st : State) : Result :=
  match a with
  | .srcRaise d s L bits => .next (srcRaise st d s L bits)
  | .dmaAdv d s r n => .next (dmaAdv st d s r n)
  | .present t i =>
    match (st.threadAt t).frames with
    | [] => threadStep t (.cmd i) [] st
    | _ :: _ => .next st
  | .resume t =>
    match (st.threadAt t).frames with
    | [] => .next st
    | f :: fs => threadStep t f fs st

/-- The steps of other agents, in order. -/
def agentSteps : List AgentStep → State → Result
  | [], st => .next st
  | a :: as, st => andThen (agentStep a st) (agentSteps as)

/-- The boundary between two micro-steps: "any other agent may take any number of steps" (R70), those the schedule
names. -/
def boundary (st : State) : Result :=
  match st.sched with
  | [] => .next st
  | now :: later => agentSteps now { st with sched := later }

end Sys2Proof.Machine
end

