-- ==== Sys2Proof/Machine/Enable.lean ====
section
/-! DEFINITION. `ENABLE_ALL`, whose two register writes other agents may step between (R224). -/

namespace Sys2Proof.Machine

/-- `ENABLE_ALL d, s, addr, on` (R224): the hi register is written before the lo register. It runs beside a poll of the
device, as R313 has it, though R302 tells the host not to let it overlap one (DESIGN CHOICE, log entry 25). -/
def execEnableAll (on : Bool) (d : DevId) (s : SubId) (addr : Addr) (st : State) : Result :=
  match leafGate st d s addr with
  | .answer resp => .next (st.respond resp)
  | .refuse why => .refused why
  | .pass L => andThen (boundary (enableHi st on d s L)) (fun st₁ => .next (enableLo st₁ on d s L))

end Sys2Proof.Machine
end

