-- ==== Sys2Proof/Machine/LogCommands.lean ====
section
/-! DEFINITION. `LOG_EVENT` (R240) and `LOG_READ` (R246), between whose micro-steps other agents may step (R244,
R247). -/

namespace Sys2Proof.Machine

/-- `LOG_EVENT d, s, r, dir, head, tail, [w0, ...]` (R240): claim a slot, stamp it, fill it. -/
def execLogEvent (d : DevId) (s : SubId) (r : RingId) (dir : LogDir) (head tail : Word) (data : List DWord)
    (st : State) : Result :=
  match logGate st d s r data with
  | .answer resp => .next (st.respond resp)
  | .refuse why => .refused why
  | .pass _ =>
    andThen (boundary (logClaim st)) (fun st₁ =>
    andThen (boundary (logStamp st₁ (logSlot st))) (fun st₂ =>
    .next (logFill st₂ (logSlot st) (logPayload d s r dir head tail data))))

/-- The scan of `LOG_READ` over the slots listed, one micro-step each (R246). -/
def logScan (d : DevId) (s : SubId) (filter : DWord) : List Nat → List (List Word) → State → Result
  | [], out, st => .next (st.respond (logResponse out))
  | j :: js, out, st =>
    andThen (boundary st) (fun st₁ => logScan d s filter js (out ++ logPick st₁ d s filter j) st₁)

/-- `LOG_READ d, s, filter` (R246): the allocation draw, then every slot in ascending order. -/
def execLogRead (d : DevId) (s : SubId) (filter : DWord) (st : State) : Result :=
  if idsOk st.cfg d s = false then st.fail rInvalid
  else if allocValue st = false then (allocDrawn st).fail rNoResource
  else logScan d s filter (List.range logDepth) [] (allocDrawn st)

end Sys2Proof.Machine
end

