-- ==== Sys2Proof/Machine/RingUpdate.lean ====
section
/-! DEFINITION. `UPDATE_VIEW`, whose two register reads other agents may step between (R158, R159). -/

namespace Sys2Proof.Machine

/-- `UPDATE_VIEW d, s, r` (R158): read the head, then the tail, then take the snapshot. -/
def execUpdateView (d : DevId) (s : SubId) (r : RingId) (st : State) : Result :=
  match viewGate st d s r with
  | .answer resp => .next (st.respond resp)
  | .refuse why => .refused why
  | .pass _ =>
    andThen (boundary (viewReadHead st d s r)) (fun st₁ =>
    andThen (boundary (viewReadTail st₁ d s r)) (fun st₂ =>
    .next (viewCommit st₂ d s r (st.headPtrAt d s r.toNat) (st₁.tailPtrAt d s r.toNat))))

end Sys2Proof.Machine
end

