-- ==== Sys2Proof/Machine/Poll.lean ====
section
/-! DEFINITION. `POLL`: one poll cycle from `IDLE` back to `IDLE` (R180 to R197), its handlers' commands included
(R194). -/

namespace Sys2Proof.Machine

/-- How the polling thread runs a command of a handler. -/
abbrev Runner := Instr → State → Result

/-- A handler's commands, one after the other on the polling thread; a forbidden one is refused (R194). -/
def runHandler (run : Runner) : List Instr → State → Result
  | [], st => .next st
  | i :: is, st =>
    match handlerForbids st.polling i with
    | some d => .refused (.deviceBusy d)
    | none => andThen (run i st) (fun st₁ => andThen (boundary st₁) (runHandler run is))

/-- The second part of `service_leaf`: invoke the registered callback, if any, and wait for it to return; its status is
discarded (R192). -/
def leafCallback (run : Runner) (d : DevId) (L : LeafId) (raw : Word) (st : State) : Result :=
  match leafMessage st d L raw with
  | none => .next st
  | some m =>
    andThen (boundary (st.emit (.dispatch m))) (runHandler run (handlerCommands st.cfg m))

/-- P5: service the leaves listed, in order (R190 to R192). -/
def serviceLeaves (run : Runner) (d : DevId) : List LeafId → State → Result
  | [], st => .next st
  | L :: rest, st =>
    if leafGated st d L then serviceLeaves run d rest (leafPop st d rest)
    else
      andThen (boundary (leafRead (leafPop st d rest) d L)) (fun st₁ =>
      andThen (leafCallback run d L (leafRaw st d L) st₁) (serviceLeaves run d rest))

/-- The service of slot `i`: P3, P4, P5, P6 in this order (R186, R192, R320). -/
def serviceSlot (run : Runner) (d : DevId) (i : Nat) (st : State) : Result :=
  andThen (boundary (serviceMask st d i)) (fun st₁ =>
  let st₂ := serviceLatch st₁ d i
  andThen (boundary st₂) (fun st₃ =>
  andThen (serviceLeaves run d (st₂.seqAt d).todo st₃) (fun st₄ =>
  boundary (serviceUnmask st₄ d i))))

/-- P2: the slots listed, those whose latched bit is set being serviced (R185). -/
def scanSlots (run : Runner) (d : DevId) : List Nat → State → Result
  | [], st => .next (pollClose st d)
  | i :: is, st =>
    if (st.seqAt d).g.getLsbD i then andThen (serviceSlot run d i st) (scanSlots run d is)
    else scanSlots run d is (pollSkip st d i)

/-- P1 to the return: what follows P0 (R180). -/
def pollCycle (run : Runner) (d : DevId) (st : State) : Result :=
  let st₁ := pollGlobal st d
  if (st₁.seqAt d).st = .idle then .next st₁
  else andThen (boundary st₁) (scanSlots run d (List.range nSlot))

/-- `POLL` with a given way to run a handler's commands (R180, R182). -/
def pollWith (run : Runner) (force : Bool) (d : DevId) (s : SubId) (st : State) : Result :=
  match pollGate st d s with
  | .answer resp => .next (st.respond resp)
  | .refuse why => .refused why
  | .pass _ =>
    andThen (boundary ((pollOpen st d s force).setPolling (d :: st.polling))) (fun st₁ =>
    andThen (pollCycle run d st₁) (fun st₂ =>
    .next ((st₂.setPolling st.polling).respond rOk)))

/-- A command on the polling thread: each by its own rule, `POLL` by `poll` (R194). -/
def runWith (poll : Bool → DevId → SubId → State → Result) : Runner
  | .rd d s addr, st => execRd d s addr st
  | .wr d s addr value, st => execWr d s addr value st
  | .devInit d, st => execDevInit d st
  | .ringCfg d s r base depth wpd lock, st => execRingCfg d s r base depth wpd lock st
  | .updateView d s r, st => execUpdateView d s r st
  | .used d s r, st => execUsed d s r st
  | .ringDump d s r, st => execRingDump d s r st
  | .poll force d s, st => poll force d s st
  | .cbReg d addr fn ud, st => execCbReg d addr fn ud st
  | .cntShow d addr, st => execCntShow d addr st
  | .injectAll d s addr, st => execInjectAll d s addr st
  | .enableAll on d s addr, st => execEnableAll on d s addr st
  | .logEvent d s r dir head tail data, st => execLogEvent d s r dir head tail data st
  | .logRead d s filter, st => execLogRead d s filter st

/-- `POLL` where a handler may poll other devices to depth `n` (log entry 7). A poll on a device that is being polled is
refused by P0, and there are at most 16 devices, so depth 16 is never used up. -/
def pollNested : Nat → Bool → DevId → SubId → State → Result
  | 0, force, d, s, st => pollWith (fun _ _ => .refused (.deviceBusy d)) force d s st
  | n + 1, force, d, s, st => pollWith (runWith (pollNested n)) force d s st

/-- `POLL d, s` and `POLL.F d, s` (R180). -/
def execPoll (force : Bool) (d : DevId) (s : SubId) (st : State) : Result := pollNested 16 force d s st

end Sys2Proof.Machine
end

