-- ==== Sys2Proof/Machine/Dispatch.lean ====
section
/-! DEFINITION. The meaning of every command: one arm per constructor, one direct call each. -/

namespace Sys2Proof.Machine

def exec (i : Instr) (s : State) : Host.Outcome State Fault Refusal :=
  match i with
  | .rd d sub addr => Sys2Proof.Machine.execRd d sub addr s
  | .wr d sub addr value => Sys2Proof.Machine.execWr d sub addr value s
  | .devInit d => Sys2Proof.Machine.execDevInit d s
  | .ringCfg d sub r base depth wpd lock => Sys2Proof.Machine.execRingCfg d sub r base depth wpd lock s
  | .updateView d sub r => Sys2Proof.Machine.execUpdateView d sub r s
  | .used d sub r => Sys2Proof.Machine.execUsed d sub r s
  | .ringDump d sub r => Sys2Proof.Machine.execRingDump d sub r s
  | .poll force d sub => Sys2Proof.Machine.execPoll force d sub s
  | .cbReg d addr fn ud => Sys2Proof.Machine.execCbReg d addr fn ud s
  | .cntShow d addr => Sys2Proof.Machine.execCntShow d addr s
  | .injectAll d sub addr => Sys2Proof.Machine.execInjectAll d sub addr s
  | .enableAll on d sub addr => Sys2Proof.Machine.execEnableAll on d sub addr s
  | .logEvent d sub r dir head tail data => Sys2Proof.Machine.execLogEvent d sub r dir head tail data s
  | .logRead d sub filter => Sys2Proof.Machine.execLogRead d sub filter s

end Sys2Proof.Machine
end

