-- ==== Sys2Proof/Machine/Port.lean ====
section
/-! DEFINITION. The command port: how a waiting command is taken (R90, R93, R96, R266). -/

namespace Sys2Proof.Machine

/-- What the decoder finds at the port of the running thread. -/
def State.fetch (st : State) : Decoded := decode st.port

/-- The stream after a command was taken. -/
def State.setPort (st : State) (ws : List Word) : State := { st with port := ws }

/-- An illegal command word: it alone is consumed, nothing else changes, `ST_ILLEGAL_CMD` is returned (R96, R266). -/
def illegalWord (st : State) (rest : List Word) : State := { st with port := rest, resp := rIllegal }

/-- The words of an instruction given by its bits, as many as the longest command has. -/
def tableWords (nbits w : Nat) : List Word := wordsOf longestCommand (w % 2 ^ nbits)

end Sys2Proof.Machine
end

