-- ==== Sys2Proof/Machine/Step.lean ====
section
/-! DEFINITION. One step: the other agents' steps between two commands, then the next command of the port to its
response. -/

namespace Sys2Proof.Machine

/-- What stands at the port is executed (R90). With no word waiting nothing happens (log entry 10). -/
def stepPort (s : State) : Host.Outcome State Fault Refusal :=
  match s.fetch with
  | .empty => .next s
  | .illegal rest => .next (illegalWord s rest)
  | .truncated => .refused .truncatedStream
  | .command i rest => exec i (s.setPort rest)

/-- One step of the machine; an ill-formed configuration is refused (R7). -/
def step (s : State) : Host.Outcome State Fault Refusal :=
  if cfgWf s.cfg then andThen (boundary s) stepPort else .refused .illFormedConfig

/-- `s` with the instruction whose table bits are `w` presented at the port, in the place of the words that were there. -/
def State.withFetchWord (s : State) (nbits w : Nat) : State :=
  s.setPort (tableWords nbits w ++ s.port.drop longestCommand)

end Sys2Proof.Machine
end

