-- ==== Sys2Proof/Safety.lean ====
section
/-! DEFINITION. The terms claims are stated in: quiet and settled states, the invariants of a run, what a legal command
word is, what a handler may issue, a run of log calls. -/

namespace Sys2Proof.Machine

/-! ## Other agents -/

/-- No other agent steps: the premise "with no new hardware interrupts" (R131) for every agent of R12. -/
abbrev Quiet (st : State) : Prop := st.sched = []

/-- No command of another thread is in progress where R311 and R312 would forbid the overlap, and the running thread is
between two commands. -/
abbrev Settled (st : State) : Prop :=
  st.sched = [] ∧ st.updating = [] ∧ st.polling = [] ∧ ∀ d : DevId, (st.seqAt d).st = .idle

/-- The step of a source or of the DMA engine, not of a host thread (R12). -/
def hardwareStep : AgentStep → Bool
  | .srcRaise _ _ _ _ => true
  | .dmaAdv _ _ _ _ => true
  | .present _ _ => false
  | .resume _ => false

/-- Only the hardware agents step, at any boundary and in any way. -/
abbrev HardwareOnly (st : State) : Prop := ∀ now ∈ st.sched, ∀ a ∈ now, hardwareStep a = true

/-! ## Handlers -/

/-- The commands R194 lists as allowed in a handler's sequence. -/
def allowedInHandler : Instr → Bool
  | .rd _ _ _ => true
  | .wr _ _ _ _ => true
  | .updateView _ _ _ => true
  | .used _ _ _ => true
  | .ringDump _ _ _ => true
  | .logEvent _ _ _ _ _ _ _ => true
  | .logRead _ _ _ => true
  | .cntShow _ _ => true
  | .injectAll _ _ _ => true
  | .enableAll _ _ _ _ => true
  | .devInit _ => false
  | .ringCfg _ _ _ _ _ _ _ => false
  | .poll _ _ _ => false
  | .cbReg _ _ _ _ => false

/-- Every callback registered on device `d` has a handler "of the allowed shape" (R194). -/
abbrev HandlersAllowed (st : State) (d : DevId) : Prop :=
  ∀ L cb, st.cbAt d L = some cb → ∀ m : DispatchMsg, m.fn = cb.fn →
    ∀ i ∈ handlerCommands st.cfg m, allowedInHandler i = true

/-- No leaf of device `d` has a callback. -/
abbrev NoCallbacks (st : State) (d : DevId) : Prop := ∀ L, st.cbAt d L = none

/-! ## Legal command words -/

/-- A legal command word, field by field: bit 24 zero, an assigned opcode, every field the command does not use zero, and
the value constraints of `LOG_EVENT` (R91, R94, R96). -/
def legalWord (cw : Word) : Prop :=
  cw.getLsbD 24 = false ∧
  (((cw.extractLsb' 26 6 = 0x01#6 ∨ cw.extractLsb' 26 6 = 0x02#6 ∨ cw.extractLsb' 26 6 = 0x13#6 ∨
      cw.extractLsb' 26 6 = 0x19#6) ∧
      cw.getLsbD 25 = false ∧ cw.extractLsb' 12 6 = 0#6 ∧ cw.extractLsb' 0 12 = 0#12) ∨
   ((cw.extractLsb' 26 6 = 0x03#6 ∨ cw.extractLsb' 26 6 = 0x11#6 ∨ cw.extractLsb' 26 6 = 0x12#6) ∧
      cw.getLsbD 25 = false ∧ cw.extractLsb' 18 2 = 0#2 ∧ cw.extractLsb' 12 6 = 0#6 ∧ cw.extractLsb' 0 12 = 0#12) ∨
   ((cw.extractLsb' 26 6 = 0x08#6 ∨ cw.extractLsb' 26 6 = 0x09#6 ∨ cw.extractLsb' 26 6 = 0x0A#6 ∨
      cw.extractLsb' 26 6 = 0x0B#6) ∧
      cw.getLsbD 25 = false ∧ cw.extractLsb' 0 12 = 0#12) ∨
   ((cw.extractLsb' 26 6 = 0x10#6 ∨ cw.extractLsb' 26 6 = 0x14#6) ∧
      cw.extractLsb' 12 6 = 0#6 ∧ cw.extractLsb' 0 12 = 0#12) ∨
   (cw.extractLsb' 26 6 = 0x18#6 ∧ cw.getLsbD 25 = false ∧ cw.getLsbD 3 = false ∧ cw.extractLsb' 7 5 = 0#5 ∧
      (cw.extractLsb' 0 3).toNat ≤ 4 ∧ (cw.extractLsb' 4 3).toNat ≤ 5))

/-! ## Tables -/

mutual
/-- Bit `b` is in the mask of every leaf under a body and of every enclosing group (R188). -/
def bodyComplete (c : Cfg) (b : Nat) : Body → Bool
  | .flat ls => ls.all (fun L => (leafDesc c L).shadowMask.getLsbD b)
  | .nested g => groupsComplete c b g

/-- The same for a list of groups. -/
def groupsComplete (c : Cfg) (b : Nat) : Groups → Bool
  | .nil => true
  | .cons submask body rest => submask.getLsbD b && bodyComplete c b body && groupsComplete c b rest
end

/-- A table is complete when every leaf under `entry(b)` has bit `b` in its `shadow_mask` and in every enclosing
`submask` (R188). -/
def tableComplete (c : Cfg) (t : BusTable) : Bool := t.entries.all (fun e => bodyComplete c e.1 e.2)

mutual
/-- Every leaf under a body, in table order, with the sub-masks of the groups around it, outermost first (R32). -/
def bodyPaths : Body → List (List Word × LeafId)
  | .flat ls => ls.map (fun L => ([], L))
  | .nested g => groupPaths g

/-- The same for a list of groups. -/
def groupPaths : Groups → List (List Word × LeafId)
  | .nil => []
  | .cons submask body rest => (bodyPaths body).map (fun p => (submask :: p.1, p.2)) ++ groupPaths rest
end

/-- Every mask on the way to the leaf, its own last, meets the word (R187, R188). -/
def pathMeets (c : Cfg) (w : Word) (p : List Word × LeafId) : Bool :=
  p.1.all (fun m => decide (w &&& m ≠ 0#32)) && decide (w &&& (leafDesc c p.2).shadowMask ≠ 0#32)

/-! ## Invariants -/

/-- Every sparse array is in canonical form, so that equal contents are equal data. -/
def StoresCanonical (st : State) : Prop :=
  st.status.wf ∧ st.enHi.wf ∧ st.enLo.wf ∧ st.shadowMsk.wf ∧ st.headPtr.wf ∧ st.tailPtr.wf ∧
  st.count.wf ∧ st.countShown.wf ∧ Store.Canonical none st.cb ∧ Store.Canonical View.zero st.view ∧
  Store.Canonical LogEntry.empty st.logEntries ∧ Store.Canonical Seq.reset st.seq ∧
  Store.Canonical false st.devReady ∧ Store.Canonical Thread.fresh st.threads

/-- The registers stay in the ranges the spec gives them: pointer registers read zero above the wrap bit (R26), views
have `depth < 2^PTR_IDX_W`, indices of `PTR_IDX_W` bits and a zero `last_ptr` (R43, R162), a filled callback slot has
`fn != 0` (R41), the log has 1024 slots and its lock is free between two micro-steps (R44, R243). -/
def RegistersInRange (st : State) : Prop :=
  (∀ k, st.headPtr.read k &&& ptrMask st.cfg = st.headPtr.read k) ∧
  (∀ k, st.tailPtr.read k &&& ptrMask st.cfg = st.tailPtr.read k) ∧
  (∀ d s r, (st.viewAt d s r).depth.toNat < 2 ^ st.cfg.ptrIdxW ∧ (st.viewAt d s r).head.idx < 2 ^ st.cfg.ptrIdxW ∧
    (st.viewAt d s r).tail.idx < 2 ^ st.cfg.ptrIdxW ∧ (st.viewAt d s r).lastPtr = 0#64) ∧
  (∀ d L cb, st.cbAt d L = some cb → cb.fn ≠ 0#32) ∧
  (∀ e ∈ st.logEntries, e.1 < logDepth) ∧
  st.logLock = none

/-! ## Runs -/

/-- The arguments of a `LOG_EVENT` besides the device and subdevice. -/
structure LogCall where
  ring : RingId
  dir : LogDir
  head : Word
  tail : Word
  data : List DWord
deriving DecidableEq, Repr

/-- A legal call: at most four data words, a ring id in range (R95, R97). -/
def LogCall.legal (c : Cfg) (e : LogCall) : Bool := dataFits e.data && ringOk c e.ring

/-- `LOG_EVENT` commands naming the same device and subdevice, each running to completion before the next starts
(R249). -/
def runLog (d : DevId) (s : SubId) : List LogCall → State → Result
  | [], st => .next st
  | e :: es, st => andThen (exec (.logEvent d s e.ring e.dir e.head e.tail e.data) st) (runLog d s es)

/-- The entry a call leaves in its slot when the clock draws `ts` (R240). -/
def LogCall.entry (d : DevId) (s : SubId) (e : LogCall) (ts : DWord) : LogEntry :=
  ⟨ts, logPayload d s e.ring e.dir e.head e.tail e.data⟩

/-- The slots a poll services: those whose latched global bit is set, in numeric order (R185, R189). -/
def setSlots (g : BitVec 16) : List Nat := (List.range nSlot).filter (fun i => g.getLsbD i)

/-- The accesses of one slot's service when no handler runs: mask write of all-ones, shadow read, leaf reads, mask write
of zero (R72, R196 (a)); `w` is the shadow word read. -/
def slotTrace (st : State) (d : DevId) (s : SubId) (i : Nat) (w : Word) (leaves : List LeafId) : List Event :=
  [.write d s (addrOf st.cfg (.shadowMsk i)) ones, .read d s (addrOf st.cfg (.shadowInt i)) w] ++
  leaves.map (fun L => .read d s (addrOf st.cfg (.status L)) (st.statusAt d s L)) ++
  [.write d s (addrOf st.cfg (.shadowMsk i)) 0#32]

/-- The word of slot `i` a poll latches (R184, R186). -/
def latchedWord (st : State) (force : Bool) (d : DevId) (s : SubId) (i : Nat) : Word :=
  if force && st.cfg.forceAllDeep then ones else shadowIntAt st d s i

/-- The leaves of slot `i` whose status a poll reads (R188, R190). -/
def visitedLeaves (st : State) (force : Bool) (d : DevId) (s : SubId) (i : Nat) : List LeafId :=
  (leavesToService st.cfg i (latchedWord st force d s i)).filter
    (fun L => !(st.cfg.secGatesDispatch && !(leafOk st.cfg d s L)))

/-- The global word a poll works with (R183, R184). -/
def latchedGlobal (st : State) (force : Bool) (d : DevId) (s : SubId) : BitVec 16 :=
  if force then 0xFFFF#16 else (glbShadowAt st d s).setWidth 16

end Sys2Proof.Machine
end

