-- ==== Sys2Proof/Certificates/Slice0/Obligations.lean ====
section
/-! DEFINITION. The statements for the provers. Each docstring names the rule of spec/ it formalises. Nothing here rests
on a value the model chose for reset or on a free value. -/

open Sys2Proof Sys2Proof.Machine

/-! ## Encoding and the command port -/

/-- R91 to R94, R97: decoding the words of a well-formed command, whatever follows them, gives the command back and
leaves what follows. -/
def Obligations.DecodeEncodeRoundTrip : Prop :=
  ∀ (i : Instr) (rest : List Word), i.wellFormed = true → decode (encode i ++ rest) = .command i rest

/-- R96, R94: the command words that select no command are exactly those that are not legal field by field. -/
def Obligations.IllegalWordsExactly : Prop := ∀ cw : Word, selectOp cw = none ↔ ¬ legalWord cw

/-- R94, V60 and the examples of the command tables: words written out from the spec decode to the commands they stand
for. -/
def Obligations.SpecWordsDecode : Prop :=
  decode [0x04F00000#32, 0x1000#32] = .command (.rd 15#4 0#2 0x1000#32) [] ∧
  decode [0x42040000#32] = .command (.poll true 0#4 1#2) [] ∧
  decode [0x52040000#32, 0x1020#32] = .command (.enableAll true 0#4 1#2 0x1020#32) [] ∧
  decode [0x20003000#32, 0x80000000#32, 0#32, 16#32, 4#32] =
    .command (.ringCfg 0#4 0#2 3#6 0x80000000#64 16#32 4#16 false) [] ∧
  decode [0x60003001#32, 4#32, 10#32, 0x55667788#32, 0x11223344#32] =
    .command (.logEvent 0#4 0#2 3#6 .push 4#32 10#32 [0x1122334455667788#64]) [] ∧
  decode [0x00000000#32, 0x41000000#32] = .illegal [0x41000000#32]

/-- R266: "An illegal command word consumes one word and returns `ST_ILLEGAL_CMD`; the next word of the stream is taken as
a new command word"; nothing else changes (R96). -/
def Obligations.IllegalWordConsumesOneWord : Prop :=
  ∀ (s : State) (cw : Word) (rest : List Word), cfgWf s.cfg = true → Quiet s → s.port = cw :: rest → selectOp cw = none →
    step s = .next { s with port := rest, resp := ⟨.illegalCmd, []⟩ } ∧
    State.fetch { s with port := rest, resp := ⟨.illegalCmd, []⟩ } = decode rest

/-- R93: "If the stream ends before `len - 1` extension words are available the command is not executed and a model
refuses the stream." -/
def Obligations.TruncatedStreamRefused : Prop :=
  ∀ (s : State) (cw : Word) (rest : List Word) (op : Op), cfgWf s.cfg = true → Quiet s → s.port = cw :: rest →
    selectOp cw = some op → rest.length < extCount op cw → step s = .refused .truncatedStream

/-- R90, R93: when the words at the port decode to a command, a step lets the other agents take the steps of the boundary
before it, takes the command's words off the port and executes the command; with no other agent it does only the
latter. That the steps of the other agents stand in a field of the state is the model's choice, log entry 3. -/
def Obligations.StepRunsDecodedCommand : Prop :=
  (∀ (s s₁ : State) (i : Instr) (rest : List Word), cfgWf s.cfg = true → boundary s = .next s₁ →
    decode s₁.port = .command i rest → step s = exec i { s₁ with port := rest }) ∧
  (∀ (s : State) (i : Instr) (rest : List Word), cfgWf s.cfg = true → Quiet s →
    decode s.port = .command i rest → step s = exec i { s with port := rest })

/-- R7: "A `CFG` that fails any of these is refused by the model": the refusal, and (a) to (e), each of which a
configuration that breaks it fails `cfgWf` by. What `cfgWf` tests beyond them is the model's choice, log entries 9
and 18. -/
def Obligations.IllFormedConfigRefused : Prop :=
  (∀ s : State, cfgWf s.cfg = false → step s = .refused .illFormedConfig) ∧
  ∀ c : Cfg,
    (∀ p q : Reg, regExists c p = true → regExists c q = true → p ≠ q → addrOf c p = addrOf c q → cfgWf c = false) ∧
    (∀ p : Reg, regExists c p = true → 2 ^ c.aw ≤ (addrOf c p).toNat → cfgWf c = false) ∧
    (∀ L M : LeafId, L < c.leaves.length → M < c.leaves.length → L ≠ M →
      (leafDesc c L).statusAddr = (leafDesc c M).statusAddr → cfgWf c = false) ∧
    (∀ L : LeafId, L < c.leaves.length → ((List.range 16).flatMap (slotLeaves c)).count L ≠ 1 → cfgWf c = false) ∧
    (∀ (i : Nat) (t : BusTable), slotTable c i = some t →
      (¬ (t.entries.map Prod.fst).Nodup ∨ (∃ e ∈ t.entries, 32 ≤ e.1) ∨ (∃ e ∈ t.entries, 2 < bodyDepth e.2)) →
      cfgWf c = false)

/-! ## Addresses and the register space -/

/-- R36: `KIND` is the inverse of `ADDR`, on a well-formed configuration. -/
def Obligations.KindInvertsAddr : Prop :=
  ∀ (c : Cfg), cfgWf c = true →
    (∀ reg : Reg, regExists c reg = true → kind c (addrOf c reg) = some reg) ∧
    (∀ (a : Addr) (reg : Reg), kind c a = some reg → addrOf c reg = a ∧ regExists c reg = true)

/-- R120: the three outcomes of `RD`, with the whole next state of each; every stored register reads as it is stored, an
inject register reads zero, `SHADOW_INT` and `GLB_SHADOW` read the live derived words (R62). -/
def Obligations.RdReturnsRegister : Prop :=
  ∀ (d : DevId) (s : SubId) (a : Addr) (st : State),
    (idsOk st.cfg d s = false → exec (.rd d s a) st = .next { st with resp := ⟨.invalidArg, []⟩ }) ∧
    (idsOk st.cfg d s = true → kind st.cfg a = none →
      exec (.rd d s a) st = .next { st with resp := ⟨.invalidArg, []⟩ }) ∧
    (∀ reg, idsOk st.cfg d s = true → kind st.cfg a = some reg →
      exec (.rd d s a) st = .next { st with resp := ⟨.ok, [regValue st d s reg]⟩,
                                            trace := st.trace ++ [.read d s a (regValue st d s reg)] }) ∧
    (∀ L, regValue st d s (.status L) = st.statusAt d s L ∧ regValue st d s (.inject L) = 0#32 ∧
      regValue st d s (.enHi L) = st.enHiAt d s L ∧ regValue st d s (.enLo L) = st.enLoAt d s L) ∧
    (∀ i, regValue st d s (.shadowInt i) = shadowIntAt st d s i ∧ regValue st d s (.shadowMsk i) = st.shadowMskAt d s i) ∧
    (∀ x, regValue st d s (.headPtr x) = st.headPtrAt d s x ∧ regValue st d s (.tailPtr x) = st.tailPtrAt d s x) ∧
    regValue st d s .glbShadow = glbShadowAt st d s

/-- R121: a `WR` with an id out of range or an unmapped address answers `ST_INVALID_ARG` and changes nothing; one to a
read-only register is accepted and changes no register. -/
def Obligations.WrRejectsOrIgnores : Prop :=
  ∀ (d : DevId) (s : SubId) (a : Addr) (v : Word) (st : State),
    (idsOk st.cfg d s = false → exec (.wr d s a v) st = .next { st with resp := ⟨.invalidArg, []⟩ }) ∧
    (idsOk st.cfg d s = true → kind st.cfg a = none →
      exec (.wr d s a v) st = .next { st with resp := ⟨.invalidArg, []⟩ }) ∧
    (∀ reg, idsOk st.cfg d s = true → kind st.cfg a = some reg → (reg = .glbShadow ∨ ∃ i, reg = .shadowInt i) →
      exec (.wr d s a v) st = .next { st with resp := ⟨.ok, []⟩, trace := st.trace ++ [.write d s a v] })

/-- R125, R126: a `WR` to a leaf's status address clears the bits written as one, a `WR` to its inject address sets them;
no other register of any register space changes. -/
def Obligations.WrAcknowledgesOrInjects : Prop :=
  ∀ (d : DevId) (s : SubId) (a : Addr) (v : Word) (L : LeafId) (st : State), idsOk st.cfg d s = true →
    (kind st.cfg a = some (.status L) ∨ kind st.cfg a = some (.inject L)) →
    ∃ t, exec (.wr d s a v) st = .next t ∧
      t = { st with status := t.status, resp := ⟨.ok, []⟩, trace := st.trace ++ [.write d s a v] } ∧
      (kind st.cfg a = some (.status L) → t.statusAt d s L = st.statusAt d s L &&& ~~~ v) ∧
      (kind st.cfg a = some (.inject L) → t.statusAt d s L = st.statusAt d s L ||| v) ∧
      (∀ d' s' L', ¬ (d' = d ∧ s' = s ∧ L' = L) → t.statusAt d' s' L' = st.statusAt d' s' L')

/-- R23, R25, R63: a `WR` to an enable or mask register stores the value; no other register changes. -/
def Obligations.WrStoresEnablesAndMasks : Prop :=
  ∀ (d : DevId) (s : SubId) (a : Addr) (v : Word) (x : Nat) (st : State), idsOk st.cfg d s = true →
    (kind st.cfg a = some (.enHi x) → ∃ t, exec (.wr d s a v) st = .next t ∧
      t = { st with enHi := t.enHi, resp := ⟨.ok, []⟩, trace := st.trace ++ [.write d s a v] } ∧
      ∀ d' s' x', t.enHiAt d' s' x' = if d' = d ∧ s' = s ∧ x' = x then v else st.enHiAt d' s' x') ∧
    (kind st.cfg a = some (.enLo x) → ∃ t, exec (.wr d s a v) st = .next t ∧
      t = { st with enLo := t.enLo, resp := ⟨.ok, []⟩, trace := st.trace ++ [.write d s a v] } ∧
      ∀ d' s' x', t.enLoAt d' s' x' = if d' = d ∧ s' = s ∧ x' = x then v else st.enLoAt d' s' x') ∧
    (kind st.cfg a = some (.shadowMsk x) → ∃ t, exec (.wr d s a v) st = .next t ∧
      t = { st with shadowMsk := t.shadowMsk, resp := ⟨.ok, []⟩, trace := st.trace ++ [.write d s a v] } ∧
      ∀ d' s' x', t.shadowMskAt d' s' x' = if d' = d ∧ s' = s ∧ x' = x then v else st.shadowMskAt d' s' x')

/-- R127: "`WR` to a ring pointer address stores the value masked to the pointer word"; the view is not touched, nor is
any other register. -/
def Obligations.WrStoresMaskedPointer : Prop :=
  ∀ (d : DevId) (s : SubId) (a : Addr) (v : Word) (r : Nat) (st : State), idsOk st.cfg d s = true →
    (kind st.cfg a = some (.headPtr r) → ∃ t, exec (.wr d s a v) st = .next t ∧
      t = { st with headPtr := t.headPtr, resp := ⟨.ok, []⟩, trace := st.trace ++ [.write d s a v] } ∧
      ∀ d' s' r', t.headPtrAt d' s' r' =
        if d' = d ∧ s' = s ∧ r' = r then v &&& BitVec.ofNat 32 (2 ^ (st.cfg.ptrIdxW + 1) - 1)
        else st.headPtrAt d' s' r') ∧
    (kind st.cfg a = some (.tailPtr r) → ∃ t, exec (.wr d s a v) st = .next t ∧
      t = { st with tailPtr := t.tailPtr, resp := ⟨.ok, []⟩, trace := st.trace ++ [.write d s a v] } ∧
      ∀ d' s' r', t.tailPtrAt d' s' r' =
        if d' = d ∧ s' = s ∧ r' = r then v &&& BitVec.ofNat 32 (2 ^ (st.cfg.ptrIdxW + 1) - 1)
        else st.tailPtrAt d' s' r')

/-- R128: `DEV_INIT` empties the callbacks, counters, views and sequencer of its device and makes it ready; no other
device, no hardware register and no log entry changes. -/
def Obligations.DevInitRebuildsOneDevice : Prop :=
  ∀ (d : DevId) (st : State), devOk st.cfg d = true → (st.seqAt d).st = .idle → (∀ u ∈ st.updating, u.1 ≠ d) →
    ∃ t, exec (.devInit d) st = .next t ∧
      t = { st with cb := t.cb, count := t.count, countShown := t.countShown, view := t.view, seq := t.seq,
                    devReady := t.devReady, resp := ⟨.ok, []⟩ } ∧
      (∀ d' L, t.cbAt d' L = if d' = d then none else st.cbAt d' L) ∧
      (∀ d' L b, t.countAt d' L b = if d' = d then 0#32 else st.countAt d' L b) ∧
      (∀ d' L b, t.countShownAt d' L b = if d' = d then 0#32 else st.countShownAt d' L b) ∧
      (∀ d' s' r', t.viewAt d' s' r' = if d' = d then View.zero else st.viewAt d' s' r') ∧
      (∀ d', t.seqAt d' = if d' = d then Seq.reset else st.seqAt d') ∧
      (∀ d', t.readyAt d' = if d' = d then true else st.readyAt d')

/-- R95, R261: a command naming a device, a subdevice or a ring out of range answers `ST_INVALID_ARG` with no state
change, each command for the ids it has. -/
def Obligations.DeviceOutOfRangeIsInvalid : Prop :=
  ∀ (d : DevId) (s : SubId) (r : RingId) (a v : Word) (b : DWord) (w : BitVec 16) (f : Bool) (dir : LogDir)
    (data : List DWord) (st : State), data.length ≤ 4 →
    (st.cfg.nDev ≤ d.toNat →
      ∀ i ∈ [Instr.rd d s a, .wr d s a v, .devInit d, .ringCfg d s r b v w f, .updateView d s r, .used d s r,
             .ringDump d s r, .poll f d s, .cbReg d a v b, .cntShow d a, .injectAll d s a, .enableAll f d s a,
             .logEvent d s r dir a v data, .logRead d s b],
        exec i st = .next { st with resp := ⟨.invalidArg, []⟩ }) ∧
    (st.cfg.nSubdev ≤ s.toNat →
      ∀ i ∈ [Instr.rd d s a, .wr d s a v, .ringCfg d s r b v w f, .updateView d s r, .used d s r, .ringDump d s r,
             .poll f d s, .injectAll d s a, .enableAll f d s a, .logEvent d s r dir a v data, .logRead d s b],
        exec i st = .next { st with resp := ⟨.invalidArg, []⟩ }) ∧
    (st.cfg.nRing ≤ r.toNat →
      ∀ i ∈ [Instr.ringCfg d s r b v w f, .updateView d s r, .used d s r, .ringDump d s r,
             .logEvent d s r dir a v data],
        exec i st = .next { st with resp := ⟨.invalidArg, []⟩ })

/-! ## The masked status shadow tree -/

/-- R38: a leaf is pending iff an enabled status bit is set; bit `b` of `SHADOW_INT[i]` is 1 iff a pending leaf of slot
`i` carries it in its mask; a read returns the word and a write changes nothing; after reset the word reads zero. -/
def Obligations.ShadowBitIsPendingLeaf : Prop :=
  (∀ (st : State) (d : DevId) (s : SubId) (L : LeafId),
    leafPending st d s L = true ↔ st.statusAt d s L &&& (st.enHiAt d s L ||| st.enLoAt d s L) ≠ 0#32) ∧
  (∀ (st : State) (d : DevId) (s : SubId) (i b : Nat),
    (shadowIntAt st d s i).getLsbD b = true ↔
      ∃ L, L < st.cfg.leaves.length ∧ slotOf st.cfg L = some i ∧
        (leafDesc st.cfg L).shadowMask.getLsbD b = true ∧ leafPending st d s L = true) ∧
  (∀ (st : State) (d : DevId) (s : SubId) (i : Nat) (v : Word),
    regValue st d s (.shadowInt i) = shadowIntAt st d s i ∧ regStore st d s (.shadowInt i) v = st) ∧
  (∀ (c : Cfg) (d : DevId) (s : SubId) (i : Nat), shadowIntAt (State.resetWith c) d s i = 0#32)

/-- R39, R40: bit `i` of `GLB_SHADOW` is 1 iff slot `i` has a shadow bit that its mask does not mask; bits 31..16 are 0;
a read returns the word and a write changes nothing; the wire is high iff the word is not zero; after reset the word
reads zero. -/
def Obligations.GlobalBitIsUnmaskedSlot : Prop :=
  (∀ (st : State) (d : DevId) (s : SubId) (i : Nat),
    (glbShadowAt st d s).getLsbD i = true ↔
      i < 16 ∧ shadowIntAt st d s i &&& ~~~ st.shadowMskAt d s i ≠ 0#32) ∧
  (∀ (st : State) (d : DevId) (s : SubId) (v : Word),
    regValue st d s .glbShadow = glbShadowAt st d s ∧ regStore st d s .glbShadow v = st) ∧
  (∀ (st : State) (d : DevId) (s : SubId), intLine st d s = true ↔ glbShadowAt st d s ≠ 0#32) ∧
  (∀ (c : Cfg) (d : DevId) (s : SubId), glbShadowAt (State.resetWith c) d s = 0#32)

/-- R25: writing a slot's mask changes no shadow word and no other slot's bit of the global word; all-ones takes the
slot's bit off it, zero lets it follow the shadow word. -/
def Obligations.MaskGatesGlobalWordOnly : Prop :=
  ∀ (st : State) (d : DevId) (s : SubId) (i j : Nat) (v : Word), i < 16 →
    shadowIntAt (st.setShadowMsk d s i v) d s j = shadowIntAt st d s j ∧
    (j ≠ i → (glbShadowAt (st.setShadowMsk d s i v) d s).getLsbD j = (glbShadowAt st d s).getLsbD j) ∧
    (glbShadowAt (st.setShadowMsk d s i 0xFFFFFFFF#32) d s).getLsbD i = false ∧
    ((glbShadowAt (st.setShadowMsk d s i 0#32) d s).getLsbD i = true ↔ shadowIntAt st d s i ≠ 0#32)

/-- R131, R132: for an existing device, subdevice and leaf and non-zero bits, a source step ORs the bits into its leaf's
status and changes nothing else; if an enabled bit is then set, the leaf's shadow bits show at once, and the slot's bit of
the global word with them unless they are all masked. Anything else is no step and changes nothing. -/
def Obligations.SourceStepPropagatesAtOnce : Prop :=
  ∀ (st : State) (d : DevId) (s : SubId) (L : LeafId) (bits : Word),
    let isStep := d.toNat < st.cfg.nDev ∧ s.toNat < st.cfg.nSubdev ∧ L < st.cfg.leaves.length ∧ bits ≠ 0#32
    (isStep → ∃ t, agentStep (.srcRaise d s L bits) st = .next t ∧ t = { st with status := t.status } ∧
      (∀ d' s' L', t.statusAt d' s' L' =
        if d' = d ∧ s' = s ∧ L' = L then st.statusAt d s L ||| bits else st.statusAt d' s' L') ∧
      (∀ i, slotOf st.cfg L = some i → (st.statusAt d s L ||| bits) &&& (st.enHiAt d s L ||| st.enLoAt d s L) ≠ 0#32 →
        shadowIntAt t d s i &&& (leafDesc st.cfg L).shadowMask = (leafDesc st.cfg L).shadowMask ∧
        ((leafDesc st.cfg L).shadowMask &&& ~~~ st.shadowMskAt d s i ≠ 0#32 →
          (glbShadowAt t d s).getLsbD i = true))) ∧
    (¬ isStep → agentStep (.srcRaise d s L bits) st = .next st)

/-! ## Ring pointers -/

/-- R27: `dec` undoes `enc` for an index of `PTR_IDX_W` bits, and the two examples of the rule. -/
def Obligations.PointerWordRoundTrip : Prop :=
  (∀ (c : Cfg) (p : Ptr), c.ptrIdxW ≤ 31 → p.idx < 2 ^ c.ptrIdxW → decPtr c (encPtr c p) = p) ∧
  (∀ c : Cfg, c.ptrIdxW = 20 → encPtr c ⟨true, 2⟩ = 0x00100002#32 ∧ decPtr c 0x0000000E#32 = ⟨false, 14⟩)

/-- R152: `adv` moves `n` places on the circle of `2 * depth` positions; one place toggles the wrap bit exactly when the
index passes the end; `2 * depth` places lead back; the rule's three examples. -/
def Obligations.AdvanceTogglesWrap : Prop :=
  (∀ (p : Ptr) (n depth : Nat), 1 ≤ depth → p.idx < depth →
    pos (adv p n depth) depth = (pos p depth + n) % (2 * depth) ∧
    (adv p n depth).wrap.toNat = (pos p depth + n) % (2 * depth) / depth ∧
    (adv p n depth).idx = (pos p depth + n) % (2 * depth) % depth ∧
    adv p 1 depth = (if p.idx + 1 < depth then ⟨p.wrap, p.idx + 1⟩ else ⟨!p.wrap, 0⟩) ∧
    adv p (2 * depth) depth = p) ∧
  adv ⟨false, 14⟩ 4 16 = ⟨true, 2⟩ ∧ adv ⟨true, 15⟩ 1 16 = ⟨false, 0⟩ ∧ adv ⟨false, 0⟩ 16 16 = ⟨true, 0⟩

/-- R151: when a pointer pair is valid; on indices below `depth` that is the same as an advance from head to tail of at
most `depth` places on the circle. -/
def Obligations.ValidPairsAreWithinDepth : Prop :=
  ∀ (head tail : Ptr) (depth : Nat),
    (validPtrs head tail depth = true ↔
      1 ≤ depth ∧ head.idx < depth ∧ tail.idx < depth ∧
      ((tail.wrap = head.wrap ∧ head.idx ≤ tail.idx) ∨ (tail.wrap ≠ head.wrap ∧ tail.idx ≤ head.idx))) ∧
    (1 ≤ depth → head.idx < depth → tail.idx < depth →
      (validPtrs head tail depth = true ↔
        ((pos tail depth : Int) - pos head depth) % (2 * (depth : Int)) ≤ depth))

/-- R164 (a) to (e): the laws of `used` on a valid pair. -/
def Obligations.OccupancyLaws : Prop :=
  ∀ (head tail : Ptr) (depth : Nat), validPtrs head tail depth = true →
    (0 ≤ usedInt head tail depth ∧ usedInt head tail depth ≤ depth) ∧
    usedInt head tail depth = ((pos tail depth : Int) - pos head depth) % (2 * (depth : Int)) ∧
    (usedInt head tail depth = 0 ↔ head = tail) ∧
    (usedInt head tail depth = depth ↔ head.idx = tail.idx ∧ head.wrap ≠ tail.wrap) ∧
    (∀ n : Nat, (n : Int) ≤ depth - usedInt head tail depth →
      usedInt head (adv tail n depth) depth = usedInt head tail depth + n) ∧
    (∀ n : Nat, (n : Int) ≤ usedInt head tail depth →
      usedInt (adv head n depth) tail depth = usedInt head tail depth - n)

/-- R163: the DMA engine has a step on a ring that is configured, for `n >= 1`, from a valid register pair, with room in the
ring's direction. The step advances the hardware's pointer by `n`, leaves the pair valid, and changes nothing else; where
one of the four fails there is no step and nothing changes. -/
def Obligations.DmaStepKeepsRingValid : Prop :=
  ∀ (st : State) (d : DevId) (s : SubId) (r : RingId) (n : Nat), d.toNat < st.cfg.nDev → s.toNat < st.cfg.nSubdev →
    r.toNat < st.cfg.nRing →
    let view := st.viewAt d s r
    let depth := view.depth.toNat
    let head := decPtr st.cfg (st.headPtrAt d s r.toNat)
    let tail := decPtr st.cfg (st.tailPtrAt d s r.toNat)
    let isStep := (view.depth ≠ 0#32 ∧ view.base ≠ 0#64) ∧ 1 ≤ n ∧ validPtrs head tail depth = true ∧
      (ringDir st.cfg r = .hostProduces → (n : Int) ≤ usedInt head tail depth) ∧
      (ringDir st.cfg r = .hwProduces → (n : Int) ≤ depth - usedInt head tail depth)
    (isStep → st.cfg.ptrIdxW ≤ 31 → depth < 2 ^ st.cfg.ptrIdxW →
      ∃ t, agentStep (.dmaAdv d s r n) st = .next t ∧
        t = { st with headPtr := t.headPtr, tailPtr := t.tailPtr } ∧
        validPtrs (ringHead t d s r) (ringTail t d s r) depth = true ∧
        (ringDir st.cfg r = .hostProduces → t.tailPtr = st.tailPtr ∧ ringHead t d s r = adv head n depth) ∧
        (ringDir st.cfg r = .hwProduces → t.headPtr = st.headPtr ∧ ringTail t d s r = adv tail n depth) ∧
        (∀ d' s' r', ¬ (d' = d ∧ s' = s ∧ r' = r.toNat) →
          t.headPtrAt d' s' r' = st.headPtrAt d' s' r' ∧ t.tailPtrAt d' s' r' = st.tailPtrAt d' s' r')) ∧
    (¬ isStep → agentStep (.dmaAdv d s r n) st = .next st)

/-! ## Ring commands -/

/-- R154: `RING_CFG` on a ready device creates the view of a ring that is not configured, from zero pointers and
counters; every other view and every register is unchanged. -/
def Obligations.RingCfgCreatesView : Prop :=
  ∀ (d : DevId) (s : SubId) (r : RingId) (base : DWord) (depth : Word) (wpd : BitVec 16) (lock : Bool) (st : State),
    ringIdsOk st.cfg d s r = true → st.readyAt d = true → (∀ u ∈ st.updating, u.1 ≠ d) →
    ((st.viewAt d s r).depth = 0#32 ∨ (st.viewAt d s r).base = 0#64) → depth.toNat < 2 ^ st.cfg.ptrIdxW →
    ∃ t, exec (.ringCfg d s r base depth wpd lock) st = .next t ∧
      t = { st with view := t.view, resp := ⟨.ok, []⟩ } ∧
      t.viewAt d s r = { base := base, depth := depth, wpd := wpd, lockRequired := lock, head := ⟨false, 0⟩,
                         tail := ⟨false, 0⟩, lastPtr := 0#64, descCount := 0#64, byteCount := 0#64,
                         occupancy := 0#32 } ∧
      (∀ d' s' r', ¬ (d' = d ∧ s' = s ∧ r' = r) → t.viewAt d' s' r' = st.viewAt d' s' r')

/-- R154: a `RING_CFG` on a device that is not ready is a silent no-op (whatever the depth, log entry 8); a second one, or
a depth of `2^PTR_IDX_W` or more, is refused with `ST_INVALID_ARG`; none changes the view. -/
def Obligations.RingCfgRefusals : Prop :=
  ∀ (d : DevId) (s : SubId) (r : RingId) (base : DWord) (depth : Word) (wpd : BitVec 16) (lock : Bool) (st : State),
    ringIdsOk st.cfg d s r = true → (∀ u ∈ st.updating, u.1 ≠ d) →
    (st.readyAt d = false →
      exec (.ringCfg d s r base depth wpd lock) st = .next { st with resp := ⟨.ok, []⟩ }) ∧
    (st.readyAt d = true → (st.viewAt d s r).depth ≠ 0#32 → (st.viewAt d s r).base ≠ 0#64 →
      exec (.ringCfg d s r base depth wpd lock) st = .next { st with resp := ⟨.invalidArg, []⟩ }) ∧
    (st.readyAt d = true → 2 ^ st.cfg.ptrIdxW ≤ depth.toNat →
      exec (.ringCfg d s r base depth wpd lock) st = .next { st with resp := ⟨.invalidArg, []⟩ })

/-- R156, R157: `USED` returns the formula on the stored view as a signed word (log entry 19), zero on a ring that is not
configured, and changes nothing. -/
def Obligations.UsedReturnsOccupancy : Prop :=
  ∀ (d : DevId) (s : SubId) (r : RingId) (st : State), ringIdsOk st.cfg d s r = true →
    ((st.viewAt d s r).depth = 0#32 ∨ (st.viewAt d s r).base = 0#64 →
      exec (.used d s r) st = .next { st with resp := ⟨.ok, [0#32]⟩ }) ∧
    ((st.viewAt d s r).depth ≠ 0#32 → (st.viewAt d s r).base ≠ 0#64 →
      exec (.used d s r) st = .next { st with resp := ⟨.ok, [BitVec.ofInt 32
        (if (st.viewAt d s r).tail.wrap = (st.viewAt d s r).head.wrap then
          ((st.viewAt d s r).tail.idx : Int) - (st.viewAt d s r).head.idx
         else ((st.viewAt d s r).depth.toNat : Int) -
          (((st.viewAt d s r).head.idx : Int) - (st.viewAt d s r).tail.idx))]⟩ })

/-- R161: `RING_DUMP` returns the thirteen words of the view and changes nothing. -/
def Obligations.RingDumpReturnsView : Prop :=
  ∀ (d : DevId) (s : SubId) (r : RingId) (st : State), ringIdsOk st.cfg d s r = true →
    exec (.ringDump d s r) st = .next { st with resp := ⟨.ok,
      [ encPtr st.cfg (st.viewAt d s r).head, encPtr st.cfg (st.viewAt d s r).tail, (st.viewAt d s r).depth,
        (st.viewAt d s r).wpd.setWidth 32, (if (st.viewAt d s r).lockRequired then 1#32 else 0#32),
        (st.viewAt d s r).lastPtr.extractLsb' 0 32, (st.viewAt d s r).lastPtr.extractLsb' 32 32,
        (st.viewAt d s r).base.extractLsb' 0 32, (st.viewAt d s r).base.extractLsb' 32 32,
        (st.viewAt d s r).occupancy, r.setWidth 32, (st.viewAt d s r).descCount.extractLsb' 0 32,
        (st.viewAt d s r).descCount.extractLsb' 32 32 ]⟩ }

/-- R158: with no other agent stepping, `UPDATE_VIEW` on a configured ring reads the head register, then the tail
register, and stores the decoded pair, the occupancy, and the two counters increased by the head's advance; every other
view and every register is unchanged. -/
def Obligations.UpdateViewTakesSnapshot : Prop :=
  ∀ (d : DevId) (s : SubId) (r : RingId) (st : State), Quiet st → ringIdsOk st.cfg d s r = true → st.readyAt d = true →
    (st.viewAt d s r).depth ≠ 0#32 → (st.viewAt d s r).base ≠ 0#64 → (d, s, r) ∉ st.updating →
    ∃ t, exec (.updateView d s r) st = .next t ∧
      t = { st with view := t.view, resp := ⟨.ok, []⟩,
                    trace := st.trace ++ [.read d s (addrOf st.cfg (.headPtr r.toNat)) (st.headPtrAt d s r.toNat),
                                          .read d s (addrOf st.cfg (.tailPtr r.toNat)) (st.tailPtrAt d s r.toNat)] } ∧
      (let v := st.viewAt d s r
       let depth := v.depth.toNat
       let nh := decPtr st.cfg (st.headPtrAt d s r.toNat)
       let nt := decPtr st.cfg (st.tailPtrAt d s r.toNat)
       let delta := (((pos nh depth : Int) - pos v.head depth) % (2 * (depth : Int))).toNat
       t.viewAt d s r =
        { v with head := nh, tail := nt, descCount := v.descCount + BitVec.ofNat 64 delta,
                 byteCount := v.byteCount + BitVec.ofNat 64 (delta * v.wpd.toNat * st.cfg.descWordBytes),
                 occupancy := BitVec.ofInt 32 (usedInt nh nt depth) }) ∧
      (∀ d' s' r', ¬ (d' = d ∧ s' = s ∧ r' = r) → t.viewAt d' s' r' = st.viewAt d' s' r')

/-- R158: on a device that is not ready or a ring that is not configured, `UPDATE_VIEW` makes no read and mutates
nothing, whatever other agents are scheduled. -/
def Obligations.UpdateViewNoOp : Prop :=
  ∀ (d : DevId) (s : SubId) (r : RingId) (st : State), ringIdsOk st.cfg d s r = true →
    (st.readyAt d = false ∨ (st.viewAt d s r).depth = 0#32 ∨ (st.viewAt d s r).base = 0#64) →
    exec (.updateView d s r) st = .next { st with resp := ⟨.ok, []⟩ }

/-- R159 (d), R322: when the DMA engine takes `n` descriptors between the two reads of an `UPDATE_VIEW`, the view keeps
the older head and an occupancy `n` too high; the next `UPDATE_VIEW` corrects it. The interleaving is given by the schedule, log entry 3. -/
def Obligations.TornSnapshotCorrectsItself : Prop :=
  ∀ (d : DevId) (s : SubId) (r : RingId) (n : Nat) (st : State), st.sched = [[.dmaAdv d s r n]] → st.cfg.ptrIdxW ≤ 30 →
    st.readyAt d = true → (st.viewAt d s r).depth.toNat < 2 ^ st.cfg.ptrIdxW → (d, s, r) ∉ st.updating →
    ringDir st.cfg r = .hostProduces → dmaEnabled st d s r n = true →
    ∃ t u, exec (.updateView d s r) st = .next t ∧ exec (.updateView d s r) t = .next u ∧
      (t.viewAt d s r).head = ringHead st d s r ∧ (t.viewAt d s r).tail = ringTail st d s r ∧
      (t.viewAt d s r).occupancy.toInt = usedInt (ringHead t d s r) (ringTail t d s r) (st.viewAt d s r).depth.toNat + n ∧
      (u.viewAt d s r).head = ringHead t d s r ∧
      (u.viewAt d s r).occupancy.toInt = (t.viewAt d s r).occupancy.toInt - n ∧
      (u.viewAt d s r).descCount = (t.viewAt d s r).descCount + BitVec.ofNat 64 n

/-! ## The poll cycle -/

/-- R188: in a complete table, a set bit of the latched word leads to every leaf under its entry. -/
def Obligations.CompleteTableServesEveryLeaf : Prop :=
  ∀ (c : Cfg) (i b : Nat) (t : BusTable) (body : Body) (w : Word) (L : LeafId), slotTable c i = some t →
    tableComplete c t = true → w.getLsbD b = true → tableEntry t b = some body → L ∈ bodyLeaves body →
    L ∈ leavesToService c i w

/-- R187 to R189: the list is, for each set bit of the word that has an entry, in ascending bit order, the leaves under the
entry, in table order, that every mask on the way and their own shadow mask let the word reach; the rest is skipped. With
a well-formed configuration each leaf occurs at most once, and only leaves of the slot's table do. -/
def Obligations.EachLeafServicedAtMostOnce : Prop :=
  (∀ (c : Cfg) (i : Nat) (w : Word), leavesToService c i w =
    match slotTable c i with
    | none => []
    | some t => ((List.range 32).filter (fun b => w.getLsbD b)).flatMap (fun b =>
        match tableEntry t b with
        | none => []
        | some body => ((bodyPaths body).filter (pathMeets c w)).map Prod.snd)) ∧
  ∀ (c : Cfg) (i : Nat) (w : Word), cfgWf c = true → i < 16 →
    (leavesToService c i w).Nodup ∧ ∀ L ∈ leavesToService c i w, slotOf c L = some i ∧ L < c.leaves.length

/-- R191: one service of a leaf adds exactly one to the counter of each set bit of the raw status, nothing to any other
counter, and leaves `COUNT_SHOWN` and every register alone, callback or not. -/
def Obligations.LeafServiceCountsSetBitsOnce : Prop :=
  ∀ (st : State) (d : DevId) (L : LeafId),
    let raw := st.statusAt d (st.seqAt d).sub L
    leafRead st d L = { st with count := (leafRead st d L).count,
                                trace := st.trace ++ [.read d (st.seqAt d).sub (addrOf st.cfg (.status L)) raw] } ∧
    ∀ d' L' b, b < 32 → (leafRead st d L).countAt d' L' b =
      if d' = d ∧ L' = L ∧ raw.getLsbD b = true then st.countAt d' L' b + 1#32 else st.countAt d' L' b

/-- R192, R193: the callback of a leaf is invoked when one is registered and the status read is non-zero (or `CB_ON_ZERO`
holds), with the message the rule lists; otherwise nothing more is done for the leaf. -/
def Obligations.DispatchMessageIsTheRules : Prop :=
  ∀ (st : State) (d : DevId) (L : LeafId) (raw : Word) (run : Runner),
    (st.cbAt d L = none ∨ (raw = 0#32 ∧ st.cfg.cbOnZero = false) → leafCallback run d L raw st = .next st) ∧
    (∀ fn ud, st.cbAt d L = some ⟨fn, ud⟩ → (raw ≠ 0#32 ∨ st.cfg.cbOnZero = true) → Quiet st →
      leafCallback run d L raw st =
        runHandler run
          (handlerCommands st.cfg ⟨fn, d, (st.seqAt d).sub, (leafDesc st.cfg L).statusAddr, raw,
            (leafDesc st.cfg L).enHiAddr, (leafDesc st.cfg L).enLoAddr, ud⟩)
          { st with trace := st.trace ++ [.dispatch ⟨fn, d, (st.seqAt d).sub, (leafDesc st.cfg L).statusAddr, raw,
            (leafDesc st.cfg L).enHiAddr, (leafDesc st.cfg L).enLoAddr, ud⟩] })

/-- R196 (b): "if the global word reads zero and `force` is clear, the cycle makes exactly one register read, zero
writes, zero callback invocations" and leaves the counters unchanged. -/
def Obligations.IdlePollIsOneRead : Prop :=
  ∀ (d : DevId) (s : SubId) (st : State), Quiet st → idsOk st.cfg d s = true → st.readyAt d = true →
    (st.seqAt d).st = .idle → glbShadowAt st d s = 0#32 →
    ∃ t, exec (.poll false d s) st = .next t ∧
      t = { st with seq := t.seq, resp := ⟨.ok, []⟩,
                    trace := st.trace ++ [.read d s (addrOf st.cfg .glbShadow) 0#32] } ∧
      (t.seqAt d).st = .idle ∧ ∀ d', d' ≠ d → t.seqAt d' = st.seqAt d'

/-- R182: the entry tests of `POLL`: an id out of range, a device that is not ready, a poll already in progress; otherwise
the sequencer takes the fields the rule gives it. That `phase` is MASK (log entry 21), that
other agents step at a boundary (log entry 3) and that a handler's POLL nests (log entry 7) is the model's choice. -/
def Obligations.PollEntryTests : Prop :=
  ∀ (f : Bool) (d : DevId) (s : SubId) (st : State),
    (idsOk st.cfg d s = false → exec (.poll f d s) st = .next { st with resp := ⟨.invalidArg, []⟩ }) ∧
    (idsOk st.cfg d s = true → st.readyAt d = false → exec (.poll f d s) st = .next { st with resp := ⟨.ok, []⟩ }) ∧
    (idsOk st.cfg d s = true → st.readyAt d = true → (st.seqAt d).st ≠ .idle →
      exec (.poll f d s) st = .refused (.deviceBusy d)) ∧
    (idsOk st.cfg d s = true → st.readyAt d = true → (st.seqAt d).st = .idle →
      exec (.poll f d s) st =
        andThen (boundary ((pollOpen st d s f).setPolling (d :: st.polling))) (fun st₁ =>
          andThen (pollCycle (runWith (pollNested 15)) d st₁) (fun st₂ =>
            .next ((st₂.setPolling st.polling).respond ⟨.ok, []⟩))) ∧
      (pollOpen st d s f).seqAt d =
        { st := .globalCheck, sub := s, force := f, g := 0#16, i := 0, phase := .mask, w := 0#32, todo := [] })

/-- R180, R183 to R192, R196 (a), R197 (g): a whole poll of a device with no callbacks and no other agent stepping. The
transport sees the global read, then for each set slot, in numeric order, mask-write(all-ones), status-read, leaf-reads,
mask-write(zero); the mask of a serviced slot ends at zero; each leaf read adds one to the counter of each set bit; the
sequencer returns to `IDLE`; nothing else changes. -/
def Obligations.PollWithoutCallbacks : Prop :=
  ∀ (f : Bool) (d : DevId) (s : SubId) (st : State), Quiet st → idsOk st.cfg d s = true → st.readyAt d = true →
    (st.seqAt d).st = .idle → NoCallbacks st d →
    ∃ t, exec (.poll f d s) st = .next t ∧
      t = { st with shadowMsk := t.shadowMsk, count := t.count, seq := t.seq, resp := ⟨.ok, []⟩,
                    trace := st.trace ++ (.read d s (addrOf st.cfg .glbShadow) (glbShadowAt st d s) ::
                      (setSlots (latchedGlobal st f d s)).flatMap (fun i =>
                        slotTrace st d s i (shadowIntAt st d s i) (visitedLeaves st f d s i))) } ∧
      (∀ d' s' i, t.shadowMskAt d' s' i =
        if d' = d ∧ s' = s ∧ i ∈ setSlots (latchedGlobal st f d s) then 0#32 else st.shadowMskAt d' s' i) ∧
      (∀ d' L b, b < 32 → t.countAt d' L b =
        if d' = d ∧ (st.statusAt d s L).getLsbD b = true then
          st.countAt d L b + BitVec.ofNat 32
            (((setSlots (latchedGlobal st f d s)).flatMap (visitedLeaves st f d s)).count L)
        else st.countAt d' L b) ∧
      (t.seqAt d).st = .idle ∧ ∀ d', d' ≠ d → t.seqAt d' = st.seqAt d'

/-- R180, R194, R195: with every handler of the allowed shape and no other agent stepping, a poll completes with `ST_OK`
and its sequencer back at `IDLE`, and changes no callback, no readiness, no other sequencer.
A handler as a finite list of commands that depends on its message alone is the model's choice, log entry 6. -/
def Obligations.PollReturnsToIdle : Prop :=
  ∀ (f : Bool) (d : DevId) (s : SubId) (st : State), Settled st → idsOk st.cfg d s = true → st.readyAt d = true →
    HandlersAllowed st d →
    ∃ t, exec (.poll f d s) st = .next t ∧ t.resp = ⟨.ok, []⟩ ∧ (t.seqAt d).st = .idle ∧ Settled t ∧
      t.cb = st.cb ∧ t.devReady = st.devReady ∧ t.cfg = st.cfg ∧ t.port = st.port ∧
      ∀ d', d' ≠ d → t.seqAt d' = st.seqAt d'

/-- R196 (e): with no callbacks, a poll cycle makes at most `1 + 16 * (3 + len(TREE.leaves))` register accesses. -/
def Obligations.PollAccessBound : Prop :=
  ∀ (f : Bool) (d : DevId) (s : SubId) (st t : State), cfgWf st.cfg = true → Quiet st → NoCallbacks st d →
    exec (.poll f d s) st = .next t →
    t.trace.length ≤ st.trace.length + (1 + 16 * (3 + st.cfg.leaves.length))

/-- R311: while a poll of the device is in progress, `POLL`, `CB_REG`, `DEV_INIT`, and a `CNT_SHOW` that is not of the
poll's own handlers, are refused. -/
def Obligations.BusyDeviceIsRefused : Prop :=
  ∀ (f : Bool) (d : DevId) (s : SubId) (a fn : Word) (ud : DWord) (L : LeafId) (st : State), idsOk st.cfg d s = true →
    st.readyAt d = true → leafOf st.cfg a = some L → (st.seqAt d).st ≠ .idle →
    exec (.poll f d s) st = .refused (.deviceBusy d) ∧ exec (.cbReg d a fn ud) st = .refused (.deviceBusy d) ∧
    exec (.devInit d) st = .refused (.deviceBusy d) ∧
    (d ∉ st.polling → exec (.cntShow d a) st = .refused (.deviceBusy d))

/-- R312: from the first micro-step of another thread's `UPDATE_VIEW` to its last, an `UPDATE_VIEW` of the ring, a
`RING_CFG` of any ring of the device and a `DEV_INIT` of the device are refused, while `USED` and `RING_DUMP` run; R194: a
handler's `POLL`, `CB_REG` or `DEV_INIT` on a device its thread is polling is refused, on the running thread and on any
other. The other threads as data are the model's choice, log entry 3. -/
def Obligations.OverlapsAreRefused : Prop :=
  (∀ (n : Nat) (d : DevId) (s : SubId) (r : RingId) (st : State), (st.threadAt n).frames = [] →
    ringIdsOk st.cfg d s r = true → st.readyAt d = true → (st.viewAt d s r).depth ≠ 0#32 →
    (st.viewAt d s r).base ≠ 0#64 → (d, s, r) ∉ st.updating →
    ∃ t u v, agentStep (.present n (.updateView d s r)) st = .next t ∧ agentStep (.resume n) t = .next u ∧
      agentStep (.resume n) u = .next v ∧ v.updating = st.updating ∧
      ∀ x ∈ [t, u],
        exec (.updateView d s r) x = .refused (.ringBusy d) ∧
        (∀ s' r' base depth wpd lock, ringIdsOk st.cfg d s' r' = true →
          exec (.ringCfg d s' r' base depth wpd lock) x = .refused (.ringBusy d)) ∧
        ((st.seqAt d).st = .idle → exec (.devInit d) x = .refused (.ringBusy d)) ∧
        (∃ y, exec (.used d s r) x = .next y) ∧ (∃ y, exec (.ringDump d s r) x = .next y)) ∧
  (∀ (run : Runner) (f : Bool) (d : DevId) (s : SubId) (a fn : Word) (ud : DWord) (is : List Instr) (st : State),
    d ∈ st.polling → ∀ i ∈ [Instr.poll f d s, .cbReg d a fn ud, .devInit d],
      runHandler run (i :: is) st = .refused (.deviceBusy d) ∧ frameStep (.cmd i) st = .refused (.deviceBusy d))

/-! ## Callbacks and counters -/

/-- R200: `CB_REG` on a ready device registers, overwrites or (with `fn = 0`) empties the leaf's slot of that device and
returns the previous callback; no other slot and no register changes. -/
def Obligations.CbRegReplacesCallback : Prop :=
  ∀ (d : DevId) (a fn : Word) (ud : DWord) (L : LeafId) (st : State), devOk st.cfg d = true →
    leafOf st.cfg a = some L → st.readyAt d = true → (st.seqAt d).st = .idle →
    ∃ t, exec (.cbReg d a fn ud) st = .next t ∧
      t = { st with cb := t.cb, resp := ⟨.ok, match st.cbAt d L with
        | none => [0#32, 0#32, 0#32]
        | some p => [p.fn, p.ud.extractLsb' 0 32, p.ud.extractLsb' 32 32]⟩ } ∧
      t.cbAt d L = (if fn = 0#32 then none else some ⟨fn, ud⟩) ∧
      (∀ d' L', ¬ (d' = d ∧ L' = L) → t.cbAt d' L' = st.cbAt d' L')

/-- R200, R203, R223, R224, R261: an address that is no leaf's status address is an invalid argument of `CB_REG`,
`CNT_SHOW`, `INJECT_ALL` and `ENABLE_ALL`; a `CB_REG` on a device that is not ready registers nothing. -/
def Obligations.CallbackCommandRefusals : Prop :=
  ∀ (d : DevId) (s : SubId) (on : Bool) (a fn : Word) (ud : DWord) (st : State), devOk st.cfg d = true →
    ((∀ l ∈ st.cfg.leaves, l.statusAddr ≠ a) →
      exec (.cbReg d a fn ud) st = .next { st with resp := ⟨.invalidArg, []⟩ } ∧
      exec (.cntShow d a) st = .next { st with resp := ⟨.invalidArg, []⟩ } ∧
      exec (.injectAll d s a) st = .next { st with resp := ⟨.invalidArg, []⟩ } ∧
      exec (.enableAll on d s a) st = .next { st with resp := ⟨.invalidArg, []⟩ }) ∧
    (∀ L, leafOf st.cfg a = some L → st.readyAt d = false →
      exec (.cbReg d a fn ud) st = .next { st with resp := ⟨.ok, [0#32, 0#32, 0#32]⟩ })

/-- R203: `CNT_SHOW` returns the 32 counts and the 32 differences since the last display, and copies `COUNT` to
`COUNT_SHOWN` for that leaf of that device only. -/
def Obligations.CntShowReportsAndCopies : Prop :=
  ∀ (d : DevId) (a : Word) (L : LeafId) (st : State), devOk st.cfg d = true → leafOf st.cfg a = some L →
    ((st.seqAt d).st = .idle ∨ d ∈ st.polling) →
    ∃ t, exec (.cntShow d a) st = .next t ∧
      t = { st with countShown := t.countShown, resp := ⟨.ok,
        (List.range 32).map (fun b => st.countAt d L b) ++
        (List.range 32).map (fun b => st.countAt d L b - st.countShownAt d L b)⟩ } ∧
      (∀ d' L' b, b < 32 → t.countShownAt d' L' b =
        if d' = d ∧ L' = L then st.countAt d L b else st.countShownAt d' L' b)

/-! ## Inject and enable -/

/-- R223: `INJECT_ALL` on a leaf the gate admits makes one write, which ORs the leaf's pattern into its status; nothing
else changes. -/
def Obligations.InjectAllSetsPattern : Prop :=
  ∀ (d : DevId) (s : SubId) (a : Addr) (L : LeafId) (st : State), idsOk st.cfg d s = true → leafOf st.cfg a = some L →
    st.readyAt d = true → leafOk st.cfg d s L = true →
    ∃ t, exec (.injectAll d s a) st = .next t ∧
      t = { st with status := t.status, resp := ⟨.ok, []⟩,
                    trace := st.trace ++ [.write d s (addrOf st.cfg (.inject L)) (injectPatternOf st.cfg L)] } ∧
      (∀ d' s' L', t.statusAt d' s' L' =
        if d' = d ∧ s' = s ∧ L' = L then st.statusAt d s L ||| injectPatternOf st.cfg L else st.statusAt d' s' L')

/-- R224: with no other agent stepping, `ENABLE_ALL` on a leaf the gate admits writes all-ones or zero to the hi enable
register, then to the lo enable register; nothing else changes. -/
def Obligations.EnableAllWritesHiThenLo : Prop :=
  ∀ (on : Bool) (d : DevId) (s : SubId) (a : Addr) (L : LeafId) (st : State), Quiet st → idsOk st.cfg d s = true →
    leafOf st.cfg a = some L → st.readyAt d = true → leafOk st.cfg d s L = true →
    let v : Word := if on then 0xFFFFFFFF#32 else 0#32
    ∃ t, exec (.enableAll on d s a) st = .next t ∧
      t = { st with enHi := t.enHi, enLo := t.enLo, resp := ⟨.ok, []⟩,
                    trace := st.trace ++ [.write d s (addrOf st.cfg (.enHi L)) v, .write d s (addrOf st.cfg (.enLo L)) v] } ∧
      (∀ d' s' L', t.enHiAt d' s' L' = if d' = d ∧ s' = s ∧ L' = L then v else st.enHiAt d' s' L') ∧
      (∀ d' s' L', t.enLoAt d' s' L' = if d' = d ∧ s' = s ∧ L' = L then v else st.enLoAt d' s' L')

/-- R225: if `leaf_ok(d, s, L)` is false then `INJECT_ALL` and `ENABLE_ALL` on `L` return `ST_OK` and the transport sees
no access at all, whatever other agents are scheduled (and so on a device that is not ready); with `leaf_ok` true
`INJECT_ALL` performs one write and `ENABLE_ALL` two. -/
def Obligations.DeniedLeafSeesNoAccess : Prop :=
  ∀ (on : Bool) (d : DevId) (s : SubId) (a : Addr) (L : LeafId) (st : State), idsOk st.cfg d s = true →
    leafOf st.cfg a = some L →
    (leafOk st.cfg d s L = false ∨ st.readyAt d = false →
      exec (.injectAll d s a) st = .next { st with resp := ⟨.ok, []⟩ } ∧
      exec (.enableAll on d s a) st = .next { st with resp := ⟨.ok, []⟩ }) ∧
    (leafOk st.cfg d s L = true → st.readyAt d = true → Quiet st →
      (∃ t v, exec (.injectAll d s a) st = .next t ∧ t.resp = ⟨.ok, []⟩ ∧
        t.trace = st.trace ++ [.write d s (addrOf st.cfg (.inject L)) v]) ∧
      (∃ t v w, exec (.enableAll on d s a) st = .next t ∧ t.resp = ⟨.ok, []⟩ ∧
        t.trace = st.trace ++ [.write d s (addrOf st.cfg (.enHi L)) v, .write d s (addrOf st.cfg (.enLo L)) w]))

/-! ## The log -/

/-- R240: with no other agent stepping, `LOG_EVENT` claims slot `LOG.next mod 1024`, stamps it with the clock's draw and
stores the payload as given, data words beyond `n_words` as zero; no other slot and no register changes. The draw is free,
log entry 4. -/
def Obligations.LogEventFillsClaimedSlot : Prop :=
  ∀ (d : DevId) (s : SubId) (r : RingId) (dir : LogDir) (head tail : Word) (data : List DWord) (st : State), Quiet st →
    ringIdsOk st.cfg d s r = true → data.length ≤ 4 →
    ∃ t, exec (.logEvent d s r dir head tail data) st = .next t ∧
      t = { clockDrawn st with logEntries := t.logEntries, logNext := st.logNext + 1#64, logLock := none,
                               resp := ⟨.ok, []⟩ } ∧
      (∀ j, t.logAt j =
        if j = st.logNext.toNat % 1024 then
          ⟨clockValue st, { dir := dir, dev := d, sub := s, ring := r, nWords := BitVec.ofNat 3 data.length, head := head,
                            tail := tail, data0 := data.getD 0 0#64, data1 := data.getD 1 0#64,
                            data2 := data.getD 2 0#64, data3 := data.getD 3 0#64 }⟩
        else st.logAt j)

/-- R246: with no other agent stepping and the allocation draw true, `LOG_READ` returns the number of the entries that are
not empty, of this device and subdevice and of a wanted ring, and their records of fourteen words in ascending slot order;
apart from the draw it writes no state. -/
def Obligations.LogReadReturnsRecords : Prop :=
  ∀ (d : DevId) (s : SubId) (filter : DWord) (st : State), Quiet st → idsOk st.cfg d s = true → allocValue st = true →
    let slots := (List.range 1024).filter (fun j =>
      decide ((st.logAt j).ts ≠ 0#64 ∧ (st.logAt j).payload.dev = d ∧ (st.logAt j).payload.sub = s ∧
        (filter = 0#64 ∨ filter.getLsbD (st.logAt j).payload.ring.toNat = true)))
    let dirCode : LogDir → Nat := fun dir => match dir with
      | .push => 0 | .pull => 1 | .start => 2 | .service => 3 | .dmaRd => 4 | .dmaWr => 5
    let record : Nat → List Word := fun j =>
      let e := st.logAt j
      let p := e.payload
      [ BitVec.ofNat 32 j, e.ts.extractLsb' 0 32, e.ts.extractLsb' 32 32,
        BitVec.ofNat 32 (2 ^ 20 * p.dev.toNat + 2 ^ 18 * p.sub.toNat + 2 ^ 12 * p.ring.toNat + 2 ^ 4 * dirCode p.dir +
          p.nWords.toNat),
        p.head, p.tail, p.data0.extractLsb' 0 32, p.data0.extractLsb' 32 32, p.data1.extractLsb' 0 32,
        p.data1.extractLsb' 32 32, p.data2.extractLsb' 0 32, p.data2.extractLsb' 32 32, p.data3.extractLsb' 0 32,
        p.data3.extractLsb' 32 32 ]
    ∃ t, exec (.logRead d s filter) st = .next t ∧
      t = { st with resp := ⟨.ok, BitVec.ofNat 32 slots.length :: slots.flatMap record⟩, allocIn := t.allocIn,
                    draws := t.draws }

/-- R246: `LOG_READ` draws once. When the draw is false it returns `ST_NO_RESOURCE` with no words and reads nothing; with
`ALLOC_CAN_FAIL = false` the draw is true; else it is the next one the allocator has queued, which is then used up, and
with none queued it is free (log entry 5). -/
def Obligations.LogReadAllocationFailure : Prop :=
  ∀ (d : DevId) (s : SubId) (filter : DWord) (st : State), idsOk st.cfg d s = true →
    (allocValue st = false → exec (.logRead d s filter) st = .next { allocDrawn st with resp := ⟨.noResource, []⟩ }) ∧
    (st.cfg.allocCanFail = false → allocValue st = true ∧ allocDrawn st = st) ∧
    (∀ b bs, st.cfg.allocCanFail = true → st.allocIn = b :: bs →
      allocValue st = b ∧ allocDrawn st = { st with allocIn := bs })

/-- R243 (a), (c), (d): any 1024 consecutive allocations return 1024 different slots, across the wrap of `LOG.next` too. -/
def Obligations.ConsecutiveSlotsDiffer : Prop :=
  ∀ (st : State) (i j : Nat), i < j → j < 1024 →
    (st.logNext + BitVec.ofNat 64 i).toNat % 1024 ≠ (st.logNext + BitVec.ofNat 64 j).toNat % 1024 ∧
    logSlot { st with logNext := st.logNext + BitVec.ofNat 64 i } ≠
      logSlot { st with logNext := st.logNext + BitVec.ofNat 64 j }

/-- R249: from an empty log, after `m` events with non-zero timestamps `LOG.next = m`, slot `j` holds the event numbered
`j + 1 + 1024 * floor((m - 1 - j) / 1024)`, and `LOG_READ` returns `min(m, 1024)` records. -/
def Obligations.LogWrapsAround : Prop :=
  ∀ (d : DevId) (s : SubId) (es : List LogCall) (st : State), Quiet st → idsOk st.cfg d s = true →
    (∀ e ∈ es, e.legal st.cfg = true) → st.logEntries = [] → st.logNext = 0#64 → es.length ≤ st.clockIn.length →
    (∀ t ∈ st.clockIn, t ≠ 0#64) →
    ∃ t, runLog d s es st = .next t ∧ t.logNext = BitVec.ofNat 64 es.length ∧
      (∀ j, j < min es.length 1024 →
        ∃ e ts, es[j + 1024 * ((es.length - 1 - j) / 1024)]? = some e ∧
          st.clockIn[j + 1024 * ((es.length - 1 - j) / 1024)]? = some ts ∧ ts ≠ 0#64 ∧ t.logAt j = e.entry d s ts) ∧
      (allocValue t = true → ∃ u, exec (.logRead d s 0#64) t = .next u ∧
        u.resp.words.head? = some (BitVec.ofNat 32 (min es.length 1024)))

/-- R244: another thread's `LOG_EVENT` taken micro-step by micro-step: after `E1` the slot is claimed and every entry is
as before; `E2` writes the timestamp alone; `E3` the payload. The running thread's response is not touched. Threads as
data are the model's choice, log entry 3. -/
def Obligations.LogEventMicroSteps : Prop :=
  ∀ (d : DevId) (s : SubId) (r : RingId) (dir : LogDir) (head tail : Word) (data : List DWord) (n : Nat) (st : State),
    ringIdsOk st.cfg d s r = true → data.length ≤ 4 → (st.threadAt n).frames = [] →
    ∃ t u v, agentStep (.present n (.logEvent d s r dir head tail data)) st = .next t ∧
      agentStep (.resume n) t = .next u ∧ agentStep (.resume n) u = .next v ∧
      t.logNext = st.logNext + 1#64 ∧ (∀ j, t.logAt j = st.logAt j) ∧
      (∀ j, u.logAt j = if j = st.logNext.toNat % 1024 then { st.logAt j with ts := clockValue st } else st.logAt j) ∧
      (∀ j, v.logAt j =
        if j = st.logNext.toNat % 1024 then ⟨clockValue st, logPayload d s r dir head tail data⟩ else st.logAt j) ∧
      v.resp = st.resp ∧ v.logNext = st.logNext + 1#64 ∧ (v.threadAt n).frames = []

/-! ## Reset and the invariants of a step -/

/-- R50, R300: what the spec's table gives after reset, for any configuration: registers, counters, pointers zero,
derived words zero and the wire low, no callback, no view configured, the log empty and its lock free, every sequencer
`IDLE`, no device ready. -/
def Obligations.ResetValues : Prop :=
  ∀ (c : Cfg) (d : DevId) (s : SubId),
    let st := State.resetWith c
    (∀ L, st.statusAt d s L = 0#32 ∧ st.enHiAt d s L = 0#32 ∧ st.enLoAt d s L = 0#32 ∧ st.cbAt d L = none ∧
      ∀ b, st.countAt d L b = 0#32 ∧ st.countShownAt d L b = 0#32) ∧
    (∀ i, st.shadowMskAt d s i = 0#32 ∧ shadowIntAt st d s i = 0#32) ∧ glbShadowAt st d s = 0#32 ∧
    intLine st d s = false ∧
    (∀ r, st.headPtrAt d s r = 0#32 ∧ st.tailPtrAt d s r = 0#32) ∧ (∀ r, st.viewAt d s r = View.zero) ∧
    (∀ j, st.logAt j = LogEntry.empty) ∧ st.logNext = 0#64 ∧ st.logLock = none ∧ (st.seqAt d).st = .idle ∧
    st.readyAt d = false

/-- The reset state has the invariants the next statements keep, whatever the configuration. The canonical form is the
model's choice, log entry 2. -/
def Obligations.ResetHasInvariants : Prop :=
  ∀ c : Cfg, StoresCanonical (State.resetWith c) ∧ RegistersInRange (State.resetWith c)

/-- Every step, from any state and with any other agents stepping, keeps every sparse array in canonical form: equal
register contents stay equal data. The form is the model's choice, log entry 2. -/
def Obligations.StepKeepsStoresCanonical : Prop :=
  ∀ s s' : State, StoresCanonical s → step s = .next s' → StoresCanonical s'

/-- R26, R41, R43, R44, R162, R243: every step, with any other agents stepping, keeps the registers in their ranges. -/
def Obligations.StepKeepsRegistersInRange : Prop :=
  ∀ s s' : State, RegistersInRange s → step s = .next s' → RegistersInRange s'

/-- R46, R49: no step changes the configuration, and a device once ready stays ready. -/
def Obligations.StepKeepsConfigAndReadiness : Prop :=
  ∀ s s' : State, step s = .next s' → s'.cfg = s.cfg ∧ ∀ d, s.readyAt d = true → s'.readyAt d = true

/-- R260, R265: a command that answers a status other than `ST_OK` answers no result words and leaves every register,
array, view and entry, and what the transport has shown, exactly as before; only an allocation draw may have been used. -/
def Obligations.FailureChangesNothing : Prop :=
  ∀ (i : Instr) (st t : State), exec i st = .next t → t.resp.status ≠ .ok →
    t.resp.words = [] ∧ t = { st with resp := t.resp, allocIn := t.allocIn, draws := t.draws }
end

