-- ==== Sys2Proof/Laws/Decode.lean ====
section
/-! SUPPORT. The fields of a command word, which row it selects, and the words of the 64-bit quantities. -/

namespace Sys2Proof

/-! ## Fields -/

/-- Two command words are equal when their seven fields are (R91). -/
theorem word_eq_iff_fields (x y : Word) : x = y ↔
    x.extractLsb' 26 6 = y.extractLsb' 26 6 ∧ x.extractLsb' 25 1 = y.extractLsb' 25 1 ∧
    x.extractLsb' 24 1 = y.extractLsb' 24 1 ∧ x.extractLsb' 20 4 = y.extractLsb' 20 4 ∧
    x.extractLsb' 18 2 = y.extractLsb' 18 2 ∧ x.extractLsb' 12 6 = y.extractLsb' 12 6 ∧
    x.extractLsb' 0 12 = y.extractLsb' 0 12 := by
  constructor
  · rintro rfl
    simp
  · rintro ⟨h1, h2, h3, h4, h5, h6, h7⟩
    have h1 := congrArg BitVec.toNat h1
    have h2 := congrArg BitVec.toNat h2
    have h3 := congrArg BitVec.toNat h3
    have h4 := congrArg BitVec.toNat h4
    have h5 := congrArg BitVec.toNat h5
    have h6 := congrArg BitVec.toNat h6
    have h7 := congrArg BitVec.toNat h7
    simp only [BitVec.extractLsb'_toNat, Nat.shiftRight_eq_div_pow] at h1 h2 h3 h4 h5 h6 h7
    have hx := x.isLt
    have hy := y.isLt
    apply BitVec.eq_of_toNat_eq
    omega

/-- A row selects a word field by field (R94). -/
theorem OpRow.selects_iff_fields (row : OpRow) (cw : Word) : row.selects cw = true ↔
    cw.extractLsb' 26 6 &&& row.maskBits.extractLsb' 26 6 = row.matchBits.extractLsb' 26 6 ∧
    cw.extractLsb' 25 1 &&& row.maskBits.extractLsb' 25 1 = row.matchBits.extractLsb' 25 1 ∧
    cw.extractLsb' 24 1 &&& row.maskBits.extractLsb' 24 1 = row.matchBits.extractLsb' 24 1 ∧
    cw.extractLsb' 20 4 &&& row.maskBits.extractLsb' 20 4 = row.matchBits.extractLsb' 20 4 ∧
    cw.extractLsb' 18 2 &&& row.maskBits.extractLsb' 18 2 = row.matchBits.extractLsb' 18 2 ∧
    cw.extractLsb' 12 6 &&& row.maskBits.extractLsb' 12 6 = row.matchBits.extractLsb' 12 6 ∧
    cw.extractLsb' 0 12 &&& row.maskBits.extractLsb' 0 12 = row.matchBits.extractLsb' 0 12 := by
  unfold OpRow.selects
  rw [decide_eq_true_iff, word_eq_iff_fields]
  simp only [BitVec.extractLsb'_and]

/-- Every row of the opcode map fixes the whole opcode field (R94). -/
theorem opRows_fix_code : ∀ row ∈ opRows, row.maskBits.extractLsb' 26 6 = 0x3F#6 ∧
    row.matchBits.extractLsb' 26 6 = row.op.code := by decide

/-- A row selects only words with its own opcode. -/
theorem OpRow.code_of_selects (row : OpRow) (cw : Word) (hrow : row ∈ opRows) (h : row.selects cw = true) :
    cw.extractLsb' 26 6 = row.op.code := by
  obtain ⟨hm, hc⟩ := opRows_fix_code row hrow
  have h1 := ((OpRow.selects_iff_fields row cw).mp h).1
  rw [hm, hc] at h1
  rw [← h1]
  have : (0x3F#6) = BitVec.allOnes 6 := by decide
  rw [this, BitVec.and_allOnes]

/-- No two rows of the opcode map have the same opcode: at most one selects a word. -/
theorem Op.code_injective (a b : Op) (h : a.code = b.code) : a = b := by
  cases a <;> cases b <;> first | rfl | exact absurd h (by decide)

theorem opRows_op_injective : ∀ a ∈ opRows, ∀ b ∈ opRows, a.op = b.op → a = b := by decide

theorem opRows_complete (op : Op) : ∃ row ∈ opRows, row.op = op := by
  cases op <;> decide

/-- What the decoder selects: the row's command, if the row's constraints hold (R94, R96). -/
theorem selectOp_eq_of_selects (row : OpRow) (cw : Word) (hrow : row ∈ opRows) (h : row.selects cw = true) :
    selectOp cw = if row.op = .logEvent ∧ logConstraints cw = false then none else some row.op := by
  have hfind : opRows.find? (fun row => row.selects cw) = some row := by
    cases hf : opRows.find? (fun row => row.selects cw) with
    | none => exact absurd h (by simpa using List.find?_eq_none.mp hf row hrow)
    | some row' =>
      have hmem := List.mem_of_find?_eq_some hf
      have hsel : row'.selects cw = true := List.find?_some (p := fun row => OpRow.selects row cw) hf
      have hcode := (OpRow.code_of_selects row' cw hmem hsel).symm.trans (OpRow.code_of_selects row cw hrow h)
      rw [opRows_op_injective row' hmem row hrow (Op.code_injective _ _ hcode)]
  unfold selectOp
  rw [hfind]

/-- A word no row selects is illegal (R96). -/
theorem selectOp_eq_none_of_unselected (cw : Word) (h : ∀ row ∈ opRows, row.selects cw = false) : selectOp cw = none := by
  have hfind : opRows.find? (fun row => row.selects cw) = none := by
    rw [List.find?_eq_none]
    intro row hrow
    simp [h row hrow]
  unfold selectOp
  rw [hfind]

/-- What the decoder selected, it selected by a row, whose constraints hold. -/
theorem selectOp_eq_some_iff (cw : Word) (op : Op) : selectOp cw = some op ↔
    ∃ row ∈ opRows, row.op = op ∧ row.selects cw = true ∧ (op = .logEvent → logConstraints cw = true) := by
  constructor
  · intro h
    by_cases hsel : ∃ row ∈ opRows, row.selects cw = true
    · obtain ⟨row, hrow, hs⟩ := hsel
      rw [selectOp_eq_of_selects row cw hrow hs] at h
      split at h
      · cases h
      · rename_i hc
        cases h
        refine ⟨row, hrow, rfl, hs, fun ho => ?_⟩
        by_contra hf
        exact hc ⟨ho, by simpa using hf⟩
    · rw [selectOp_eq_none_of_unselected cw (fun row hrow => by
        by_contra hs
        exact hsel ⟨row, hrow, by simpa using hs⟩)] at h
      cases h
  · rintro ⟨row, hrow, rfl, hs, hl⟩
    rw [selectOp_eq_of_selects row cw hrow hs, if_neg]
    rintro ⟨ho, hf⟩
    rw [hl ho] at hf
    cases hf

/-! ## The fields of an encoded command word -/

theorem commandWord_code (op : Op) (f : Bool) (d : DevId) (s : SubId) (r : RingId) (n : BitVec 12) :
    (commandWord op f d s r n).extractLsb' 26 6 = op.code := by
  unfold commandWord
  refine (BitVec.extractLsb'_append_eq_of_le (by decide)).trans ?_
  refine (BitVec.extractLsb'_append_eq_of_le (by decide)).trans ?_
  refine (BitVec.extractLsb'_append_eq_of_le (by decide)).trans ?_
  refine (BitVec.extractLsb'_append_eq_of_le (by decide)).trans ?_
  refine (BitVec.extractLsb'_append_eq_of_le (by decide)).trans ?_
  exact BitVec.extractLsb'_append_eq_left

theorem commandWord_flag (op : Op) (f : Bool) (d : DevId) (s : SubId) (r : RingId) (n : BitVec 12) :
    (commandWord op f d s r n).extractLsb' 25 1 = BitVec.ofBool f := by
  unfold commandWord
  refine (BitVec.extractLsb'_append_eq_of_le (by decide)).trans ?_
  refine (BitVec.extractLsb'_append_eq_of_le (by decide)).trans ?_
  refine (BitVec.extractLsb'_append_eq_of_le (by decide)).trans ?_
  refine (BitVec.extractLsb'_append_eq_of_le (by decide)).trans ?_
  refine (BitVec.extractLsb'_append_eq_of_le (by decide)).trans ?_
  exact BitVec.extractLsb'_append_eq_right

theorem commandWord_zero (op : Op) (f : Bool) (d : DevId) (s : SubId) (r : RingId) (n : BitVec 12) :
    (commandWord op f d s r n).extractLsb' 24 1 = 0#1 := by
  unfold commandWord
  refine (BitVec.extractLsb'_append_eq_of_le (by decide)).trans ?_
  refine (BitVec.extractLsb'_append_eq_of_le (by decide)).trans ?_
  refine (BitVec.extractLsb'_append_eq_of_le (by decide)).trans ?_
  refine (BitVec.extractLsb'_append_eq_of_le (by decide)).trans ?_
  exact BitVec.extractLsb'_append_eq_right

theorem commandWord_dev (op : Op) (f : Bool) (d : DevId) (s : SubId) (r : RingId) (n : BitVec 12) :
    (commandWord op f d s r n).extractLsb' 20 4 = d := by
  unfold commandWord
  refine (BitVec.extractLsb'_append_eq_of_le (by decide)).trans ?_
  refine (BitVec.extractLsb'_append_eq_of_le (by decide)).trans ?_
  refine (BitVec.extractLsb'_append_eq_of_le (by decide)).trans ?_
  exact BitVec.extractLsb'_append_eq_right

theorem commandWord_sub (op : Op) (f : Bool) (d : DevId) (s : SubId) (r : RingId) (n : BitVec 12) :
    (commandWord op f d s r n).extractLsb' 18 2 = s := by
  unfold commandWord
  refine (BitVec.extractLsb'_append_eq_of_le (by decide)).trans ?_
  refine (BitVec.extractLsb'_append_eq_of_le (by decide)).trans ?_
  exact BitVec.extractLsb'_append_eq_right

theorem commandWord_ring (op : Op) (f : Bool) (d : DevId) (s : SubId) (r : RingId) (n : BitVec 12) :
    (commandWord op f d s r n).extractLsb' 12 6 = r := by
  unfold commandWord
  refine (BitVec.extractLsb'_append_eq_of_le (by decide)).trans ?_
  exact BitVec.extractLsb'_append_eq_right

theorem commandWord_imm (op : Op) (f : Bool) (d : DevId) (s : SubId) (r : RingId) (n : BitVec 12) :
    (commandWord op f d s r n).extractLsb' 0 12 = n := by
  unfold commandWord
  exact BitVec.extractLsb'_append_eq_right

@[simp] theorem cwDev_commandWord (op : Op) (f : Bool) (d : DevId) (s : SubId) (r : RingId) (n : BitVec 12) :
    cwDev (commandWord op f d s r n) = d := commandWord_dev op f d s r n

@[simp] theorem cwSub_commandWord (op : Op) (f : Bool) (d : DevId) (s : SubId) (r : RingId) (n : BitVec 12) :
    cwSub (commandWord op f d s r n) = s := commandWord_sub op f d s r n

@[simp] theorem cwRing_commandWord (op : Op) (f : Bool) (d : DevId) (s : SubId) (r : RingId) (n : BitVec 12) :
    cwRing (commandWord op f d s r n) = r := commandWord_ring op f d s r n

@[simp] theorem cwFlag_commandWord (op : Op) (f : Bool) (d : DevId) (s : SubId) (r : RingId) (n : BitVec 12) :
    cwFlag (commandWord op f d s r n) = f := by
  have h := congrArg (fun x : BitVec 1 => x.getLsbD 0) (commandWord_flag op f d s r n)
  simpa [cwFlag, BitVec.getLsbD_extractLsb'] using h

/-! ## 64-bit quantities and data words -/

/-- The two words of a 64-bit quantity join to it (R65). -/
@[simp] theorem join64_lowWord_highWord (v : DWord) : join64 (lowWord v) (highWord v) = v := by
  unfold join64 lowWord highWord
  apply BitVec.eq_of_toNat_eq
  have := v.isLt
  rw [BitVec.toNat_append, ← Nat.shiftLeft_add_eq_or_of_lt (BitVec.isLt _)]
  simp only [BitVec.extractLsb'_toNat, Nat.shiftRight_eq_div_pow, Nat.shiftLeft_eq]
  omega

/-- The words of a data list join to it (R92). -/
@[simp] theorem joinPairs_splitPairs (data : List DWord) : joinPairs (splitPairs data) = data := by
  induction data with
  | nil => rfl
  | cons v rest ih => simp [splitPairs, joinPairs, ih]

/-- Two extension words for each data word (R93). -/
@[simp] theorem splitPairs_length (data : List DWord) : (splitPairs data).length = 2 * data.length := by
  induction data with
  | nil => rfl
  | cons v rest ih => simp [splitPairs, ih]; omega

/-- The direction of a direction's code is the direction (R241). -/
@[simp] theorem LogDir.ofCode_code (dir : LogDir) : LogDir.ofCode dir.code = dir := by
  cases dir <;> decide

end Sys2Proof
end

