-- ==== Sys2Proof/Laws/Store.lean ====
section
/-! SUPPORT. The laws of the sparse arrays: a read after a write, other keys untouched, the canonical form kept by every
operation. -/

namespace Sys2Proof.Machine

section
variable {α : Type}

@[simp] theorem Store.get_nil (dflt : α) (k : Nat) : Store.get dflt [] k = dflt := rfl

theorem Store.get_of_not_mem (dflt : α) (m : Store α) (k : Nat) (h : ∀ c ∈ m, c.1 ≠ k) : Store.get dflt m k = dflt := by
  induction m with
  | nil => rfl
  | cons c m ih =>
    have hc := h c (by simp)
    simp only [Store.get]
    rw [if_neg (fun hk => hc hk.symm)]
    exact ih (fun c hc => h c (by simp [hc]))

theorem Store.get_filter_ne (dflt : α) (m : Store α) (k j : Nat) (hj : j ≠ k) :
    Store.get dflt (m.filter (fun c => !decide (c.1 = k))) j = Store.get dflt m j := by
  induction m with
  | nil => rfl
  | cons c m ih =>
    by_cases hc : c.1 = k
    · have : j ≠ c.1 := fun h => hj (h.trans hc)
      simp [hc, Store.get, ih, hj]
    · simp [hc, Store.get, ih]

theorem Store.get_insert_same (dflt : α) (m : Store α) (k : Nat) (v : α) (h : ∀ c ∈ m, c.1 ≠ k) :
    Store.get dflt (Store.insert k v m) k = v := by
  induction m with
  | nil => simp [Store.insert, Store.get]
  | cons c m ih =>
    have hc := h c (by simp)
    by_cases hlt : k < c.1
    · simp [Store.insert, hlt, Store.get]
    · simp only [Store.insert, if_neg hlt, Store.get]
      rw [if_neg (fun hk => hc hk.symm)]
      exact ih (fun c hc => h c (by simp [hc]))

theorem Store.get_insert_other (dflt : α) (m : Store α) (k j : Nat) (v : α) (hj : j ≠ k) :
    Store.get dflt (Store.insert k v m) j = Store.get dflt m j := by
  induction m with
  | nil => simp [Store.insert, Store.get, hj]
  | cons c m ih =>
    by_cases hlt : k < c.1
    · simp [Store.insert, hlt, Store.get, hj]
    · simp [Store.insert, hlt, Store.get, ih]

theorem Store.not_mem_filter (m : Store α) (k : Nat) : ∀ c ∈ m.filter (fun c => !decide (c.1 = k)), c.1 ≠ k := by
  intro c hc
  simpa using (List.mem_filter.mp hc).2

variable [DecidableEq α]

/-- A read after a write of the same key gives the value written. -/
@[simp] theorem Store.get_put_same (dflt : α) (m : Store α) (k : Nat) (v : α) :
    Store.get dflt (Store.put dflt m k v) k = v := by
  unfold Store.put
  by_cases hv : v = dflt
  · simp only [hv, if_true]
    exact Store.get_of_not_mem dflt _ k (Store.not_mem_filter m k)
  · simp only [if_neg hv]
    exact Store.get_insert_same dflt _ k v (Store.not_mem_filter m k)

/-- A write leaves every other key alone. -/
@[simp] theorem Store.get_put_other (dflt : α) (m : Store α) (k j : Nat) (v : α) (hj : j ≠ k) :
    Store.get dflt (Store.put dflt m k v) j = Store.get dflt m j := by
  unfold Store.put
  by_cases hv : v = dflt
  · simp only [hv, if_true]
    exact Store.get_filter_ne dflt m k j hj
  · simp only [if_neg hv]
    rw [Store.get_insert_other dflt _ k j v hj]
    exact Store.get_filter_ne dflt m k j hj

/-- Both cases of a read after a write. -/
theorem Store.get_put (dflt : α) (m : Store α) (k j : Nat) (v : α) :
    Store.get dflt (Store.put dflt m k v) j = if j = k then v else Store.get dflt m j := by
  by_cases h : j = k
  · subst h; simp
  · simp [h]

theorem Store.mem_insert (m : Store α) (k : Nat) (v : α) (c : Nat × α) :
    c ∈ Store.insert k v m ↔ c = (k, v) ∨ c ∈ m := by
  induction m with
  | nil => simp [Store.insert]
  | cons c' m ih =>
    by_cases hlt : k < c'.1
    · simp [Store.insert, hlt]
    · simp only [Store.insert, if_neg hlt, List.mem_cons, ih]
      tauto

omit [DecidableEq α] in
theorem Store.canonical_filter (dflt : α) (m : Store α) (p : Nat × α → Bool) (h : Store.Canonical dflt m) :
    Store.Canonical dflt (m.filter p) := by
  refine ⟨?_, fun c hc => h.2 c (List.mem_filter.mp hc).1⟩
  exact List.Pairwise.sublist (List.Sublist.map Prod.fst List.filter_sublist) h.1

theorem Store.canonical_insert (dflt : α) (m : Store α) (k : Nat) (v : α) (hv : v ≠ dflt)
    (hk : ∀ c ∈ m, c.1 ≠ k) (h : Store.Canonical dflt m) : Store.Canonical dflt (Store.insert k v m) := by
  refine ⟨?_, fun c hc => ?_⟩
  · induction m with
    | nil => simp [Store.insert]
    | cons c' m ih =>
      have hpw := h.1
      simp only [List.map_cons, List.pairwise_cons] at hpw
      have htail : Store.Canonical dflt m := ⟨hpw.2, fun c hc => h.2 c (by simp [hc])⟩
      by_cases hlt : k < c'.1
      · simp only [Store.insert, if_pos hlt, List.map_cons, List.pairwise_cons]
        refine ⟨fun j hj => ?_, hpw⟩
        rcases List.mem_cons.mp hj with rfl | hj
        · exact hlt
        · exact lt_trans hlt (hpw.1 j hj)
      · have hc' := hk c' (by simp)
        simp only [Store.insert, if_neg hlt, List.map_cons, List.pairwise_cons]
        refine ⟨fun j hj => ?_, ih (fun c hc => hk c (by simp [hc])) htail⟩
        obtain ⟨x, hx, rfl⟩ := List.mem_map.mp hj
        rcases (Store.mem_insert m k v x).mp hx with rfl | hx
        · exact lt_of_le_of_ne (not_lt.mp hlt) hc'
        · exact hpw.1 _ (List.mem_map_of_mem hx)
  · rcases (Store.mem_insert m k v c).mp hc with rfl | hc
    · exact hv
    · exact h.2 c hc

/-- A write keeps the canonical form. -/
theorem Store.canonical_put (dflt : α) (m : Store α) (k : Nat) (v : α) (h : Store.Canonical dflt m) :
    Store.Canonical dflt (Store.put dflt m k v) := by
  unfold Store.put
  have hf := Store.canonical_filter dflt m (fun c => !decide (c.1 = k)) h
  by_cases hv : v = dflt
  · simpa only [hv, if_true] using hf
  · simp only [if_neg hv]
    exact Store.canonical_insert dflt _ k v hv (Store.not_mem_filter m k) hf

omit [DecidableEq α] in
/-- Clearing a device keeps the canonical form. -/
theorem Store.canonical_clearDev (dflt : α) (d : DevId) (m : Store α) (h : Store.Canonical dflt m) :
    Store.Canonical dflt (Store.clearDev d m) := Store.canonical_filter dflt m _ h

omit [DecidableEq α] in
/-- Clearing a device sets its keys to the default and leaves the others alone. -/
theorem Store.get_clearDev (dflt : α) (d : DevId) (m : Store α) (k : Nat) :
    Store.get dflt (Store.clearDev d m) k = if k % 16 = d.toNat then dflt else Store.get dflt m k := by
  unfold Store.clearDev
  induction m with
  | nil => simp [Store.get]
  | cons c m ih =>
    by_cases hk : k = c.1
    · subst hk
      by_cases hc : c.1 % 16 = d.toNat
      · rw [if_pos hc] at ih ⊢
        simp only [List.filter_cons, hc, decide_true, Bool.not_true, Bool.false_eq_true, if_false]
        exact ih
      · simp [hc, Store.get]
    · by_cases hc : c.1 % 16 = d.toNat
      · simp [hc, ih, Store.get, hk]
      · simp [hc, Store.get, hk, ih]

end

/-! ## Register files -/

theorem Memory.read_write_same (m : Memory) (k : Nat) (v : Word) : (m.write k v).read k = v :=
  Store.get_put_same _ _ _ _

theorem Memory.read_write_other (m : Memory) (k j : Nat) (v : Word) (h : j ≠ k) : (m.write k v).read j = m.read j :=
  Store.get_put_other _ _ _ _ _ h

theorem Memory.wf_write (m : Memory) (k : Nat) (v : Word) (h : m.wf) : (m.write k v).wf :=
  Store.canonical_put _ _ _ _ h

theorem Memory.wf_clearDev (m : Memory) (d : DevId) (h : m.wf) : Memory.wf (Store.clearDev d m) :=
  Store.canonical_clearDev _ _ _ h

theorem Memory.wf_reset : Memory.wf [] := by decide

end Sys2Proof.Machine
end

