-- ==== Sys2Proof/Laws/State.lean ====
section
/-! SUPPORT. The small lemmas of the state: one per field per update, one per indexed read per update, and the reads of
what an update wrote. -/

namespace Sys2Proof.Machine

/-! ## Indices -/

theorem dsKey_inj (d d' : DevId) (s s' : SubId) (x x' : Nat) : dsKey d s x = dsKey d' s' x' ↔ d = d' ∧ s = s' ∧ x = x' := by
  have hd := d.isLt
  have hd' := d'.isLt
  have hs := s.isLt
  have hs' := s'.isLt
  unfold dsKey
  constructor
  · intro h
    refine ⟨BitVec.eq_of_toNat_eq ?_, BitVec.eq_of_toNat_eq ?_, ?_⟩ <;> omega
  · rintro ⟨rfl, rfl, rfl⟩
    rfl

theorem dKey_inj (d d' : DevId) (x x' : Nat) : dKey d x = dKey d' x' ↔ d = d' ∧ x = x' := by
  have hd := d.isLt
  have hd' := d'.isLt
  unfold dKey
  constructor
  · intro h
    refine ⟨BitVec.eq_of_toNat_eq ?_, ?_⟩ <;> omega
  · rintro ⟨rfl, rfl⟩
    rfl

theorem cntKey_inj (d d' : DevId) (L L' : LeafId) (b b' : Nat) (hb : b < nBit) (hb' : b' < nBit) :
    cntKey d L b = cntKey d' L' b' ↔ d = d' ∧ L = L' ∧ b = b' := by
  unfold cntKey
  rw [dKey_inj]
  have : b < 32 := hb
  have : b' < 32 := hb'
  constructor
  · rintro ⟨h, h'⟩
    have h'' : b + 32 * L = b' + 32 * L' := h'
    exact ⟨h, show @Eq Nat L L' by omega, by omega⟩
  · rintro ⟨rfl, rfl, rfl⟩
    exact ⟨rfl, rfl⟩

theorem ringKey_inj (d d' : DevId) (s s' : SubId) (r r' : RingId) :
    dsKey d s r.toNat = dsKey d' s' r'.toNat ↔ d = d' ∧ s = s' ∧ r = r' := by
  rw [dsKey_inj]
  constructor
  · rintro ⟨h, h', h''⟩
    exact ⟨h, h', BitVec.eq_of_toNat_eq h''⟩
  · rintro ⟨rfl, rfl, rfl⟩
    exact ⟨rfl, rfl, rfl⟩

theorem dsKey_mod (d : DevId) (s : SubId) (x : Nat) : dsKey d s x % 16 = d.toNat := by
  have := d.isLt
  unfold dsKey
  omega

theorem dKey_mod (d : DevId) (x : Nat) : dKey d x % 16 = d.toNat := by
  have := d.isLt
  unfold dKey
  omega

/-! ## One lemma per field per update -/

@[simp] theorem State.setStatus_cfg (st : State) (d : DevId) (s : SubId) (L : LeafId) (v : Word) : (st.setStatus d s L v).cfg = st.cfg := rfl
@[simp] theorem State.setStatus_enHi (st : State) (d : DevId) (s : SubId) (L : LeafId) (v : Word) : (st.setStatus d s L v).enHi = st.enHi := rfl
@[simp] theorem State.setStatus_enLo (st : State) (d : DevId) (s : SubId) (L : LeafId) (v : Word) : (st.setStatus d s L v).enLo = st.enLo := rfl
@[simp] theorem State.setStatus_shadowMsk (st : State) (d : DevId) (s : SubId) (L : LeafId) (v : Word) : (st.setStatus d s L v).shadowMsk = st.shadowMsk := rfl
@[simp] theorem State.setStatus_headPtr (st : State) (d : DevId) (s : SubId) (L : LeafId) (v : Word) : (st.setStatus d s L v).headPtr = st.headPtr := rfl
@[simp] theorem State.setStatus_tailPtr (st : State) (d : DevId) (s : SubId) (L : LeafId) (v : Word) : (st.setStatus d s L v).tailPtr = st.tailPtr := rfl
@[simp] theorem State.setStatus_cb (st : State) (d : DevId) (s : SubId) (L : LeafId) (v : Word) : (st.setStatus d s L v).cb = st.cb := rfl
@[simp] theorem State.setStatus_count (st : State) (d : DevId) (s : SubId) (L : LeafId) (v : Word) : (st.setStatus d s L v).count = st.count := rfl
@[simp] theorem State.setStatus_countShown (st : State) (d : DevId) (s : SubId) (L : LeafId) (v : Word) : (st.setStatus d s L v).countShown = st.countShown := rfl
@[simp] theorem State.setStatus_view (st : State) (d : DevId) (s : SubId) (L : LeafId) (v : Word) : (st.setStatus d s L v).view = st.view := rfl
@[simp] theorem State.setStatus_logEntries (st : State) (d : DevId) (s : SubId) (L : LeafId) (v : Word) : (st.setStatus d s L v).logEntries = st.logEntries := rfl
@[simp] theorem State.setStatus_logNext (st : State) (d : DevId) (s : SubId) (L : LeafId) (v : Word) : (st.setStatus d s L v).logNext = st.logNext := rfl
@[simp] theorem State.setStatus_logLock (st : State) (d : DevId) (s : SubId) (L : LeafId) (v : Word) : (st.setStatus d s L v).logLock = st.logLock := rfl
@[simp] theorem State.setStatus_seq (st : State) (d : DevId) (s : SubId) (L : LeafId) (v : Word) : (st.setStatus d s L v).seq = st.seq := rfl
@[simp] theorem State.setStatus_devReady (st : State) (d : DevId) (s : SubId) (L : LeafId) (v : Word) : (st.setStatus d s L v).devReady = st.devReady := rfl
@[simp] theorem State.setStatus_port (st : State) (d : DevId) (s : SubId) (L : LeafId) (v : Word) : (st.setStatus d s L v).port = st.port := rfl
@[simp] theorem State.setStatus_resp (st : State) (d : DevId) (s : SubId) (L : LeafId) (v : Word) : (st.setStatus d s L v).resp = st.resp := rfl
@[simp] theorem State.setStatus_trace (st : State) (d : DevId) (s : SubId) (L : LeafId) (v : Word) : (st.setStatus d s L v).trace = st.trace := rfl
@[simp] theorem State.setStatus_sched (st : State) (d : DevId) (s : SubId) (L : LeafId) (v : Word) : (st.setStatus d s L v).sched = st.sched := rfl
@[simp] theorem State.setStatus_threads (st : State) (d : DevId) (s : SubId) (L : LeafId) (v : Word) : (st.setStatus d s L v).threads = st.threads := rfl
@[simp] theorem State.setStatus_polling (st : State) (d : DevId) (s : SubId) (L : LeafId) (v : Word) : (st.setStatus d s L v).polling = st.polling := rfl
@[simp] theorem State.setStatus_updating (st : State) (d : DevId) (s : SubId) (L : LeafId) (v : Word) : (st.setStatus d s L v).updating = st.updating := rfl
@[simp] theorem State.setStatus_clockIn (st : State) (d : DevId) (s : SubId) (L : LeafId) (v : Word) : (st.setStatus d s L v).clockIn = st.clockIn := rfl
@[simp] theorem State.setStatus_allocIn (st : State) (d : DevId) (s : SubId) (L : LeafId) (v : Word) : (st.setStatus d s L v).allocIn = st.allocIn := rfl
@[simp] theorem State.setStatus_draws (st : State) (d : DevId) (s : SubId) (L : LeafId) (v : Word) : (st.setStatus d s L v).draws = st.draws := rfl
@[simp] theorem State.setEnHi_cfg (st : State) (d : DevId) (s : SubId) (L : LeafId) (v : Word) : (st.setEnHi d s L v).cfg = st.cfg := rfl
@[simp] theorem State.setEnHi_status (st : State) (d : DevId) (s : SubId) (L : LeafId) (v : Word) : (st.setEnHi d s L v).status = st.status := rfl
@[simp] theorem State.setEnHi_enLo (st : State) (d : DevId) (s : SubId) (L : LeafId) (v : Word) : (st.setEnHi d s L v).enLo = st.enLo := rfl
@[simp] theorem State.setEnHi_shadowMsk (st : State) (d : DevId) (s : SubId) (L : LeafId) (v : Word) : (st.setEnHi d s L v).shadowMsk = st.shadowMsk := rfl
@[simp] theorem State.setEnHi_headPtr (st : State) (d : DevId) (s : SubId) (L : LeafId) (v : Word) : (st.setEnHi d s L v).headPtr = st.headPtr := rfl
@[simp] theorem State.setEnHi_tailPtr (st : State) (d : DevId) (s : SubId) (L : LeafId) (v : Word) : (st.setEnHi d s L v).tailPtr = st.tailPtr := rfl
@[simp] theorem State.setEnHi_cb (st : State) (d : DevId) (s : SubId) (L : LeafId) (v : Word) : (st.setEnHi d s L v).cb = st.cb := rfl
@[simp] theorem State.setEnHi_count (st : State) (d : DevId) (s : SubId) (L : LeafId) (v : Word) : (st.setEnHi d s L v).count = st.count := rfl
@[simp] theorem State.setEnHi_countShown (st : State) (d : DevId) (s : SubId) (L : LeafId) (v : Word) : (st.setEnHi d s L v).countShown = st.countShown := rfl
@[simp] theorem State.setEnHi_view (st : State) (d : DevId) (s : SubId) (L : LeafId) (v : Word) : (st.setEnHi d s L v).view = st.view := rfl
@[simp] theorem State.setEnHi_logEntries (st : State) (d : DevId) (s : SubId) (L : LeafId) (v : Word) : (st.setEnHi d s L v).logEntries = st.logEntries := rfl
@[simp] theorem State.setEnHi_logNext (st : State) (d : DevId) (s : SubId) (L : LeafId) (v : Word) : (st.setEnHi d s L v).logNext = st.logNext := rfl
@[simp] theorem State.setEnHi_logLock (st : State) (d : DevId) (s : SubId) (L : LeafId) (v : Word) : (st.setEnHi d s L v).logLock = st.logLock := rfl
@[simp] theorem State.setEnHi_seq (st : State) (d : DevId) (s : SubId) (L : LeafId) (v : Word) : (st.setEnHi d s L v).seq = st.seq := rfl
@[simp] theorem State.setEnHi_devReady (st : State) (d : DevId) (s : SubId) (L : LeafId) (v : Word) : (st.setEnHi d s L v).devReady = st.devReady := rfl
@[simp] theorem State.setEnHi_port (st : State) (d : DevId) (s : SubId) (L : LeafId) (v : Word) : (st.setEnHi d s L v).port = st.port := rfl
@[simp] theorem State.setEnHi_resp (st : State) (d : DevId) (s : SubId) (L : LeafId) (v : Word) : (st.setEnHi d s L v).resp = st.resp := rfl
@[simp] theorem State.setEnHi_trace (st : State) (d : DevId) (s : SubId) (L : LeafId) (v : Word) : (st.setEnHi d s L v).trace = st.trace := rfl
@[simp] theorem State.setEnHi_sched (st : State) (d : DevId) (s : SubId) (L : LeafId) (v : Word) : (st.setEnHi d s L v).sched = st.sched := rfl
@[simp] theorem State.setEnHi_threads (st : State) (d : DevId) (s : SubId) (L : LeafId) (v : Word) : (st.setEnHi d s L v).threads = st.threads := rfl
@[simp] theorem State.setEnHi_polling (st : State) (d : DevId) (s : SubId) (L : LeafId) (v : Word) : (st.setEnHi d s L v).polling = st.polling := rfl
@[simp] theorem State.setEnHi_updating (st : State) (d : DevId) (s : SubId) (L : LeafId) (v : Word) : (st.setEnHi d s L v).updating = st.updating := rfl
@[simp] theorem State.setEnHi_clockIn (st : State) (d : DevId) (s : SubId) (L : LeafId) (v : Word) : (st.setEnHi d s L v).clockIn = st.clockIn := rfl
@[simp] theorem State.setEnHi_allocIn (st : State) (d : DevId) (s : SubId) (L : LeafId) (v : Word) : (st.setEnHi d s L v).allocIn = st.allocIn := rfl
@[simp] theorem State.setEnHi_draws (st : State) (d : DevId) (s : SubId) (L : LeafId) (v : Word) : (st.setEnHi d s L v).draws = st.draws := rfl
@[simp] theorem State.setEnLo_cfg (st : State) (d : DevId) (s : SubId) (L : LeafId) (v : Word) : (st.setEnLo d s L v).cfg = st.cfg := rfl
@[simp] theorem State.setEnLo_status (st : State) (d : DevId) (s : SubId) (L : LeafId) (v : Word) : (st.setEnLo d s L v).status = st.status := rfl
@[simp] theorem State.setEnLo_enHi (st : State) (d : DevId) (s : SubId) (L : LeafId) (v : Word) : (st.setEnLo d s L v).enHi = st.enHi := rfl
@[simp] theorem State.setEnLo_shadowMsk (st : State) (d : DevId) (s : SubId) (L : LeafId) (v : Word) : (st.setEnLo d s L v).shadowMsk = st.shadowMsk := rfl
@[simp] theorem State.setEnLo_headPtr (st : State) (d : DevId) (s : SubId) (L : LeafId) (v : Word) : (st.setEnLo d s L v).headPtr = st.headPtr := rfl
@[simp] theorem State.setEnLo_tailPtr (st : State) (d : DevId) (s : SubId) (L : LeafId) (v : Word) : (st.setEnLo d s L v).tailPtr = st.tailPtr := rfl
@[simp] theorem State.setEnLo_cb (st : State) (d : DevId) (s : SubId) (L : LeafId) (v : Word) : (st.setEnLo d s L v).cb = st.cb := rfl
@[simp] theorem State.setEnLo_count (st : State) (d : DevId) (s : SubId) (L : LeafId) (v : Word) : (st.setEnLo d s L v).count = st.count := rfl
@[simp] theorem State.setEnLo_countShown (st : State) (d : DevId) (s : SubId) (L : LeafId) (v : Word) : (st.setEnLo d s L v).countShown = st.countShown := rfl
@[simp] theorem State.setEnLo_view (st : State) (d : DevId) (s : SubId) (L : LeafId) (v : Word) : (st.setEnLo d s L v).view = st.view := rfl
@[simp] theorem State.setEnLo_logEntries (st : State) (d : DevId) (s : SubId) (L : LeafId) (v : Word) : (st.setEnLo d s L v).logEntries = st.logEntries := rfl
@[simp] theorem State.setEnLo_logNext (st : State) (d : DevId) (s : SubId) (L : LeafId) (v : Word) : (st.setEnLo d s L v).logNext = st.logNext := rfl
@[simp] theorem State.setEnLo_logLock (st : State) (d : DevId) (s : SubId) (L : LeafId) (v : Word) : (st.setEnLo d s L v).logLock = st.logLock := rfl
@[simp] theorem State.setEnLo_seq (st : State) (d : DevId) (s : SubId) (L : LeafId) (v : Word) : (st.setEnLo d s L v).seq = st.seq := rfl
@[simp] theorem State.setEnLo_devReady (st : State) (d : DevId) (s : SubId) (L : LeafId) (v : Word) : (st.setEnLo d s L v).devReady = st.devReady := rfl
@[simp] theorem State.setEnLo_port (st : State) (d : DevId) (s : SubId) (L : LeafId) (v : Word) : (st.setEnLo d s L v).port = st.port := rfl
@[simp] theorem State.setEnLo_resp (st : State) (d : DevId) (s : SubId) (L : LeafId) (v : Word) : (st.setEnLo d s L v).resp = st.resp := rfl
@[simp] theorem State.setEnLo_trace (st : State) (d : DevId) (s : SubId) (L : LeafId) (v : Word) : (st.setEnLo d s L v).trace = st.trace := rfl
@[simp] theorem State.setEnLo_sched (st : State) (d : DevId) (s : SubId) (L : LeafId) (v : Word) : (st.setEnLo d s L v).sched = st.sched := rfl
@[simp] theorem State.setEnLo_threads (st : State) (d : DevId) (s : SubId) (L : LeafId) (v : Word) : (st.setEnLo d s L v).threads = st.threads := rfl
@[simp] theorem State.setEnLo_polling (st : State) (d : DevId) (s : SubId) (L : LeafId) (v : Word) : (st.setEnLo d s L v).polling = st.polling := rfl
@[simp] theorem State.setEnLo_updating (st : State) (d : DevId) (s : SubId) (L : LeafId) (v : Word) : (st.setEnLo d s L v).updating = st.updating := rfl
@[simp] theorem State.setEnLo_clockIn (st : State) (d : DevId) (s : SubId) (L : LeafId) (v : Word) : (st.setEnLo d s L v).clockIn = st.clockIn := rfl
@[simp] theorem State.setEnLo_allocIn (st : State) (d : DevId) (s : SubId) (L : LeafId) (v : Word) : (st.setEnLo d s L v).allocIn = st.allocIn := rfl
@[simp] theorem State.setEnLo_draws (st : State) (d : DevId) (s : SubId) (L : LeafId) (v : Word) : (st.setEnLo d s L v).draws = st.draws := rfl
@[simp] theorem State.setShadowMsk_cfg (st : State) (d : DevId) (s : SubId) (i : Nat) (v : Word) : (st.setShadowMsk d s i v).cfg = st.cfg := rfl
@[simp] theorem State.setShadowMsk_status (st : State) (d : DevId) (s : SubId) (i : Nat) (v : Word) : (st.setShadowMsk d s i v).status = st.status := rfl
@[simp] theorem State.setShadowMsk_enHi (st : State) (d : DevId) (s : SubId) (i : Nat) (v : Word) : (st.setShadowMsk d s i v).enHi = st.enHi := rfl
@[simp] theorem State.setShadowMsk_enLo (st : State) (d : DevId) (s : SubId) (i : Nat) (v : Word) : (st.setShadowMsk d s i v).enLo = st.enLo := rfl
@[simp] theorem State.setShadowMsk_headPtr (st : State) (d : DevId) (s : SubId) (i : Nat) (v : Word) : (st.setShadowMsk d s i v).headPtr = st.headPtr := rfl
@[simp] theorem State.setShadowMsk_tailPtr (st : State) (d : DevId) (s : SubId) (i : Nat) (v : Word) : (st.setShadowMsk d s i v).tailPtr = st.tailPtr := rfl
@[simp] theorem State.setShadowMsk_cb (st : State) (d : DevId) (s : SubId) (i : Nat) (v : Word) : (st.setShadowMsk d s i v).cb = st.cb := rfl
@[simp] theorem State.setShadowMsk_count (st : State) (d : DevId) (s : SubId) (i : Nat) (v : Word) : (st.setShadowMsk d s i v).count = st.count := rfl
@[simp] theorem State.setShadowMsk_countShown (st : State) (d : DevId) (s : SubId) (i : Nat) (v : Word) : (st.setShadowMsk d s i v).countShown = st.countShown := rfl
@[simp] theorem State.setShadowMsk_view (st : State) (d : DevId) (s : SubId) (i : Nat) (v : Word) : (st.setShadowMsk d s i v).view = st.view := rfl
@[simp] theorem State.setShadowMsk_logEntries (st : State) (d : DevId) (s : SubId) (i : Nat) (v : Word) : (st.setShadowMsk d s i v).logEntries = st.logEntries := rfl
@[simp] theorem State.setShadowMsk_logNext (st : State) (d : DevId) (s : SubId) (i : Nat) (v : Word) : (st.setShadowMsk d s i v).logNext = st.logNext := rfl
@[simp] theorem State.setShadowMsk_logLock (st : State) (d : DevId) (s : SubId) (i : Nat) (v : Word) : (st.setShadowMsk d s i v).logLock = st.logLock := rfl
@[simp] theorem State.setShadowMsk_seq (st : State) (d : DevId) (s : SubId) (i : Nat) (v : Word) : (st.setShadowMsk d s i v).seq = st.seq := rfl
@[simp] theorem State.setShadowMsk_devReady (st : State) (d : DevId) (s : SubId) (i : Nat) (v : Word) : (st.setShadowMsk d s i v).devReady = st.devReady := rfl
@[simp] theorem State.setShadowMsk_port (st : State) (d : DevId) (s : SubId) (i : Nat) (v : Word) : (st.setShadowMsk d s i v).port = st.port := rfl
@[simp] theorem State.setShadowMsk_resp (st : State) (d : DevId) (s : SubId) (i : Nat) (v : Word) : (st.setShadowMsk d s i v).resp = st.resp := rfl
@[simp] theorem State.setShadowMsk_trace (st : State) (d : DevId) (s : SubId) (i : Nat) (v : Word) : (st.setShadowMsk d s i v).trace = st.trace := rfl
@[simp] theorem State.setShadowMsk_sched (st : State) (d : DevId) (s : SubId) (i : Nat) (v : Word) : (st.setShadowMsk d s i v).sched = st.sched := rfl
@[simp] theorem State.setShadowMsk_threads (st : State) (d : DevId) (s : SubId) (i : Nat) (v : Word) : (st.setShadowMsk d s i v).threads = st.threads := rfl
@[simp] theorem State.setShadowMsk_polling (st : State) (d : DevId) (s : SubId) (i : Nat) (v : Word) : (st.setShadowMsk d s i v).polling = st.polling := rfl
@[simp] theorem State.setShadowMsk_updating (st : State) (d : DevId) (s : SubId) (i : Nat) (v : Word) : (st.setShadowMsk d s i v).updating = st.updating := rfl
@[simp] theorem State.setShadowMsk_clockIn (st : State) (d : DevId) (s : SubId) (i : Nat) (v : Word) : (st.setShadowMsk d s i v).clockIn = st.clockIn := rfl
@[simp] theorem State.setShadowMsk_allocIn (st : State) (d : DevId) (s : SubId) (i : Nat) (v : Word) : (st.setShadowMsk d s i v).allocIn = st.allocIn := rfl
@[simp] theorem State.setShadowMsk_draws (st : State) (d : DevId) (s : SubId) (i : Nat) (v : Word) : (st.setShadowMsk d s i v).draws = st.draws := rfl
@[simp] theorem State.setHeadPtr_cfg (st : State) (d : DevId) (s : SubId) (r : Nat) (v : Word) : (st.setHeadPtr d s r v).cfg = st.cfg := rfl
@[simp] theorem State.setHeadPtr_status (st : State) (d : DevId) (s : SubId) (r : Nat) (v : Word) : (st.setHeadPtr d s r v).status = st.status := rfl
@[simp] theorem State.setHeadPtr_enHi (st : State) (d : DevId) (s : SubId) (r : Nat) (v : Word) : (st.setHeadPtr d s r v).enHi = st.enHi := rfl
@[simp] theorem State.setHeadPtr_enLo (st : State) (d : DevId) (s : SubId) (r : Nat) (v : Word) : (st.setHeadPtr d s r v).enLo = st.enLo := rfl
@[simp] theorem State.setHeadPtr_shadowMsk (st : State) (d : DevId) (s : SubId) (r : Nat) (v : Word) : (st.setHeadPtr d s r v).shadowMsk = st.shadowMsk := rfl
@[simp] theorem State.setHeadPtr_tailPtr (st : State) (d : DevId) (s : SubId) (r : Nat) (v : Word) : (st.setHeadPtr d s r v).tailPtr = st.tailPtr := rfl
@[simp] theorem State.setHeadPtr_cb (st : State) (d : DevId) (s : SubId) (r : Nat) (v : Word) : (st.setHeadPtr d s r v).cb = st.cb := rfl
@[simp] theorem State.setHeadPtr_count (st : State) (d : DevId) (s : SubId) (r : Nat) (v : Word) : (st.setHeadPtr d s r v).count = st.count := rfl
@[simp] theorem State.setHeadPtr_countShown (st : State) (d : DevId) (s : SubId) (r : Nat) (v : Word) : (st.setHeadPtr d s r v).countShown = st.countShown := rfl
@[simp] theorem State.setHeadPtr_view (st : State) (d : DevId) (s : SubId) (r : Nat) (v : Word) : (st.setHeadPtr d s r v).view = st.view := rfl
@[simp] theorem State.setHeadPtr_logEntries (st : State) (d : DevId) (s : SubId) (r : Nat) (v : Word) : (st.setHeadPtr d s r v).logEntries = st.logEntries := rfl
@[simp] theorem State.setHeadPtr_logNext (st : State) (d : DevId) (s : SubId) (r : Nat) (v : Word) : (st.setHeadPtr d s r v).logNext = st.logNext := rfl
@[simp] theorem State.setHeadPtr_logLock (st : State) (d : DevId) (s : SubId) (r : Nat) (v : Word) : (st.setHeadPtr d s r v).logLock = st.logLock := rfl
@[simp] theorem State.setHeadPtr_seq (st : State) (d : DevId) (s : SubId) (r : Nat) (v : Word) : (st.setHeadPtr d s r v).seq = st.seq := rfl
@[simp] theorem State.setHeadPtr_devReady (st : State) (d : DevId) (s : SubId) (r : Nat) (v : Word) : (st.setHeadPtr d s r v).devReady = st.devReady := rfl
@[simp] theorem State.setHeadPtr_port (st : State) (d : DevId) (s : SubId) (r : Nat) (v : Word) : (st.setHeadPtr d s r v).port = st.port := rfl
@[simp] theorem State.setHeadPtr_resp (st : State) (d : DevId) (s : SubId) (r : Nat) (v : Word) : (st.setHeadPtr d s r v).resp = st.resp := rfl
@[simp] theorem State.setHeadPtr_trace (st : State) (d : DevId) (s : SubId) (r : Nat) (v : Word) : (st.setHeadPtr d s r v).trace = st.trace := rfl
@[simp] theorem State.setHeadPtr_sched (st : State) (d : DevId) (s : SubId) (r : Nat) (v : Word) : (st.setHeadPtr d s r v).sched = st.sched := rfl
@[simp] theorem State.setHeadPtr_threads (st : State) (d : DevId) (s : SubId) (r : Nat) (v : Word) : (st.setHeadPtr d s r v).threads = st.threads := rfl
@[simp] theorem State.setHeadPtr_polling (st : State) (d : DevId) (s : SubId) (r : Nat) (v : Word) : (st.setHeadPtr d s r v).polling = st.polling := rfl
@[simp] theorem State.setHeadPtr_updating (st : State) (d : DevId) (s : SubId) (r : Nat) (v : Word) : (st.setHeadPtr d s r v).updating = st.updating := rfl
@[simp] theorem State.setHeadPtr_clockIn (st : State) (d : DevId) (s : SubId) (r : Nat) (v : Word) : (st.setHeadPtr d s r v).clockIn = st.clockIn := rfl
@[simp] theorem State.setHeadPtr_allocIn (st : State) (d : DevId) (s : SubId) (r : Nat) (v : Word) : (st.setHeadPtr d s r v).allocIn = st.allocIn := rfl
@[simp] theorem State.setHeadPtr_draws (st : State) (d : DevId) (s : SubId) (r : Nat) (v : Word) : (st.setHeadPtr d s r v).draws = st.draws := rfl
@[simp] theorem State.setTailPtr_cfg (st : State) (d : DevId) (s : SubId) (r : Nat) (v : Word) : (st.setTailPtr d s r v).cfg = st.cfg := rfl
@[simp] theorem State.setTailPtr_status (st : State) (d : DevId) (s : SubId) (r : Nat) (v : Word) : (st.setTailPtr d s r v).status = st.status := rfl
@[simp] theorem State.setTailPtr_enHi (st : State) (d : DevId) (s : SubId) (r : Nat) (v : Word) : (st.setTailPtr d s r v).enHi = st.enHi := rfl
@[simp] theorem State.setTailPtr_enLo (st : State) (d : DevId) (s : SubId) (r : Nat) (v : Word) : (st.setTailPtr d s r v).enLo = st.enLo := rfl
@[simp] theorem State.setTailPtr_shadowMsk (st : State) (d : DevId) (s : SubId) (r : Nat) (v : Word) : (st.setTailPtr d s r v).shadowMsk = st.shadowMsk := rfl
@[simp] theorem State.setTailPtr_headPtr (st : State) (d : DevId) (s : SubId) (r : Nat) (v : Word) : (st.setTailPtr d s r v).headPtr = st.headPtr := rfl
@[simp] theorem State.setTailPtr_cb (st : State) (d : DevId) (s : SubId) (r : Nat) (v : Word) : (st.setTailPtr d s r v).cb = st.cb := rfl
@[simp] theorem State.setTailPtr_count (st : State) (d : DevId) (s : SubId) (r : Nat) (v : Word) : (st.setTailPtr d s r v).count = st.count := rfl
@[simp] theorem State.setTailPtr_countShown (st : State) (d : DevId) (s : SubId) (r : Nat) (v : Word) : (st.setTailPtr d s r v).countShown = st.countShown := rfl
@[simp] theorem State.setTailPtr_view (st : State) (d : DevId) (s : SubId) (r : Nat) (v : Word) : (st.setTailPtr d s r v).view = st.view := rfl
@[simp] theorem State.setTailPtr_logEntries (st : State) (d : DevId) (s : SubId) (r : Nat) (v : Word) : (st.setTailPtr d s r v).logEntries = st.logEntries := rfl
@[simp] theorem State.setTailPtr_logNext (st : State) (d : DevId) (s : SubId) (r : Nat) (v : Word) : (st.setTailPtr d s r v).logNext = st.logNext := rfl
@[simp] theorem State.setTailPtr_logLock (st : State) (d : DevId) (s : SubId) (r : Nat) (v : Word) : (st.setTailPtr d s r v).logLock = st.logLock := rfl
@[simp] theorem State.setTailPtr_seq (st : State) (d : DevId) (s : SubId) (r : Nat) (v : Word) : (st.setTailPtr d s r v).seq = st.seq := rfl
@[simp] theorem State.setTailPtr_devReady (st : State) (d : DevId) (s : SubId) (r : Nat) (v : Word) : (st.setTailPtr d s r v).devReady = st.devReady := rfl
@[simp] theorem State.setTailPtr_port (st : State) (d : DevId) (s : SubId) (r : Nat) (v : Word) : (st.setTailPtr d s r v).port = st.port := rfl
@[simp] theorem State.setTailPtr_resp (st : State) (d : DevId) (s : SubId) (r : Nat) (v : Word) : (st.setTailPtr d s r v).resp = st.resp := rfl
@[simp] theorem State.setTailPtr_trace (st : State) (d : DevId) (s : SubId) (r : Nat) (v : Word) : (st.setTailPtr d s r v).trace = st.trace := rfl
@[simp] theorem State.setTailPtr_sched (st : State) (d : DevId) (s : SubId) (r : Nat) (v : Word) : (st.setTailPtr d s r v).sched = st.sched := rfl
@[simp] theorem State.setTailPtr_threads (st : State) (d : DevId) (s : SubId) (r : Nat) (v : Word) : (st.setTailPtr d s r v).threads = st.threads := rfl
@[simp] theorem State.setTailPtr_polling (st : State) (d : DevId) (s : SubId) (r : Nat) (v : Word) : (st.setTailPtr d s r v).polling = st.polling := rfl
@[simp] theorem State.setTailPtr_updating (st : State) (d : DevId) (s : SubId) (r : Nat) (v : Word) : (st.setTailPtr d s r v).updating = st.updating := rfl
@[simp] theorem State.setTailPtr_clockIn (st : State) (d : DevId) (s : SubId) (r : Nat) (v : Word) : (st.setTailPtr d s r v).clockIn = st.clockIn := rfl
@[simp] theorem State.setTailPtr_allocIn (st : State) (d : DevId) (s : SubId) (r : Nat) (v : Word) : (st.setTailPtr d s r v).allocIn = st.allocIn := rfl
@[simp] theorem State.setTailPtr_draws (st : State) (d : DevId) (s : SubId) (r : Nat) (v : Word) : (st.setTailPtr d s r v).draws = st.draws := rfl
@[simp] theorem State.setCb_cfg (st : State) (d : DevId) (L : LeafId) (v : Option Callback) : (st.setCb d L v).cfg = st.cfg := rfl
@[simp] theorem State.setCb_status (st : State) (d : DevId) (L : LeafId) (v : Option Callback) : (st.setCb d L v).status = st.status := rfl
@[simp] theorem State.setCb_enHi (st : State) (d : DevId) (L : LeafId) (v : Option Callback) : (st.setCb d L v).enHi = st.enHi := rfl
@[simp] theorem State.setCb_enLo (st : State) (d : DevId) (L : LeafId) (v : Option Callback) : (st.setCb d L v).enLo = st.enLo := rfl
@[simp] theorem State.setCb_shadowMsk (st : State) (d : DevId) (L : LeafId) (v : Option Callback) : (st.setCb d L v).shadowMsk = st.shadowMsk := rfl
@[simp] theorem State.setCb_headPtr (st : State) (d : DevId) (L : LeafId) (v : Option Callback) : (st.setCb d L v).headPtr = st.headPtr := rfl
@[simp] theorem State.setCb_tailPtr (st : State) (d : DevId) (L : LeafId) (v : Option Callback) : (st.setCb d L v).tailPtr = st.tailPtr := rfl
@[simp] theorem State.setCb_count (st : State) (d : DevId) (L : LeafId) (v : Option Callback) : (st.setCb d L v).count = st.count := rfl
@[simp] theorem State.setCb_countShown (st : State) (d : DevId) (L : LeafId) (v : Option Callback) : (st.setCb d L v).countShown = st.countShown := rfl
@[simp] theorem State.setCb_view (st : State) (d : DevId) (L : LeafId) (v : Option Callback) : (st.setCb d L v).view = st.view := rfl
@[simp] theorem State.setCb_logEntries (st : State) (d : DevId) (L : LeafId) (v : Option Callback) : (st.setCb d L v).logEntries = st.logEntries := rfl
@[simp] theorem State.setCb_logNext (st : State) (d : DevId) (L : LeafId) (v : Option Callback) : (st.setCb d L v).logNext = st.logNext := rfl
@[simp] theorem State.setCb_logLock (st : State) (d : DevId) (L : LeafId) (v : Option Callback) : (st.setCb d L v).logLock = st.logLock := rfl
@[simp] theorem State.setCb_seq (st : State) (d : DevId) (L : LeafId) (v : Option Callback) : (st.setCb d L v).seq = st.seq := rfl
@[simp] theorem State.setCb_devReady (st : State) (d : DevId) (L : LeafId) (v : Option Callback) : (st.setCb d L v).devReady = st.devReady := rfl
@[simp] theorem State.setCb_port (st : State) (d : DevId) (L : LeafId) (v : Option Callback) : (st.setCb d L v).port = st.port := rfl
@[simp] theorem State.setCb_resp (st : State) (d : DevId) (L : LeafId) (v : Option Callback) : (st.setCb d L v).resp = st.resp := rfl
@[simp] theorem State.setCb_trace (st : State) (d : DevId) (L : LeafId) (v : Option Callback) : (st.setCb d L v).trace = st.trace := rfl
@[simp] theorem State.setCb_sched (st : State) (d : DevId) (L : LeafId) (v : Option Callback) : (st.setCb d L v).sched = st.sched := rfl
@[simp] theorem State.setCb_threads (st : State) (d : DevId) (L : LeafId) (v : Option Callback) : (st.setCb d L v).threads = st.threads := rfl
@[simp] theorem State.setCb_polling (st : State) (d : DevId) (L : LeafId) (v : Option Callback) : (st.setCb d L v).polling = st.polling := rfl
@[simp] theorem State.setCb_updating (st : State) (d : DevId) (L : LeafId) (v : Option Callback) : (st.setCb d L v).updating = st.updating := rfl
@[simp] theorem State.setCb_clockIn (st : State) (d : DevId) (L : LeafId) (v : Option Callback) : (st.setCb d L v).clockIn = st.clockIn := rfl
@[simp] theorem State.setCb_allocIn (st : State) (d : DevId) (L : LeafId) (v : Option Callback) : (st.setCb d L v).allocIn = st.allocIn := rfl
@[simp] theorem State.setCb_draws (st : State) (d : DevId) (L : LeafId) (v : Option Callback) : (st.setCb d L v).draws = st.draws := rfl
@[simp] theorem State.setCount_cfg (st : State) (d : DevId) (L : LeafId) (b : Nat) (v : Word) : (st.setCount d L b v).cfg = st.cfg := rfl
@[simp] theorem State.setCount_status (st : State) (d : DevId) (L : LeafId) (b : Nat) (v : Word) : (st.setCount d L b v).status = st.status := rfl
@[simp] theorem State.setCount_enHi (st : State) (d : DevId) (L : LeafId) (b : Nat) (v : Word) : (st.setCount d L b v).enHi = st.enHi := rfl
@[simp] theorem State.setCount_enLo (st : State) (d : DevId) (L : LeafId) (b : Nat) (v : Word) : (st.setCount d L b v).enLo = st.enLo := rfl
@[simp] theorem State.setCount_shadowMsk (st : State) (d : DevId) (L : LeafId) (b : Nat) (v : Word) : (st.setCount d L b v).shadowMsk = st.shadowMsk := rfl
@[simp] theorem State.setCount_headPtr (st : State) (d : DevId) (L : LeafId) (b : Nat) (v : Word) : (st.setCount d L b v).headPtr = st.headPtr := rfl
@[simp] theorem State.setCount_tailPtr (st : State) (d : DevId) (L : LeafId) (b : Nat) (v : Word) : (st.setCount d L b v).tailPtr = st.tailPtr := rfl
@[simp] theorem State.setCount_cb (st : State) (d : DevId) (L : LeafId) (b : Nat) (v : Word) : (st.setCount d L b v).cb = st.cb := rfl
@[simp] theorem State.setCount_countShown (st : State) (d : DevId) (L : LeafId) (b : Nat) (v : Word) : (st.setCount d L b v).countShown = st.countShown := rfl
@[simp] theorem State.setCount_view (st : State) (d : DevId) (L : LeafId) (b : Nat) (v : Word) : (st.setCount d L b v).view = st.view := rfl
@[simp] theorem State.setCount_logEntries (st : State) (d : DevId) (L : LeafId) (b : Nat) (v : Word) : (st.setCount d L b v).logEntries = st.logEntries := rfl
@[simp] theorem State.setCount_logNext (st : State) (d : DevId) (L : LeafId) (b : Nat) (v : Word) : (st.setCount d L b v).logNext = st.logNext := rfl
@[simp] theorem State.setCount_logLock (st : State) (d : DevId) (L : LeafId) (b : Nat) (v : Word) : (st.setCount d L b v).logLock = st.logLock := rfl
@[simp] theorem State.setCount_seq (st : State) (d : DevId) (L : LeafId) (b : Nat) (v : Word) : (st.setCount d L b v).seq = st.seq := rfl
@[simp] theorem State.setCount_devReady (st : State) (d : DevId) (L : LeafId) (b : Nat) (v : Word) : (st.setCount d L b v).devReady = st.devReady := rfl
@[simp] theorem State.setCount_port (st : State) (d : DevId) (L : LeafId) (b : Nat) (v : Word) : (st.setCount d L b v).port = st.port := rfl
@[simp] theorem State.setCount_resp (st : State) (d : DevId) (L : LeafId) (b : Nat) (v : Word) : (st.setCount d L b v).resp = st.resp := rfl
@[simp] theorem State.setCount_trace (st : State) (d : DevId) (L : LeafId) (b : Nat) (v : Word) : (st.setCount d L b v).trace = st.trace := rfl
@[simp] theorem State.setCount_sched (st : State) (d : DevId) (L : LeafId) (b : Nat) (v : Word) : (st.setCount d L b v).sched = st.sched := rfl
@[simp] theorem State.setCount_threads (st : State) (d : DevId) (L : LeafId) (b : Nat) (v : Word) : (st.setCount d L b v).threads = st.threads := rfl
@[simp] theorem State.setCount_polling (st : State) (d : DevId) (L : LeafId) (b : Nat) (v : Word) : (st.setCount d L b v).polling = st.polling := rfl
@[simp] theorem State.setCount_updating (st : State) (d : DevId) (L : LeafId) (b : Nat) (v : Word) : (st.setCount d L b v).updating = st.updating := rfl
@[simp] theorem State.setCount_clockIn (st : State) (d : DevId) (L : LeafId) (b : Nat) (v : Word) : (st.setCount d L b v).clockIn = st.clockIn := rfl
@[simp] theorem State.setCount_allocIn (st : State) (d : DevId) (L : LeafId) (b : Nat) (v : Word) : (st.setCount d L b v).allocIn = st.allocIn := rfl
@[simp] theorem State.setCount_draws (st : State) (d : DevId) (L : LeafId) (b : Nat) (v : Word) : (st.setCount d L b v).draws = st.draws := rfl
@[simp] theorem State.setCountShown_cfg (st : State) (d : DevId) (L : LeafId) (b : Nat) (v : Word) : (st.setCountShown d L b v).cfg = st.cfg := rfl
@[simp] theorem State.setCountShown_status (st : State) (d : DevId) (L : LeafId) (b : Nat) (v : Word) : (st.setCountShown d L b v).status = st.status := rfl
@[simp] theorem State.setCountShown_enHi (st : State) (d : DevId) (L : LeafId) (b : Nat) (v : Word) : (st.setCountShown d L b v).enHi = st.enHi := rfl
@[simp] theorem State.setCountShown_enLo (st : State) (d : DevId) (L : LeafId) (b : Nat) (v : Word) : (st.setCountShown d L b v).enLo = st.enLo := rfl
@[simp] theorem State.setCountShown_shadowMsk (st : State) (d : DevId) (L : LeafId) (b : Nat) (v : Word) : (st.setCountShown d L b v).shadowMsk = st.shadowMsk := rfl
@[simp] theorem State.setCountShown_headPtr (st : State) (d : DevId) (L : LeafId) (b : Nat) (v : Word) : (st.setCountShown d L b v).headPtr = st.headPtr := rfl
@[simp] theorem State.setCountShown_tailPtr (st : State) (d : DevId) (L : LeafId) (b : Nat) (v : Word) : (st.setCountShown d L b v).tailPtr = st.tailPtr := rfl
@[simp] theorem State.setCountShown_cb (st : State) (d : DevId) (L : LeafId) (b : Nat) (v : Word) : (st.setCountShown d L b v).cb = st.cb := rfl
@[simp] theorem State.setCountShown_count (st : State) (d : DevId) (L : LeafId) (b : Nat) (v : Word) : (st.setCountShown d L b v).count = st.count := rfl
@[simp] theorem State.setCountShown_view (st : State) (d : DevId) (L : LeafId) (b : Nat) (v : Word) : (st.setCountShown d L b v).view = st.view := rfl
@[simp] theorem State.setCountShown_logEntries (st : State) (d : DevId) (L : LeafId) (b : Nat) (v : Word) : (st.setCountShown d L b v).logEntries = st.logEntries := rfl
@[simp] theorem State.setCountShown_logNext (st : State) (d : DevId) (L : LeafId) (b : Nat) (v : Word) : (st.setCountShown d L b v).logNext = st.logNext := rfl
@[simp] theorem State.setCountShown_logLock (st : State) (d : DevId) (L : LeafId) (b : Nat) (v : Word) : (st.setCountShown d L b v).logLock = st.logLock := rfl
@[simp] theorem State.setCountShown_seq (st : State) (d : DevId) (L : LeafId) (b : Nat) (v : Word) : (st.setCountShown d L b v).seq = st.seq := rfl
@[simp] theorem State.setCountShown_devReady (st : State) (d : DevId) (L : LeafId) (b : Nat) (v : Word) : (st.setCountShown d L b v).devReady = st.devReady := rfl
@[simp] theorem State.setCountShown_port (st : State) (d : DevId) (L : LeafId) (b : Nat) (v : Word) : (st.setCountShown d L b v).port = st.port := rfl
@[simp] theorem State.setCountShown_resp (st : State) (d : DevId) (L : LeafId) (b : Nat) (v : Word) : (st.setCountShown d L b v).resp = st.resp := rfl
@[simp] theorem State.setCountShown_trace (st : State) (d : DevId) (L : LeafId) (b : Nat) (v : Word) : (st.setCountShown d L b v).trace = st.trace := rfl
@[simp] theorem State.setCountShown_sched (st : State) (d : DevId) (L : LeafId) (b : Nat) (v : Word) : (st.setCountShown d L b v).sched = st.sched := rfl
@[simp] theorem State.setCountShown_threads (st : State) (d : DevId) (L : LeafId) (b : Nat) (v : Word) : (st.setCountShown d L b v).threads = st.threads := rfl
@[simp] theorem State.setCountShown_polling (st : State) (d : DevId) (L : LeafId) (b : Nat) (v : Word) : (st.setCountShown d L b v).polling = st.polling := rfl
@[simp] theorem State.setCountShown_updating (st : State) (d : DevId) (L : LeafId) (b : Nat) (v : Word) : (st.setCountShown d L b v).updating = st.updating := rfl
@[simp] theorem State.setCountShown_clockIn (st : State) (d : DevId) (L : LeafId) (b : Nat) (v : Word) : (st.setCountShown d L b v).clockIn = st.clockIn := rfl
@[simp] theorem State.setCountShown_allocIn (st : State) (d : DevId) (L : LeafId) (b : Nat) (v : Word) : (st.setCountShown d L b v).allocIn = st.allocIn := rfl
@[simp] theorem State.setCountShown_draws (st : State) (d : DevId) (L : LeafId) (b : Nat) (v : Word) : (st.setCountShown d L b v).draws = st.draws := rfl
@[simp] theorem State.setView_cfg (st : State) (d : DevId) (s : SubId) (r : RingId) (v : View) : (st.setView d s r v).cfg = st.cfg := rfl
@[simp] theorem State.setView_status (st : State) (d : DevId) (s : SubId) (r : RingId) (v : View) : (st.setView d s r v).status = st.status := rfl
@[simp] theorem State.setView_enHi (st : State) (d : DevId) (s : SubId) (r : RingId) (v : View) : (st.setView d s r v).enHi = st.enHi := rfl
@[simp] theorem State.setView_enLo (st : State) (d : DevId) (s : SubId) (r : RingId) (v : View) : (st.setView d s r v).enLo = st.enLo := rfl
@[simp] theorem State.setView_shadowMsk (st : State) (d : DevId) (s : SubId) (r : RingId) (v : View) : (st.setView d s r v).shadowMsk = st.shadowMsk := rfl
@[simp] theorem State.setView_headPtr (st : State) (d : DevId) (s : SubId) (r : RingId) (v : View) : (st.setView d s r v).headPtr = st.headPtr := rfl
@[simp] theorem State.setView_tailPtr (st : State) (d : DevId) (s : SubId) (r : RingId) (v : View) : (st.setView d s r v).tailPtr = st.tailPtr := rfl
@[simp] theorem State.setView_cb (st : State) (d : DevId) (s : SubId) (r : RingId) (v : View) : (st.setView d s r v).cb = st.cb := rfl
@[simp] theorem State.setView_count (st : State) (d : DevId) (s : SubId) (r : RingId) (v : View) : (st.setView d s r v).count = st.count := rfl
@[simp] theorem State.setView_countShown (st : State) (d : DevId) (s : SubId) (r : RingId) (v : View) : (st.setView d s r v).countShown = st.countShown := rfl
@[simp] theorem State.setView_logEntries (st : State) (d : DevId) (s : SubId) (r : RingId) (v : View) : (st.setView d s r v).logEntries = st.logEntries := rfl
@[simp] theorem State.setView_logNext (st : State) (d : DevId) (s : SubId) (r : RingId) (v : View) : (st.setView d s r v).logNext = st.logNext := rfl
@[simp] theorem State.setView_logLock (st : State) (d : DevId) (s : SubId) (r : RingId) (v : View) : (st.setView d s r v).logLock = st.logLock := rfl
@[simp] theorem State.setView_seq (st : State) (d : DevId) (s : SubId) (r : RingId) (v : View) : (st.setView d s r v).seq = st.seq := rfl
@[simp] theorem State.setView_devReady (st : State) (d : DevId) (s : SubId) (r : RingId) (v : View) : (st.setView d s r v).devReady = st.devReady := rfl
@[simp] theorem State.setView_port (st : State) (d : DevId) (s : SubId) (r : RingId) (v : View) : (st.setView d s r v).port = st.port := rfl
@[simp] theorem State.setView_resp (st : State) (d : DevId) (s : SubId) (r : RingId) (v : View) : (st.setView d s r v).resp = st.resp := rfl
@[simp] theorem State.setView_trace (st : State) (d : DevId) (s : SubId) (r : RingId) (v : View) : (st.setView d s r v).trace = st.trace := rfl
@[simp] theorem State.setView_sched (st : State) (d : DevId) (s : SubId) (r : RingId) (v : View) : (st.setView d s r v).sched = st.sched := rfl
@[simp] theorem State.setView_threads (st : State) (d : DevId) (s : SubId) (r : RingId) (v : View) : (st.setView d s r v).threads = st.threads := rfl
@[simp] theorem State.setView_polling (st : State) (d : DevId) (s : SubId) (r : RingId) (v : View) : (st.setView d s r v).polling = st.polling := rfl
@[simp] theorem State.setView_updating (st : State) (d : DevId) (s : SubId) (r : RingId) (v : View) : (st.setView d s r v).updating = st.updating := rfl
@[simp] theorem State.setView_clockIn (st : State) (d : DevId) (s : SubId) (r : RingId) (v : View) : (st.setView d s r v).clockIn = st.clockIn := rfl
@[simp] theorem State.setView_allocIn (st : State) (d : DevId) (s : SubId) (r : RingId) (v : View) : (st.setView d s r v).allocIn = st.allocIn := rfl
@[simp] theorem State.setView_draws (st : State) (d : DevId) (s : SubId) (r : RingId) (v : View) : (st.setView d s r v).draws = st.draws := rfl
@[simp] theorem State.setLog_cfg (st : State) (slot : Nat) (e : LogEntry) : (st.setLog slot e).cfg = st.cfg := rfl
@[simp] theorem State.setLog_status (st : State) (slot : Nat) (e : LogEntry) : (st.setLog slot e).status = st.status := rfl
@[simp] theorem State.setLog_enHi (st : State) (slot : Nat) (e : LogEntry) : (st.setLog slot e).enHi = st.enHi := rfl
@[simp] theorem State.setLog_enLo (st : State) (slot : Nat) (e : LogEntry) : (st.setLog slot e).enLo = st.enLo := rfl
@[simp] theorem State.setLog_shadowMsk (st : State) (slot : Nat) (e : LogEntry) : (st.setLog slot e).shadowMsk = st.shadowMsk := rfl
@[simp] theorem State.setLog_headPtr (st : State) (slot : Nat) (e : LogEntry) : (st.setLog slot e).headPtr = st.headPtr := rfl
@[simp] theorem State.setLog_tailPtr (st : State) (slot : Nat) (e : LogEntry) : (st.setLog slot e).tailPtr = st.tailPtr := rfl
@[simp] theorem State.setLog_cb (st : State) (slot : Nat) (e : LogEntry) : (st.setLog slot e).cb = st.cb := rfl
@[simp] theorem State.setLog_count (st : State) (slot : Nat) (e : LogEntry) : (st.setLog slot e).count = st.count := rfl
@[simp] theorem State.setLog_countShown (st : State) (slot : Nat) (e : LogEntry) : (st.setLog slot e).countShown = st.countShown := rfl
@[simp] theorem State.setLog_view (st : State) (slot : Nat) (e : LogEntry) : (st.setLog slot e).view = st.view := rfl
@[simp] theorem State.setLog_logNext (st : State) (slot : Nat) (e : LogEntry) : (st.setLog slot e).logNext = st.logNext := rfl
@[simp] theorem State.setLog_logLock (st : State) (slot : Nat) (e : LogEntry) : (st.setLog slot e).logLock = st.logLock := rfl
@[simp] theorem State.setLog_seq (st : State) (slot : Nat) (e : LogEntry) : (st.setLog slot e).seq = st.seq := rfl
@[simp] theorem State.setLog_devReady (st : State) (slot : Nat) (e : LogEntry) : (st.setLog slot e).devReady = st.devReady := rfl
@[simp] theorem State.setLog_port (st : State) (slot : Nat) (e : LogEntry) : (st.setLog slot e).port = st.port := rfl
@[simp] theorem State.setLog_resp (st : State) (slot : Nat) (e : LogEntry) : (st.setLog slot e).resp = st.resp := rfl
@[simp] theorem State.setLog_trace (st : State) (slot : Nat) (e : LogEntry) : (st.setLog slot e).trace = st.trace := rfl
@[simp] theorem State.setLog_sched (st : State) (slot : Nat) (e : LogEntry) : (st.setLog slot e).sched = st.sched := rfl
@[simp] theorem State.setLog_threads (st : State) (slot : Nat) (e : LogEntry) : (st.setLog slot e).threads = st.threads := rfl
@[simp] theorem State.setLog_polling (st : State) (slot : Nat) (e : LogEntry) : (st.setLog slot e).polling = st.polling := rfl
@[simp] theorem State.setLog_updating (st : State) (slot : Nat) (e : LogEntry) : (st.setLog slot e).updating = st.updating := rfl
@[simp] theorem State.setLog_clockIn (st : State) (slot : Nat) (e : LogEntry) : (st.setLog slot e).clockIn = st.clockIn := rfl
@[simp] theorem State.setLog_allocIn (st : State) (slot : Nat) (e : LogEntry) : (st.setLog slot e).allocIn = st.allocIn := rfl
@[simp] theorem State.setLog_draws (st : State) (slot : Nat) (e : LogEntry) : (st.setLog slot e).draws = st.draws := rfl
@[simp] theorem State.setSeq_cfg (st : State) (d : DevId) (q : Seq) : (st.setSeq d q).cfg = st.cfg := rfl
@[simp] theorem State.setSeq_status (st : State) (d : DevId) (q : Seq) : (st.setSeq d q).status = st.status := rfl
@[simp] theorem State.setSeq_enHi (st : State) (d : DevId) (q : Seq) : (st.setSeq d q).enHi = st.enHi := rfl
@[simp] theorem State.setSeq_enLo (st : State) (d : DevId) (q : Seq) : (st.setSeq d q).enLo = st.enLo := rfl
@[simp] theorem State.setSeq_shadowMsk (st : State) (d : DevId) (q : Seq) : (st.setSeq d q).shadowMsk = st.shadowMsk := rfl
@[simp] theorem State.setSeq_headPtr (st : State) (d : DevId) (q : Seq) : (st.setSeq d q).headPtr = st.headPtr := rfl
@[simp] theorem State.setSeq_tailPtr (st : State) (d : DevId) (q : Seq) : (st.setSeq d q).tailPtr = st.tailPtr := rfl
@[simp] theorem State.setSeq_cb (st : State) (d : DevId) (q : Seq) : (st.setSeq d q).cb = st.cb := rfl
@[simp] theorem State.setSeq_count (st : State) (d : DevId) (q : Seq) : (st.setSeq d q).count = st.count := rfl
@[simp] theorem State.setSeq_countShown (st : State) (d : DevId) (q : Seq) : (st.setSeq d q).countShown = st.countShown := rfl
@[simp] theorem State.setSeq_view (st : State) (d : DevId) (q : Seq) : (st.setSeq d q).view = st.view := rfl
@[simp] theorem State.setSeq_logEntries (st : State) (d : DevId) (q : Seq) : (st.setSeq d q).logEntries = st.logEntries := rfl
@[simp] theorem State.setSeq_logNext (st : State) (d : DevId) (q : Seq) : (st.setSeq d q).logNext = st.logNext := rfl
@[simp] theorem State.setSeq_logLock (st : State) (d : DevId) (q : Seq) : (st.setSeq d q).logLock = st.logLock := rfl
@[simp] theorem State.setSeq_devReady (st : State) (d : DevId) (q : Seq) : (st.setSeq d q).devReady = st.devReady := rfl
@[simp] theorem State.setSeq_port (st : State) (d : DevId) (q : Seq) : (st.setSeq d q).port = st.port := rfl
@[simp] theorem State.setSeq_resp (st : State) (d : DevId) (q : Seq) : (st.setSeq d q).resp = st.resp := rfl
@[simp] theorem State.setSeq_trace (st : State) (d : DevId) (q : Seq) : (st.setSeq d q).trace = st.trace := rfl
@[simp] theorem State.setSeq_sched (st : State) (d : DevId) (q : Seq) : (st.setSeq d q).sched = st.sched := rfl
@[simp] theorem State.setSeq_threads (st : State) (d : DevId) (q : Seq) : (st.setSeq d q).threads = st.threads := rfl
@[simp] theorem State.setSeq_polling (st : State) (d : DevId) (q : Seq) : (st.setSeq d q).polling = st.polling := rfl
@[simp] theorem State.setSeq_updating (st : State) (d : DevId) (q : Seq) : (st.setSeq d q).updating = st.updating := rfl
@[simp] theorem State.setSeq_clockIn (st : State) (d : DevId) (q : Seq) : (st.setSeq d q).clockIn = st.clockIn := rfl
@[simp] theorem State.setSeq_allocIn (st : State) (d : DevId) (q : Seq) : (st.setSeq d q).allocIn = st.allocIn := rfl
@[simp] theorem State.setSeq_draws (st : State) (d : DevId) (q : Seq) : (st.setSeq d q).draws = st.draws := rfl
@[simp] theorem State.setReady_cfg (st : State) (d : DevId) (b : Bool) : (st.setReady d b).cfg = st.cfg := rfl
@[simp] theorem State.setReady_status (st : State) (d : DevId) (b : Bool) : (st.setReady d b).status = st.status := rfl
@[simp] theorem State.setReady_enHi (st : State) (d : DevId) (b : Bool) : (st.setReady d b).enHi = st.enHi := rfl
@[simp] theorem State.setReady_enLo (st : State) (d : DevId) (b : Bool) : (st.setReady d b).enLo = st.enLo := rfl
@[simp] theorem State.setReady_shadowMsk (st : State) (d : DevId) (b : Bool) : (st.setReady d b).shadowMsk = st.shadowMsk := rfl
@[simp] theorem State.setReady_headPtr (st : State) (d : DevId) (b : Bool) : (st.setReady d b).headPtr = st.headPtr := rfl
@[simp] theorem State.setReady_tailPtr (st : State) (d : DevId) (b : Bool) : (st.setReady d b).tailPtr = st.tailPtr := rfl
@[simp] theorem State.setReady_cb (st : State) (d : DevId) (b : Bool) : (st.setReady d b).cb = st.cb := rfl
@[simp] theorem State.setReady_count (st : State) (d : DevId) (b : Bool) : (st.setReady d b).count = st.count := rfl
@[simp] theorem State.setReady_countShown (st : State) (d : DevId) (b : Bool) : (st.setReady d b).countShown = st.countShown := rfl
@[simp] theorem State.setReady_view (st : State) (d : DevId) (b : Bool) : (st.setReady d b).view = st.view := rfl
@[simp] theorem State.setReady_logEntries (st : State) (d : DevId) (b : Bool) : (st.setReady d b).logEntries = st.logEntries := rfl
@[simp] theorem State.setReady_logNext (st : State) (d : DevId) (b : Bool) : (st.setReady d b).logNext = st.logNext := rfl
@[simp] theorem State.setReady_logLock (st : State) (d : DevId) (b : Bool) : (st.setReady d b).logLock = st.logLock := rfl
@[simp] theorem State.setReady_seq (st : State) (d : DevId) (b : Bool) : (st.setReady d b).seq = st.seq := rfl
@[simp] theorem State.setReady_port (st : State) (d : DevId) (b : Bool) : (st.setReady d b).port = st.port := rfl
@[simp] theorem State.setReady_resp (st : State) (d : DevId) (b : Bool) : (st.setReady d b).resp = st.resp := rfl
@[simp] theorem State.setReady_trace (st : State) (d : DevId) (b : Bool) : (st.setReady d b).trace = st.trace := rfl
@[simp] theorem State.setReady_sched (st : State) (d : DevId) (b : Bool) : (st.setReady d b).sched = st.sched := rfl
@[simp] theorem State.setReady_threads (st : State) (d : DevId) (b : Bool) : (st.setReady d b).threads = st.threads := rfl
@[simp] theorem State.setReady_polling (st : State) (d : DevId) (b : Bool) : (st.setReady d b).polling = st.polling := rfl
@[simp] theorem State.setReady_updating (st : State) (d : DevId) (b : Bool) : (st.setReady d b).updating = st.updating := rfl
@[simp] theorem State.setReady_clockIn (st : State) (d : DevId) (b : Bool) : (st.setReady d b).clockIn = st.clockIn := rfl
@[simp] theorem State.setReady_allocIn (st : State) (d : DevId) (b : Bool) : (st.setReady d b).allocIn = st.allocIn := rfl
@[simp] theorem State.setReady_draws (st : State) (d : DevId) (b : Bool) : (st.setReady d b).draws = st.draws := rfl
@[simp] theorem State.setThread_cfg (st : State) (t : Nat) (th : Thread) : (st.setThread t th).cfg = st.cfg := rfl
@[simp] theorem State.setThread_status (st : State) (t : Nat) (th : Thread) : (st.setThread t th).status = st.status := rfl
@[simp] theorem State.setThread_enHi (st : State) (t : Nat) (th : Thread) : (st.setThread t th).enHi = st.enHi := rfl
@[simp] theorem State.setThread_enLo (st : State) (t : Nat) (th : Thread) : (st.setThread t th).enLo = st.enLo := rfl
@[simp] theorem State.setThread_shadowMsk (st : State) (t : Nat) (th : Thread) : (st.setThread t th).shadowMsk = st.shadowMsk := rfl
@[simp] theorem State.setThread_headPtr (st : State) (t : Nat) (th : Thread) : (st.setThread t th).headPtr = st.headPtr := rfl
@[simp] theorem State.setThread_tailPtr (st : State) (t : Nat) (th : Thread) : (st.setThread t th).tailPtr = st.tailPtr := rfl
@[simp] theorem State.setThread_cb (st : State) (t : Nat) (th : Thread) : (st.setThread t th).cb = st.cb := rfl
@[simp] theorem State.setThread_count (st : State) (t : Nat) (th : Thread) : (st.setThread t th).count = st.count := rfl
@[simp] theorem State.setThread_countShown (st : State) (t : Nat) (th : Thread) : (st.setThread t th).countShown = st.countShown := rfl
@[simp] theorem State.setThread_view (st : State) (t : Nat) (th : Thread) : (st.setThread t th).view = st.view := rfl
@[simp] theorem State.setThread_logEntries (st : State) (t : Nat) (th : Thread) : (st.setThread t th).logEntries = st.logEntries := rfl
@[simp] theorem State.setThread_logNext (st : State) (t : Nat) (th : Thread) : (st.setThread t th).logNext = st.logNext := rfl
@[simp] theorem State.setThread_logLock (st : State) (t : Nat) (th : Thread) : (st.setThread t th).logLock = st.logLock := rfl
@[simp] theorem State.setThread_seq (st : State) (t : Nat) (th : Thread) : (st.setThread t th).seq = st.seq := rfl
@[simp] theorem State.setThread_devReady (st : State) (t : Nat) (th : Thread) : (st.setThread t th).devReady = st.devReady := rfl
@[simp] theorem State.setThread_port (st : State) (t : Nat) (th : Thread) : (st.setThread t th).port = st.port := rfl
@[simp] theorem State.setThread_resp (st : State) (t : Nat) (th : Thread) : (st.setThread t th).resp = st.resp := rfl
@[simp] theorem State.setThread_trace (st : State) (t : Nat) (th : Thread) : (st.setThread t th).trace = st.trace := rfl
@[simp] theorem State.setThread_sched (st : State) (t : Nat) (th : Thread) : (st.setThread t th).sched = st.sched := rfl
@[simp] theorem State.setThread_polling (st : State) (t : Nat) (th : Thread) : (st.setThread t th).polling = st.polling := rfl
@[simp] theorem State.setThread_updating (st : State) (t : Nat) (th : Thread) : (st.setThread t th).updating = st.updating := rfl
@[simp] theorem State.setThread_clockIn (st : State) (t : Nat) (th : Thread) : (st.setThread t th).clockIn = st.clockIn := rfl
@[simp] theorem State.setThread_allocIn (st : State) (t : Nat) (th : Thread) : (st.setThread t th).allocIn = st.allocIn := rfl
@[simp] theorem State.setThread_draws (st : State) (t : Nat) (th : Thread) : (st.setThread t th).draws = st.draws := rfl
@[simp] theorem State.emit_cfg (st : State) (e : Event) : (st.emit e).cfg = st.cfg := rfl
@[simp] theorem State.emit_status (st : State) (e : Event) : (st.emit e).status = st.status := rfl
@[simp] theorem State.emit_enHi (st : State) (e : Event) : (st.emit e).enHi = st.enHi := rfl
@[simp] theorem State.emit_enLo (st : State) (e : Event) : (st.emit e).enLo = st.enLo := rfl
@[simp] theorem State.emit_shadowMsk (st : State) (e : Event) : (st.emit e).shadowMsk = st.shadowMsk := rfl
@[simp] theorem State.emit_headPtr (st : State) (e : Event) : (st.emit e).headPtr = st.headPtr := rfl
@[simp] theorem State.emit_tailPtr (st : State) (e : Event) : (st.emit e).tailPtr = st.tailPtr := rfl
@[simp] theorem State.emit_cb (st : State) (e : Event) : (st.emit e).cb = st.cb := rfl
@[simp] theorem State.emit_count (st : State) (e : Event) : (st.emit e).count = st.count := rfl
@[simp] theorem State.emit_countShown (st : State) (e : Event) : (st.emit e).countShown = st.countShown := rfl
@[simp] theorem State.emit_view (st : State) (e : Event) : (st.emit e).view = st.view := rfl
@[simp] theorem State.emit_logEntries (st : State) (e : Event) : (st.emit e).logEntries = st.logEntries := rfl
@[simp] theorem State.emit_logNext (st : State) (e : Event) : (st.emit e).logNext = st.logNext := rfl
@[simp] theorem State.emit_logLock (st : State) (e : Event) : (st.emit e).logLock = st.logLock := rfl
@[simp] theorem State.emit_seq (st : State) (e : Event) : (st.emit e).seq = st.seq := rfl
@[simp] theorem State.emit_devReady (st : State) (e : Event) : (st.emit e).devReady = st.devReady := rfl
@[simp] theorem State.emit_port (st : State) (e : Event) : (st.emit e).port = st.port := rfl
@[simp] theorem State.emit_resp (st : State) (e : Event) : (st.emit e).resp = st.resp := rfl
@[simp] theorem State.emit_sched (st : State) (e : Event) : (st.emit e).sched = st.sched := rfl
@[simp] theorem State.emit_threads (st : State) (e : Event) : (st.emit e).threads = st.threads := rfl
@[simp] theorem State.emit_polling (st : State) (e : Event) : (st.emit e).polling = st.polling := rfl
@[simp] theorem State.emit_updating (st : State) (e : Event) : (st.emit e).updating = st.updating := rfl
@[simp] theorem State.emit_clockIn (st : State) (e : Event) : (st.emit e).clockIn = st.clockIn := rfl
@[simp] theorem State.emit_allocIn (st : State) (e : Event) : (st.emit e).allocIn = st.allocIn := rfl
@[simp] theorem State.emit_draws (st : State) (e : Event) : (st.emit e).draws = st.draws := rfl
@[simp] theorem State.respond_cfg (st : State) (r : Response) : (st.respond r).cfg = st.cfg := rfl
@[simp] theorem State.respond_status (st : State) (r : Response) : (st.respond r).status = st.status := rfl
@[simp] theorem State.respond_enHi (st : State) (r : Response) : (st.respond r).enHi = st.enHi := rfl
@[simp] theorem State.respond_enLo (st : State) (r : Response) : (st.respond r).enLo = st.enLo := rfl
@[simp] theorem State.respond_shadowMsk (st : State) (r : Response) : (st.respond r).shadowMsk = st.shadowMsk := rfl
@[simp] theorem State.respond_headPtr (st : State) (r : Response) : (st.respond r).headPtr = st.headPtr := rfl
@[simp] theorem State.respond_tailPtr (st : State) (r : Response) : (st.respond r).tailPtr = st.tailPtr := rfl
@[simp] theorem State.respond_cb (st : State) (r : Response) : (st.respond r).cb = st.cb := rfl
@[simp] theorem State.respond_count (st : State) (r : Response) : (st.respond r).count = st.count := rfl
@[simp] theorem State.respond_countShown (st : State) (r : Response) : (st.respond r).countShown = st.countShown := rfl
@[simp] theorem State.respond_view (st : State) (r : Response) : (st.respond r).view = st.view := rfl
@[simp] theorem State.respond_logEntries (st : State) (r : Response) : (st.respond r).logEntries = st.logEntries := rfl
@[simp] theorem State.respond_logNext (st : State) (r : Response) : (st.respond r).logNext = st.logNext := rfl
@[simp] theorem State.respond_logLock (st : State) (r : Response) : (st.respond r).logLock = st.logLock := rfl
@[simp] theorem State.respond_seq (st : State) (r : Response) : (st.respond r).seq = st.seq := rfl
@[simp] theorem State.respond_devReady (st : State) (r : Response) : (st.respond r).devReady = st.devReady := rfl
@[simp] theorem State.respond_port (st : State) (r : Response) : (st.respond r).port = st.port := rfl
@[simp] theorem State.respond_trace (st : State) (r : Response) : (st.respond r).trace = st.trace := rfl
@[simp] theorem State.respond_sched (st : State) (r : Response) : (st.respond r).sched = st.sched := rfl
@[simp] theorem State.respond_threads (st : State) (r : Response) : (st.respond r).threads = st.threads := rfl
@[simp] theorem State.respond_polling (st : State) (r : Response) : (st.respond r).polling = st.polling := rfl
@[simp] theorem State.respond_updating (st : State) (r : Response) : (st.respond r).updating = st.updating := rfl
@[simp] theorem State.respond_clockIn (st : State) (r : Response) : (st.respond r).clockIn = st.clockIn := rfl
@[simp] theorem State.respond_allocIn (st : State) (r : Response) : (st.respond r).allocIn = st.allocIn := rfl
@[simp] theorem State.respond_draws (st : State) (r : Response) : (st.respond r).draws = st.draws := rfl
@[simp] theorem State.setPolling_cfg (st : State) (ds : List DevId) : (st.setPolling ds).cfg = st.cfg := rfl
@[simp] theorem State.setPolling_status (st : State) (ds : List DevId) : (st.setPolling ds).status = st.status := rfl
@[simp] theorem State.setPolling_enHi (st : State) (ds : List DevId) : (st.setPolling ds).enHi = st.enHi := rfl
@[simp] theorem State.setPolling_enLo (st : State) (ds : List DevId) : (st.setPolling ds).enLo = st.enLo := rfl
@[simp] theorem State.setPolling_shadowMsk (st : State) (ds : List DevId) : (st.setPolling ds).shadowMsk = st.shadowMsk := rfl
@[simp] theorem State.setPolling_headPtr (st : State) (ds : List DevId) : (st.setPolling ds).headPtr = st.headPtr := rfl
@[simp] theorem State.setPolling_tailPtr (st : State) (ds : List DevId) : (st.setPolling ds).tailPtr = st.tailPtr := rfl
@[simp] theorem State.setPolling_cb (st : State) (ds : List DevId) : (st.setPolling ds).cb = st.cb := rfl
@[simp] theorem State.setPolling_count (st : State) (ds : List DevId) : (st.setPolling ds).count = st.count := rfl
@[simp] theorem State.setPolling_countShown (st : State) (ds : List DevId) : (st.setPolling ds).countShown = st.countShown := rfl
@[simp] theorem State.setPolling_view (st : State) (ds : List DevId) : (st.setPolling ds).view = st.view := rfl
@[simp] theorem State.setPolling_logEntries (st : State) (ds : List DevId) : (st.setPolling ds).logEntries = st.logEntries := rfl
@[simp] theorem State.setPolling_logNext (st : State) (ds : List DevId) : (st.setPolling ds).logNext = st.logNext := rfl
@[simp] theorem State.setPolling_logLock (st : State) (ds : List DevId) : (st.setPolling ds).logLock = st.logLock := rfl
@[simp] theorem State.setPolling_seq (st : State) (ds : List DevId) : (st.setPolling ds).seq = st.seq := rfl
@[simp] theorem State.setPolling_devReady (st : State) (ds : List DevId) : (st.setPolling ds).devReady = st.devReady := rfl
@[simp] theorem State.setPolling_port (st : State) (ds : List DevId) : (st.setPolling ds).port = st.port := rfl
@[simp] theorem State.setPolling_resp (st : State) (ds : List DevId) : (st.setPolling ds).resp = st.resp := rfl
@[simp] theorem State.setPolling_trace (st : State) (ds : List DevId) : (st.setPolling ds).trace = st.trace := rfl
@[simp] theorem State.setPolling_sched (st : State) (ds : List DevId) : (st.setPolling ds).sched = st.sched := rfl
@[simp] theorem State.setPolling_threads (st : State) (ds : List DevId) : (st.setPolling ds).threads = st.threads := rfl
@[simp] theorem State.setPolling_updating (st : State) (ds : List DevId) : (st.setPolling ds).updating = st.updating := rfl
@[simp] theorem State.setPolling_clockIn (st : State) (ds : List DevId) : (st.setPolling ds).clockIn = st.clockIn := rfl
@[simp] theorem State.setPolling_allocIn (st : State) (ds : List DevId) : (st.setPolling ds).allocIn = st.allocIn := rfl
@[simp] theorem State.setPolling_draws (st : State) (ds : List DevId) : (st.setPolling ds).draws = st.draws := rfl
@[simp] theorem State.setPort_cfg (st : State) (ws : List Word) : (st.setPort ws).cfg = st.cfg := rfl
@[simp] theorem State.setPort_status (st : State) (ws : List Word) : (st.setPort ws).status = st.status := rfl
@[simp] theorem State.setPort_enHi (st : State) (ws : List Word) : (st.setPort ws).enHi = st.enHi := rfl
@[simp] theorem State.setPort_enLo (st : State) (ws : List Word) : (st.setPort ws).enLo = st.enLo := rfl
@[simp] theorem State.setPort_shadowMsk (st : State) (ws : List Word) : (st.setPort ws).shadowMsk = st.shadowMsk := rfl
@[simp] theorem State.setPort_headPtr (st : State) (ws : List Word) : (st.setPort ws).headPtr = st.headPtr := rfl
@[simp] theorem State.setPort_tailPtr (st : State) (ws : List Word) : (st.setPort ws).tailPtr = st.tailPtr := rfl
@[simp] theorem State.setPort_cb (st : State) (ws : List Word) : (st.setPort ws).cb = st.cb := rfl
@[simp] theorem State.setPort_count (st : State) (ws : List Word) : (st.setPort ws).count = st.count := rfl
@[simp] theorem State.setPort_countShown (st : State) (ws : List Word) : (st.setPort ws).countShown = st.countShown := rfl
@[simp] theorem State.setPort_view (st : State) (ws : List Word) : (st.setPort ws).view = st.view := rfl
@[simp] theorem State.setPort_logEntries (st : State) (ws : List Word) : (st.setPort ws).logEntries = st.logEntries := rfl
@[simp] theorem State.setPort_logNext (st : State) (ws : List Word) : (st.setPort ws).logNext = st.logNext := rfl
@[simp] theorem State.setPort_logLock (st : State) (ws : List Word) : (st.setPort ws).logLock = st.logLock := rfl
@[simp] theorem State.setPort_seq (st : State) (ws : List Word) : (st.setPort ws).seq = st.seq := rfl
@[simp] theorem State.setPort_devReady (st : State) (ws : List Word) : (st.setPort ws).devReady = st.devReady := rfl
@[simp] theorem State.setPort_resp (st : State) (ws : List Word) : (st.setPort ws).resp = st.resp := rfl
@[simp] theorem State.setPort_trace (st : State) (ws : List Word) : (st.setPort ws).trace = st.trace := rfl
@[simp] theorem State.setPort_sched (st : State) (ws : List Word) : (st.setPort ws).sched = st.sched := rfl
@[simp] theorem State.setPort_threads (st : State) (ws : List Word) : (st.setPort ws).threads = st.threads := rfl
@[simp] theorem State.setPort_polling (st : State) (ws : List Word) : (st.setPort ws).polling = st.polling := rfl
@[simp] theorem State.setPort_updating (st : State) (ws : List Word) : (st.setPort ws).updating = st.updating := rfl
@[simp] theorem State.setPort_clockIn (st : State) (ws : List Word) : (st.setPort ws).clockIn = st.clockIn := rfl
@[simp] theorem State.setPort_allocIn (st : State) (ws : List Word) : (st.setPort ws).allocIn = st.allocIn := rfl
@[simp] theorem State.setPort_draws (st : State) (ws : List Word) : (st.setPort ws).draws = st.draws := rfl

@[simp] theorem State.emit_trace (st : State) (e : Event) : (st.emit e).trace = st.trace ++ [e] := rfl
@[simp] theorem State.respond_resp (st : State) (r : Response) : (st.respond r).resp = r := rfl
@[simp] theorem State.setPolling_polling (st : State) (ds : List DevId) : (st.setPolling ds).polling = ds := rfl
@[simp] theorem State.setPort_port (st : State) (ws : List Word) : (st.setPort ws).port = ws := rfl

/-! ## One lemma per indexed read per update of something else -/

@[simp] theorem State.setStatus_enHiAt (st : State) (d : DevId) (s : SubId) (L : LeafId) (v : Word) (d' : DevId) (s' : SubId) (L' : LeafId) :
    (st.setStatus d s L v).enHiAt d' s' L' = st.enHiAt d' s' L' := rfl
@[simp] theorem State.setStatus_enLoAt (st : State) (d : DevId) (s : SubId) (L : LeafId) (v : Word) (d' : DevId) (s' : SubId) (L' : LeafId) :
    (st.setStatus d s L v).enLoAt d' s' L' = st.enLoAt d' s' L' := rfl
@[simp] theorem State.setStatus_shadowMskAt (st : State) (d : DevId) (s : SubId) (L : LeafId) (v : Word) (d' : DevId) (s' : SubId) (i' : Nat) :
    (st.setStatus d s L v).shadowMskAt d' s' i' = st.shadowMskAt d' s' i' := rfl
@[simp] theorem State.setStatus_headPtrAt (st : State) (d : DevId) (s : SubId) (L : LeafId) (v : Word) (d' : DevId) (s' : SubId) (r' : Nat) :
    (st.setStatus d s L v).headPtrAt d' s' r' = st.headPtrAt d' s' r' := rfl
@[simp] theorem State.setStatus_tailPtrAt (st : State) (d : DevId) (s : SubId) (L : LeafId) (v : Word) (d' : DevId) (s' : SubId) (r' : Nat) :
    (st.setStatus d s L v).tailPtrAt d' s' r' = st.tailPtrAt d' s' r' := rfl
@[simp] theorem State.setStatus_cbAt (st : State) (d : DevId) (s : SubId) (L : LeafId) (v : Word) (d' : DevId) (L' : LeafId) :
    (st.setStatus d s L v).cbAt d' L' = st.cbAt d' L' := rfl
@[simp] theorem State.setStatus_countAt (st : State) (d : DevId) (s : SubId) (L : LeafId) (v : Word) (d' : DevId) (L' : LeafId) (b' : Nat) :
    (st.setStatus d s L v).countAt d' L' b' = st.countAt d' L' b' := rfl
@[simp] theorem State.setStatus_countShownAt (st : State) (d : DevId) (s : SubId) (L : LeafId) (v : Word) (d' : DevId) (L' : LeafId) (b' : Nat) :
    (st.setStatus d s L v).countShownAt d' L' b' = st.countShownAt d' L' b' := rfl
@[simp] theorem State.setStatus_viewAt (st : State) (d : DevId) (s : SubId) (L : LeafId) (v : Word) (d' : DevId) (s' : SubId) (r' : RingId) :
    (st.setStatus d s L v).viewAt d' s' r' = st.viewAt d' s' r' := rfl
@[simp] theorem State.setStatus_logAt (st : State) (d : DevId) (s : SubId) (L : LeafId) (v : Word) (j : Nat) :
    (st.setStatus d s L v).logAt j = st.logAt j := rfl
@[simp] theorem State.setStatus_seqAt (st : State) (d : DevId) (s : SubId) (L : LeafId) (v : Word) (d' : DevId) :
    (st.setStatus d s L v).seqAt d' = st.seqAt d' := rfl
@[simp] theorem State.setStatus_readyAt (st : State) (d : DevId) (s : SubId) (L : LeafId) (v : Word) (d' : DevId) :
    (st.setStatus d s L v).readyAt d' = st.readyAt d' := rfl
@[simp] theorem State.setStatus_threadAt (st : State) (d : DevId) (s : SubId) (L : LeafId) (v : Word) (t' : Nat) :
    (st.setStatus d s L v).threadAt t' = st.threadAt t' := rfl
@[simp] theorem State.setEnHi_statusAt (st : State) (d : DevId) (s : SubId) (L : LeafId) (v : Word) (d' : DevId) (s' : SubId) (L' : LeafId) :
    (st.setEnHi d s L v).statusAt d' s' L' = st.statusAt d' s' L' := rfl
@[simp] theorem State.setEnHi_enLoAt (st : State) (d : DevId) (s : SubId) (L : LeafId) (v : Word) (d' : DevId) (s' : SubId) (L' : LeafId) :
    (st.setEnHi d s L v).enLoAt d' s' L' = st.enLoAt d' s' L' := rfl
@[simp] theorem State.setEnHi_shadowMskAt (st : State) (d : DevId) (s : SubId) (L : LeafId) (v : Word) (d' : DevId) (s' : SubId) (i' : Nat) :
    (st.setEnHi d s L v).shadowMskAt d' s' i' = st.shadowMskAt d' s' i' := rfl
@[simp] theorem State.setEnHi_headPtrAt (st : State) (d : DevId) (s : SubId) (L : LeafId) (v : Word) (d' : DevId) (s' : SubId) (r' : Nat) :
    (st.setEnHi d s L v).headPtrAt d' s' r' = st.headPtrAt d' s' r' := rfl
@[simp] theorem State.setEnHi_tailPtrAt (st : State) (d : DevId) (s : SubId) (L : LeafId) (v : Word) (d' : DevId) (s' : SubId) (r' : Nat) :
    (st.setEnHi d s L v).tailPtrAt d' s' r' = st.tailPtrAt d' s' r' := rfl
@[simp] theorem State.setEnHi_cbAt (st : State) (d : DevId) (s : SubId) (L : LeafId) (v : Word) (d' : DevId) (L' : LeafId) :
    (st.setEnHi d s L v).cbAt d' L' = st.cbAt d' L' := rfl
@[simp] theorem State.setEnHi_countAt (st : State) (d : DevId) (s : SubId) (L : LeafId) (v : Word) (d' : DevId) (L' : LeafId) (b' : Nat) :
    (st.setEnHi d s L v).countAt d' L' b' = st.countAt d' L' b' := rfl
@[simp] theorem State.setEnHi_countShownAt (st : State) (d : DevId) (s : SubId) (L : LeafId) (v : Word) (d' : DevId) (L' : LeafId) (b' : Nat) :
    (st.setEnHi d s L v).countShownAt d' L' b' = st.countShownAt d' L' b' := rfl
@[simp] theorem State.setEnHi_viewAt (st : State) (d : DevId) (s : SubId) (L : LeafId) (v : Word) (d' : DevId) (s' : SubId) (r' : RingId) :
    (st.setEnHi d s L v).viewAt d' s' r' = st.viewAt d' s' r' := rfl
@[simp] theorem State.setEnHi_logAt (st : State) (d : DevId) (s : SubId) (L : LeafId) (v : Word) (j : Nat) :
    (st.setEnHi d s L v).logAt j = st.logAt j := rfl
@[simp] theorem State.setEnHi_seqAt (st : State) (d : DevId) (s : SubId) (L : LeafId) (v : Word) (d' : DevId) :
    (st.setEnHi d s L v).seqAt d' = st.seqAt d' := rfl
@[simp] theorem State.setEnHi_readyAt (st : State) (d : DevId) (s : SubId) (L : LeafId) (v : Word) (d' : DevId) :
    (st.setEnHi d s L v).readyAt d' = st.readyAt d' := rfl
@[simp] theorem State.setEnHi_threadAt (st : State) (d : DevId) (s : SubId) (L : LeafId) (v : Word) (t' : Nat) :
    (st.setEnHi d s L v).threadAt t' = st.threadAt t' := rfl
@[simp] theorem State.setEnLo_statusAt (st : State) (d : DevId) (s : SubId) (L : LeafId) (v : Word) (d' : DevId) (s' : SubId) (L' : LeafId) :
    (st.setEnLo d s L v).statusAt d' s' L' = st.statusAt d' s' L' := rfl
@[simp] theorem State.setEnLo_enHiAt (st : State) (d : DevId) (s : SubId) (L : LeafId) (v : Word) (d' : DevId) (s' : SubId) (L' : LeafId) :
    (st.setEnLo d s L v).enHiAt d' s' L' = st.enHiAt d' s' L' := rfl
@[simp] theorem State.setEnLo_shadowMskAt (st : State) (d : DevId) (s : SubId) (L : LeafId) (v : Word) (d' : DevId) (s' : SubId) (i' : Nat) :
    (st.setEnLo d s L v).shadowMskAt d' s' i' = st.shadowMskAt d' s' i' := rfl
@[simp] theorem State.setEnLo_headPtrAt (st : State) (d : DevId) (s : SubId) (L : LeafId) (v : Word) (d' : DevId) (s' : SubId) (r' : Nat) :
    (st.setEnLo d s L v).headPtrAt d' s' r' = st.headPtrAt d' s' r' := rfl
@[simp] theorem State.setEnLo_tailPtrAt (st : State) (d : DevId) (s : SubId) (L : LeafId) (v : Word) (d' : DevId) (s' : SubId) (r' : Nat) :
    (st.setEnLo d s L v).tailPtrAt d' s' r' = st.tailPtrAt d' s' r' := rfl
@[simp] theorem State.setEnLo_cbAt (st : State) (d : DevId) (s : SubId) (L : LeafId) (v : Word) (d' : DevId) (L' : LeafId) :
    (st.setEnLo d s L v).cbAt d' L' = st.cbAt d' L' := rfl
@[simp] theorem State.setEnLo_countAt (st : State) (d : DevId) (s : SubId) (L : LeafId) (v : Word) (d' : DevId) (L' : LeafId) (b' : Nat) :
    (st.setEnLo d s L v).countAt d' L' b' = st.countAt d' L' b' := rfl
@[simp] theorem State.setEnLo_countShownAt (st : State) (d : DevId) (s : SubId) (L : LeafId) (v : Word) (d' : DevId) (L' : LeafId) (b' : Nat) :
    (st.setEnLo d s L v).countShownAt d' L' b' = st.countShownAt d' L' b' := rfl
@[simp] theorem State.setEnLo_viewAt (st : State) (d : DevId) (s : SubId) (L : LeafId) (v : Word) (d' : DevId) (s' : SubId) (r' : RingId) :
    (st.setEnLo d s L v).viewAt d' s' r' = st.viewAt d' s' r' := rfl
@[simp] theorem State.setEnLo_logAt (st : State) (d : DevId) (s : SubId) (L : LeafId) (v : Word) (j : Nat) :
    (st.setEnLo d s L v).logAt j = st.logAt j := rfl
@[simp] theorem State.setEnLo_seqAt (st : State) (d : DevId) (s : SubId) (L : LeafId) (v : Word) (d' : DevId) :
    (st.setEnLo d s L v).seqAt d' = st.seqAt d' := rfl
@[simp] theorem State.setEnLo_readyAt (st : State) (d : DevId) (s : SubId) (L : LeafId) (v : Word) (d' : DevId) :
    (st.setEnLo d s L v).readyAt d' = st.readyAt d' := rfl
@[simp] theorem State.setEnLo_threadAt (st : State) (d : DevId) (s : SubId) (L : LeafId) (v : Word) (t' : Nat) :
    (st.setEnLo d s L v).threadAt t' = st.threadAt t' := rfl
@[simp] theorem State.setShadowMsk_statusAt (st : State) (d : DevId) (s : SubId) (i : Nat) (v : Word) (d' : DevId) (s' : SubId) (L' : LeafId) :
    (st.setShadowMsk d s i v).statusAt d' s' L' = st.statusAt d' s' L' := rfl
@[simp] theorem State.setShadowMsk_enHiAt (st : State) (d : DevId) (s : SubId) (i : Nat) (v : Word) (d' : DevId) (s' : SubId) (L' : LeafId) :
    (st.setShadowMsk d s i v).enHiAt d' s' L' = st.enHiAt d' s' L' := rfl
@[simp] theorem State.setShadowMsk_enLoAt (st : State) (d : DevId) (s : SubId) (i : Nat) (v : Word) (d' : DevId) (s' : SubId) (L' : LeafId) :
    (st.setShadowMsk d s i v).enLoAt d' s' L' = st.enLoAt d' s' L' := rfl
@[simp] theorem State.setShadowMsk_headPtrAt (st : State) (d : DevId) (s : SubId) (i : Nat) (v : Word) (d' : DevId) (s' : SubId) (r' : Nat) :
    (st.setShadowMsk d s i v).headPtrAt d' s' r' = st.headPtrAt d' s' r' := rfl
@[simp] theorem State.setShadowMsk_tailPtrAt (st : State) (d : DevId) (s : SubId) (i : Nat) (v : Word) (d' : DevId) (s' : SubId) (r' : Nat) :
    (st.setShadowMsk d s i v).tailPtrAt d' s' r' = st.tailPtrAt d' s' r' := rfl
@[simp] theorem State.setShadowMsk_cbAt (st : State) (d : DevId) (s : SubId) (i : Nat) (v : Word) (d' : DevId) (L' : LeafId) :
    (st.setShadowMsk d s i v).cbAt d' L' = st.cbAt d' L' := rfl
@[simp] theorem State.setShadowMsk_countAt (st : State) (d : DevId) (s : SubId) (i : Nat) (v : Word) (d' : DevId) (L' : LeafId) (b' : Nat) :
    (st.setShadowMsk d s i v).countAt d' L' b' = st.countAt d' L' b' := rfl
@[simp] theorem State.setShadowMsk_countShownAt (st : State) (d : DevId) (s : SubId) (i : Nat) (v : Word) (d' : DevId) (L' : LeafId) (b' : Nat) :
    (st.setShadowMsk d s i v).countShownAt d' L' b' = st.countShownAt d' L' b' := rfl
@[simp] theorem State.setShadowMsk_viewAt (st : State) (d : DevId) (s : SubId) (i : Nat) (v : Word) (d' : DevId) (s' : SubId) (r' : RingId) :
    (st.setShadowMsk d s i v).viewAt d' s' r' = st.viewAt d' s' r' := rfl
@[simp] theorem State.setShadowMsk_logAt (st : State) (d : DevId) (s : SubId) (i : Nat) (v : Word) (j : Nat) :
    (st.setShadowMsk d s i v).logAt j = st.logAt j := rfl
@[simp] theorem State.setShadowMsk_seqAt (st : State) (d : DevId) (s : SubId) (i : Nat) (v : Word) (d' : DevId) :
    (st.setShadowMsk d s i v).seqAt d' = st.seqAt d' := rfl
@[simp] theorem State.setShadowMsk_readyAt (st : State) (d : DevId) (s : SubId) (i : Nat) (v : Word) (d' : DevId) :
    (st.setShadowMsk d s i v).readyAt d' = st.readyAt d' := rfl
@[simp] theorem State.setShadowMsk_threadAt (st : State) (d : DevId) (s : SubId) (i : Nat) (v : Word) (t' : Nat) :
    (st.setShadowMsk d s i v).threadAt t' = st.threadAt t' := rfl
@[simp] theorem State.setHeadPtr_statusAt (st : State) (d : DevId) (s : SubId) (r : Nat) (v : Word) (d' : DevId) (s' : SubId) (L' : LeafId) :
    (st.setHeadPtr d s r v).statusAt d' s' L' = st.statusAt d' s' L' := rfl
@[simp] theorem State.setHeadPtr_enHiAt (st : State) (d : DevId) (s : SubId) (r : Nat) (v : Word) (d' : DevId) (s' : SubId) (L' : LeafId) :
    (st.setHeadPtr d s r v).enHiAt d' s' L' = st.enHiAt d' s' L' := rfl
@[simp] theorem State.setHeadPtr_enLoAt (st : State) (d : DevId) (s : SubId) (r : Nat) (v : Word) (d' : DevId) (s' : SubId) (L' : LeafId) :
    (st.setHeadPtr d s r v).enLoAt d' s' L' = st.enLoAt d' s' L' := rfl
@[simp] theorem State.setHeadPtr_shadowMskAt (st : State) (d : DevId) (s : SubId) (r : Nat) (v : Word) (d' : DevId) (s' : SubId) (i' : Nat) :
    (st.setHeadPtr d s r v).shadowMskAt d' s' i' = st.shadowMskAt d' s' i' := rfl
@[simp] theorem State.setHeadPtr_tailPtrAt (st : State) (d : DevId) (s : SubId) (r : Nat) (v : Word) (d' : DevId) (s' : SubId) (r' : Nat) :
    (st.setHeadPtr d s r v).tailPtrAt d' s' r' = st.tailPtrAt d' s' r' := rfl
@[simp] theorem State.setHeadPtr_cbAt (st : State) (d : DevId) (s : SubId) (r : Nat) (v : Word) (d' : DevId) (L' : LeafId) :
    (st.setHeadPtr d s r v).cbAt d' L' = st.cbAt d' L' := rfl
@[simp] theorem State.setHeadPtr_countAt (st : State) (d : DevId) (s : SubId) (r : Nat) (v : Word) (d' : DevId) (L' : LeafId) (b' : Nat) :
    (st.setHeadPtr d s r v).countAt d' L' b' = st.countAt d' L' b' := rfl
@[simp] theorem State.setHeadPtr_countShownAt (st : State) (d : DevId) (s : SubId) (r : Nat) (v : Word) (d' : DevId) (L' : LeafId) (b' : Nat) :
    (st.setHeadPtr d s r v).countShownAt d' L' b' = st.countShownAt d' L' b' := rfl
@[simp] theorem State.setHeadPtr_viewAt (st : State) (d : DevId) (s : SubId) (r : Nat) (v : Word) (d' : DevId) (s' : SubId) (r' : RingId) :
    (st.setHeadPtr d s r v).viewAt d' s' r' = st.viewAt d' s' r' := rfl
@[simp] theorem State.setHeadPtr_logAt (st : State) (d : DevId) (s : SubId) (r : Nat) (v : Word) (j : Nat) :
    (st.setHeadPtr d s r v).logAt j = st.logAt j := rfl
@[simp] theorem State.setHeadPtr_seqAt (st : State) (d : DevId) (s : SubId) (r : Nat) (v : Word) (d' : DevId) :
    (st.setHeadPtr d s r v).seqAt d' = st.seqAt d' := rfl
@[simp] theorem State.setHeadPtr_readyAt (st : State) (d : DevId) (s : SubId) (r : Nat) (v : Word) (d' : DevId) :
    (st.setHeadPtr d s r v).readyAt d' = st.readyAt d' := rfl
@[simp] theorem State.setHeadPtr_threadAt (st : State) (d : DevId) (s : SubId) (r : Nat) (v : Word) (t' : Nat) :
    (st.setHeadPtr d s r v).threadAt t' = st.threadAt t' := rfl
@[simp] theorem State.setTailPtr_statusAt (st : State) (d : DevId) (s : SubId) (r : Nat) (v : Word) (d' : DevId) (s' : SubId) (L' : LeafId) :
    (st.setTailPtr d s r v).statusAt d' s' L' = st.statusAt d' s' L' := rfl
@[simp] theorem State.setTailPtr_enHiAt (st : State) (d : DevId) (s : SubId) (r : Nat) (v : Word) (d' : DevId) (s' : SubId) (L' : LeafId) :
    (st.setTailPtr d s r v).enHiAt d' s' L' = st.enHiAt d' s' L' := rfl
@[simp] theorem State.setTailPtr_enLoAt (st : State) (d : DevId) (s : SubId) (r : Nat) (v : Word) (d' : DevId) (s' : SubId) (L' : LeafId) :
    (st.setTailPtr d s r v).enLoAt d' s' L' = st.enLoAt d' s' L' := rfl
@[simp] theorem State.setTailPtr_shadowMskAt (st : State) (d : DevId) (s : SubId) (r : Nat) (v : Word) (d' : DevId) (s' : SubId) (i' : Nat) :
    (st.setTailPtr d s r v).shadowMskAt d' s' i' = st.shadowMskAt d' s' i' := rfl
@[simp] theorem State.setTailPtr_headPtrAt (st : State) (d : DevId) (s : SubId) (r : Nat) (v : Word) (d' : DevId) (s' : SubId) (r' : Nat) :
    (st.setTailPtr d s r v).headPtrAt d' s' r' = st.headPtrAt d' s' r' := rfl
@[simp] theorem State.setTailPtr_cbAt (st : State) (d : DevId) (s : SubId) (r : Nat) (v : Word) (d' : DevId) (L' : LeafId) :
    (st.setTailPtr d s r v).cbAt d' L' = st.cbAt d' L' := rfl
@[simp] theorem State.setTailPtr_countAt (st : State) (d : DevId) (s : SubId) (r : Nat) (v : Word) (d' : DevId) (L' : LeafId) (b' : Nat) :
    (st.setTailPtr d s r v).countAt d' L' b' = st.countAt d' L' b' := rfl
@[simp] theorem State.setTailPtr_countShownAt (st : State) (d : DevId) (s : SubId) (r : Nat) (v : Word) (d' : DevId) (L' : LeafId) (b' : Nat) :
    (st.setTailPtr d s r v).countShownAt d' L' b' = st.countShownAt d' L' b' := rfl
@[simp] theorem State.setTailPtr_viewAt (st : State) (d : DevId) (s : SubId) (r : Nat) (v : Word) (d' : DevId) (s' : SubId) (r' : RingId) :
    (st.setTailPtr d s r v).viewAt d' s' r' = st.viewAt d' s' r' := rfl
@[simp] theorem State.setTailPtr_logAt (st : State) (d : DevId) (s : SubId) (r : Nat) (v : Word) (j : Nat) :
    (st.setTailPtr d s r v).logAt j = st.logAt j := rfl
@[simp] theorem State.setTailPtr_seqAt (st : State) (d : DevId) (s : SubId) (r : Nat) (v : Word) (d' : DevId) :
    (st.setTailPtr d s r v).seqAt d' = st.seqAt d' := rfl
@[simp] theorem State.setTailPtr_readyAt (st : State) (d : DevId) (s : SubId) (r : Nat) (v : Word) (d' : DevId) :
    (st.setTailPtr d s r v).readyAt d' = st.readyAt d' := rfl
@[simp] theorem State.setTailPtr_threadAt (st : State) (d : DevId) (s : SubId) (r : Nat) (v : Word) (t' : Nat) :
    (st.setTailPtr d s r v).threadAt t' = st.threadAt t' := rfl
@[simp] theorem State.setCb_statusAt (st : State) (d : DevId) (L : LeafId) (v : Option Callback) (d' : DevId) (s' : SubId) (L' : LeafId) :
    (st.setCb d L v).statusAt d' s' L' = st.statusAt d' s' L' := rfl
@[simp] theorem State.setCb_enHiAt (st : State) (d : DevId) (L : LeafId) (v : Option Callback) (d' : DevId) (s' : SubId) (L' : LeafId) :
    (st.setCb d L v).enHiAt d' s' L' = st.enHiAt d' s' L' := rfl
@[simp] theorem State.setCb_enLoAt (st : State) (d : DevId) (L : LeafId) (v : Option Callback) (d' : DevId) (s' : SubId) (L' : LeafId) :
    (st.setCb d L v).enLoAt d' s' L' = st.enLoAt d' s' L' := rfl
@[simp] theorem State.setCb_shadowMskAt (st : State) (d : DevId) (L : LeafId) (v : Option Callback) (d' : DevId) (s' : SubId) (i' : Nat) :
    (st.setCb d L v).shadowMskAt d' s' i' = st.shadowMskAt d' s' i' := rfl
@[simp] theorem State.setCb_headPtrAt (st : State) (d : DevId) (L : LeafId) (v : Option Callback) (d' : DevId) (s' : SubId) (r' : Nat) :
    (st.setCb d L v).headPtrAt d' s' r' = st.headPtrAt d' s' r' := rfl
@[simp] theorem State.setCb_tailPtrAt (st : State) (d : DevId) (L : LeafId) (v : Option Callback) (d' : DevId) (s' : SubId) (r' : Nat) :
    (st.setCb d L v).tailPtrAt d' s' r' = st.tailPtrAt d' s' r' := rfl
@[simp] theorem State.setCb_countAt (st : State) (d : DevId) (L : LeafId) (v : Option Callback) (d' : DevId) (L' : LeafId) (b' : Nat) :
    (st.setCb d L v).countAt d' L' b' = st.countAt d' L' b' := rfl
@[simp] theorem State.setCb_countShownAt (st : State) (d : DevId) (L : LeafId) (v : Option Callback) (d' : DevId) (L' : LeafId) (b' : Nat) :
    (st.setCb d L v).countShownAt d' L' b' = st.countShownAt d' L' b' := rfl
@[simp] theorem State.setCb_viewAt (st : State) (d : DevId) (L : LeafId) (v : Option Callback) (d' : DevId) (s' : SubId) (r' : RingId) :
    (st.setCb d L v).viewAt d' s' r' = st.viewAt d' s' r' := rfl
@[simp] theorem State.setCb_logAt (st : State) (d : DevId) (L : LeafId) (v : Option Callback) (j : Nat) :
    (st.setCb d L v).logAt j = st.logAt j := rfl
@[simp] theorem State.setCb_seqAt (st : State) (d : DevId) (L : LeafId) (v : Option Callback) (d' : DevId) :
    (st.setCb d L v).seqAt d' = st.seqAt d' := rfl
@[simp] theorem State.setCb_readyAt (st : State) (d : DevId) (L : LeafId) (v : Option Callback) (d' : DevId) :
    (st.setCb d L v).readyAt d' = st.readyAt d' := rfl
@[simp] theorem State.setCb_threadAt (st : State) (d : DevId) (L : LeafId) (v : Option Callback) (t' : Nat) :
    (st.setCb d L v).threadAt t' = st.threadAt t' := rfl
@[simp] theorem State.setCount_statusAt (st : State) (d : DevId) (L : LeafId) (b : Nat) (v : Word) (d' : DevId) (s' : SubId) (L' : LeafId) :
    (st.setCount d L b v).statusAt d' s' L' = st.statusAt d' s' L' := rfl
@[simp] theorem State.setCount_enHiAt (st : State) (d : DevId) (L : LeafId) (b : Nat) (v : Word) (d' : DevId) (s' : SubId) (L' : LeafId) :
    (st.setCount d L b v).enHiAt d' s' L' = st.enHiAt d' s' L' := rfl
@[simp] theorem State.setCount_enLoAt (st : State) (d : DevId) (L : LeafId) (b : Nat) (v : Word) (d' : DevId) (s' : SubId) (L' : LeafId) :
    (st.setCount d L b v).enLoAt d' s' L' = st.enLoAt d' s' L' := rfl
@[simp] theorem State.setCount_shadowMskAt (st : State) (d : DevId) (L : LeafId) (b : Nat) (v : Word) (d' : DevId) (s' : SubId) (i' : Nat) :
    (st.setCount d L b v).shadowMskAt d' s' i' = st.shadowMskAt d' s' i' := rfl
@[simp] theorem State.setCount_headPtrAt (st : State) (d : DevId) (L : LeafId) (b : Nat) (v : Word) (d' : DevId) (s' : SubId) (r' : Nat) :
    (st.setCount d L b v).headPtrAt d' s' r' = st.headPtrAt d' s' r' := rfl
@[simp] theorem State.setCount_tailPtrAt (st : State) (d : DevId) (L : LeafId) (b : Nat) (v : Word) (d' : DevId) (s' : SubId) (r' : Nat) :
    (st.setCount d L b v).tailPtrAt d' s' r' = st.tailPtrAt d' s' r' := rfl
@[simp] theorem State.setCount_cbAt (st : State) (d : DevId) (L : LeafId) (b : Nat) (v : Word) (d' : DevId) (L' : LeafId) :
    (st.setCount d L b v).cbAt d' L' = st.cbAt d' L' := rfl
@[simp] theorem State.setCount_countShownAt (st : State) (d : DevId) (L : LeafId) (b : Nat) (v : Word) (d' : DevId) (L' : LeafId) (b' : Nat) :
    (st.setCount d L b v).countShownAt d' L' b' = st.countShownAt d' L' b' := rfl
@[simp] theorem State.setCount_viewAt (st : State) (d : DevId) (L : LeafId) (b : Nat) (v : Word) (d' : DevId) (s' : SubId) (r' : RingId) :
    (st.setCount d L b v).viewAt d' s' r' = st.viewAt d' s' r' := rfl
@[simp] theorem State.setCount_logAt (st : State) (d : DevId) (L : LeafId) (b : Nat) (v : Word) (j : Nat) :
    (st.setCount d L b v).logAt j = st.logAt j := rfl
@[simp] theorem State.setCount_seqAt (st : State) (d : DevId) (L : LeafId) (b : Nat) (v : Word) (d' : DevId) :
    (st.setCount d L b v).seqAt d' = st.seqAt d' := rfl
@[simp] theorem State.setCount_readyAt (st : State) (d : DevId) (L : LeafId) (b : Nat) (v : Word) (d' : DevId) :
    (st.setCount d L b v).readyAt d' = st.readyAt d' := rfl
@[simp] theorem State.setCount_threadAt (st : State) (d : DevId) (L : LeafId) (b : Nat) (v : Word) (t' : Nat) :
    (st.setCount d L b v).threadAt t' = st.threadAt t' := rfl
@[simp] theorem State.setCountShown_statusAt (st : State) (d : DevId) (L : LeafId) (b : Nat) (v : Word) (d' : DevId) (s' : SubId) (L' : LeafId) :
    (st.setCountShown d L b v).statusAt d' s' L' = st.statusAt d' s' L' := rfl
@[simp] theorem State.setCountShown_enHiAt (st : State) (d : DevId) (L : LeafId) (b : Nat) (v : Word) (d' : DevId) (s' : SubId) (L' : LeafId) :
    (st.setCountShown d L b v).enHiAt d' s' L' = st.enHiAt d' s' L' := rfl
@[simp] theorem State.setCountShown_enLoAt (st : State) (d : DevId) (L : LeafId) (b : Nat) (v : Word) (d' : DevId) (s' : SubId) (L' : LeafId) :
    (st.setCountShown d L b v).enLoAt d' s' L' = st.enLoAt d' s' L' := rfl
@[simp] theorem State.setCountShown_shadowMskAt (st : State) (d : DevId) (L : LeafId) (b : Nat) (v : Word) (d' : DevId) (s' : SubId) (i' : Nat) :
    (st.setCountShown d L b v).shadowMskAt d' s' i' = st.shadowMskAt d' s' i' := rfl
@[simp] theorem State.setCountShown_headPtrAt (st : State) (d : DevId) (L : LeafId) (b : Nat) (v : Word) (d' : DevId) (s' : SubId) (r' : Nat) :
    (st.setCountShown d L b v).headPtrAt d' s' r' = st.headPtrAt d' s' r' := rfl
@[simp] theorem State.setCountShown_tailPtrAt (st : State) (d : DevId) (L : LeafId) (b : Nat) (v : Word) (d' : DevId) (s' : SubId) (r' : Nat) :
    (st.setCountShown d L b v).tailPtrAt d' s' r' = st.tailPtrAt d' s' r' := rfl
@[simp] theorem State.setCountShown_cbAt (st : State) (d : DevId) (L : LeafId) (b : Nat) (v : Word) (d' : DevId) (L' : LeafId) :
    (st.setCountShown d L b v).cbAt d' L' = st.cbAt d' L' := rfl
@[simp] theorem State.setCountShown_countAt (st : State) (d : DevId) (L : LeafId) (b : Nat) (v : Word) (d' : DevId) (L' : LeafId) (b' : Nat) :
    (st.setCountShown d L b v).countAt d' L' b' = st.countAt d' L' b' := rfl
@[simp] theorem State.setCountShown_viewAt (st : State) (d : DevId) (L : LeafId) (b : Nat) (v : Word) (d' : DevId) (s' : SubId) (r' : RingId) :
    (st.setCountShown d L b v).viewAt d' s' r' = st.viewAt d' s' r' := rfl
@[simp] theorem State.setCountShown_logAt (st : State) (d : DevId) (L : LeafId) (b : Nat) (v : Word) (j : Nat) :
    (st.setCountShown d L b v).logAt j = st.logAt j := rfl
@[simp] theorem State.setCountShown_seqAt (st : State) (d : DevId) (L : LeafId) (b : Nat) (v : Word) (d' : DevId) :
    (st.setCountShown d L b v).seqAt d' = st.seqAt d' := rfl
@[simp] theorem State.setCountShown_readyAt (st : State) (d : DevId) (L : LeafId) (b : Nat) (v : Word) (d' : DevId) :
    (st.setCountShown d L b v).readyAt d' = st.readyAt d' := rfl
@[simp] theorem State.setCountShown_threadAt (st : State) (d : DevId) (L : LeafId) (b : Nat) (v : Word) (t' : Nat) :
    (st.setCountShown d L b v).threadAt t' = st.threadAt t' := rfl
@[simp] theorem State.setView_statusAt (st : State) (d : DevId) (s : SubId) (r : RingId) (v : View) (d' : DevId) (s' : SubId) (L' : LeafId) :
    (st.setView d s r v).statusAt d' s' L' = st.statusAt d' s' L' := rfl
@[simp] theorem State.setView_enHiAt (st : State) (d : DevId) (s : SubId) (r : RingId) (v : View) (d' : DevId) (s' : SubId) (L' : LeafId) :
    (st.setView d s r v).enHiAt d' s' L' = st.enHiAt d' s' L' := rfl
@[simp] theorem State.setView_enLoAt (st : State) (d : DevId) (s : SubId) (r : RingId) (v : View) (d' : DevId) (s' : SubId) (L' : LeafId) :
    (st.setView d s r v).enLoAt d' s' L' = st.enLoAt d' s' L' := rfl
@[simp] theorem State.setView_shadowMskAt (st : State) (d : DevId) (s : SubId) (r : RingId) (v : View) (d' : DevId) (s' : SubId) (i' : Nat) :
    (st.setView d s r v).shadowMskAt d' s' i' = st.shadowMskAt d' s' i' := rfl
@[simp] theorem State.setView_headPtrAt (st : State) (d : DevId) (s : SubId) (r : RingId) (v : View) (d' : DevId) (s' : SubId) (r' : Nat) :
    (st.setView d s r v).headPtrAt d' s' r' = st.headPtrAt d' s' r' := rfl
@[simp] theorem State.setView_tailPtrAt (st : State) (d : DevId) (s : SubId) (r : RingId) (v : View) (d' : DevId) (s' : SubId) (r' : Nat) :
    (st.setView d s r v).tailPtrAt d' s' r' = st.tailPtrAt d' s' r' := rfl
@[simp] theorem State.setView_cbAt (st : State) (d : DevId) (s : SubId) (r : RingId) (v : View) (d' : DevId) (L' : LeafId) :
    (st.setView d s r v).cbAt d' L' = st.cbAt d' L' := rfl
@[simp] theorem State.setView_countAt (st : State) (d : DevId) (s : SubId) (r : RingId) (v : View) (d' : DevId) (L' : LeafId) (b' : Nat) :
    (st.setView d s r v).countAt d' L' b' = st.countAt d' L' b' := rfl
@[simp] theorem State.setView_countShownAt (st : State) (d : DevId) (s : SubId) (r : RingId) (v : View) (d' : DevId) (L' : LeafId) (b' : Nat) :
    (st.setView d s r v).countShownAt d' L' b' = st.countShownAt d' L' b' := rfl
@[simp] theorem State.setView_logAt (st : State) (d : DevId) (s : SubId) (r : RingId) (v : View) (j : Nat) :
    (st.setView d s r v).logAt j = st.logAt j := rfl
@[simp] theorem State.setView_seqAt (st : State) (d : DevId) (s : SubId) (r : RingId) (v : View) (d' : DevId) :
    (st.setView d s r v).seqAt d' = st.seqAt d' := rfl
@[simp] theorem State.setView_readyAt (st : State) (d : DevId) (s : SubId) (r : RingId) (v : View) (d' : DevId) :
    (st.setView d s r v).readyAt d' = st.readyAt d' := rfl
@[simp] theorem State.setView_threadAt (st : State) (d : DevId) (s : SubId) (r : RingId) (v : View) (t' : Nat) :
    (st.setView d s r v).threadAt t' = st.threadAt t' := rfl
@[simp] theorem State.setLog_statusAt (st : State) (slot : Nat) (e : LogEntry) (d' : DevId) (s' : SubId) (L' : LeafId) :
    (st.setLog slot e).statusAt d' s' L' = st.statusAt d' s' L' := rfl
@[simp] theorem State.setLog_enHiAt (st : State) (slot : Nat) (e : LogEntry) (d' : DevId) (s' : SubId) (L' : LeafId) :
    (st.setLog slot e).enHiAt d' s' L' = st.enHiAt d' s' L' := rfl
@[simp] theorem State.setLog_enLoAt (st : State) (slot : Nat) (e : LogEntry) (d' : DevId) (s' : SubId) (L' : LeafId) :
    (st.setLog slot e).enLoAt d' s' L' = st.enLoAt d' s' L' := rfl
@[simp] theorem State.setLog_shadowMskAt (st : State) (slot : Nat) (e : LogEntry) (d' : DevId) (s' : SubId) (i' : Nat) :
    (st.setLog slot e).shadowMskAt d' s' i' = st.shadowMskAt d' s' i' := rfl
@[simp] theorem State.setLog_headPtrAt (st : State) (slot : Nat) (e : LogEntry) (d' : DevId) (s' : SubId) (r' : Nat) :
    (st.setLog slot e).headPtrAt d' s' r' = st.headPtrAt d' s' r' := rfl
@[simp] theorem State.setLog_tailPtrAt (st : State) (slot : Nat) (e : LogEntry) (d' : DevId) (s' : SubId) (r' : Nat) :
    (st.setLog slot e).tailPtrAt d' s' r' = st.tailPtrAt d' s' r' := rfl
@[simp] theorem State.setLog_cbAt (st : State) (slot : Nat) (e : LogEntry) (d' : DevId) (L' : LeafId) :
    (st.setLog slot e).cbAt d' L' = st.cbAt d' L' := rfl
@[simp] theorem State.setLog_countAt (st : State) (slot : Nat) (e : LogEntry) (d' : DevId) (L' : LeafId) (b' : Nat) :
    (st.setLog slot e).countAt d' L' b' = st.countAt d' L' b' := rfl
@[simp] theorem State.setLog_countShownAt (st : State) (slot : Nat) (e : LogEntry) (d' : DevId) (L' : LeafId) (b' : Nat) :
    (st.setLog slot e).countShownAt d' L' b' = st.countShownAt d' L' b' := rfl
@[simp] theorem State.setLog_viewAt (st : State) (slot : Nat) (e : LogEntry) (d' : DevId) (s' : SubId) (r' : RingId) :
    (st.setLog slot e).viewAt d' s' r' = st.viewAt d' s' r' := rfl
@[simp] theorem State.setLog_seqAt (st : State) (slot : Nat) (e : LogEntry) (d' : DevId) :
    (st.setLog slot e).seqAt d' = st.seqAt d' := rfl
@[simp] theorem State.setLog_readyAt (st : State) (slot : Nat) (e : LogEntry) (d' : DevId) :
    (st.setLog slot e).readyAt d' = st.readyAt d' := rfl
@[simp] theorem State.setLog_threadAt (st : State) (slot : Nat) (e : LogEntry) (t' : Nat) :
    (st.setLog slot e).threadAt t' = st.threadAt t' := rfl
@[simp] theorem State.setSeq_statusAt (st : State) (d : DevId) (q : Seq) (d' : DevId) (s' : SubId) (L' : LeafId) :
    (st.setSeq d q).statusAt d' s' L' = st.statusAt d' s' L' := rfl
@[simp] theorem State.setSeq_enHiAt (st : State) (d : DevId) (q : Seq) (d' : DevId) (s' : SubId) (L' : LeafId) :
    (st.setSeq d q).enHiAt d' s' L' = st.enHiAt d' s' L' := rfl
@[simp] theorem State.setSeq_enLoAt (st : State) (d : DevId) (q : Seq) (d' : DevId) (s' : SubId) (L' : LeafId) :
    (st.setSeq d q).enLoAt d' s' L' = st.enLoAt d' s' L' := rfl
@[simp] theorem State.setSeq_shadowMskAt (st : State) (d : DevId) (q : Seq) (d' : DevId) (s' : SubId) (i' : Nat) :
    (st.setSeq d q).shadowMskAt d' s' i' = st.shadowMskAt d' s' i' := rfl
@[simp] theorem State.setSeq_headPtrAt (st : State) (d : DevId) (q : Seq) (d' : DevId) (s' : SubId) (r' : Nat) :
    (st.setSeq d q).headPtrAt d' s' r' = st.headPtrAt d' s' r' := rfl
@[simp] theorem State.setSeq_tailPtrAt (st : State) (d : DevId) (q : Seq) (d' : DevId) (s' : SubId) (r' : Nat) :
    (st.setSeq d q).tailPtrAt d' s' r' = st.tailPtrAt d' s' r' := rfl
@[simp] theorem State.setSeq_cbAt (st : State) (d : DevId) (q : Seq) (d' : DevId) (L' : LeafId) :
    (st.setSeq d q).cbAt d' L' = st.cbAt d' L' := rfl
@[simp] theorem State.setSeq_countAt (st : State) (d : DevId) (q : Seq) (d' : DevId) (L' : LeafId) (b' : Nat) :
    (st.setSeq d q).countAt d' L' b' = st.countAt d' L' b' := rfl
@[simp] theorem State.setSeq_countShownAt (st : State) (d : DevId) (q : Seq) (d' : DevId) (L' : LeafId) (b' : Nat) :
    (st.setSeq d q).countShownAt d' L' b' = st.countShownAt d' L' b' := rfl
@[simp] theorem State.setSeq_viewAt (st : State) (d : DevId) (q : Seq) (d' : DevId) (s' : SubId) (r' : RingId) :
    (st.setSeq d q).viewAt d' s' r' = st.viewAt d' s' r' := rfl
@[simp] theorem State.setSeq_logAt (st : State) (d : DevId) (q : Seq) (j : Nat) :
    (st.setSeq d q).logAt j = st.logAt j := rfl
@[simp] theorem State.setSeq_readyAt (st : State) (d : DevId) (q : Seq) (d' : DevId) :
    (st.setSeq d q).readyAt d' = st.readyAt d' := rfl
@[simp] theorem State.setSeq_threadAt (st : State) (d : DevId) (q : Seq) (t' : Nat) :
    (st.setSeq d q).threadAt t' = st.threadAt t' := rfl
@[simp] theorem State.setReady_statusAt (st : State) (d : DevId) (b : Bool) (d' : DevId) (s' : SubId) (L' : LeafId) :
    (st.setReady d b).statusAt d' s' L' = st.statusAt d' s' L' := rfl
@[simp] theorem State.setReady_enHiAt (st : State) (d : DevId) (b : Bool) (d' : DevId) (s' : SubId) (L' : LeafId) :
    (st.setReady d b).enHiAt d' s' L' = st.enHiAt d' s' L' := rfl
@[simp] theorem State.setReady_enLoAt (st : State) (d : DevId) (b : Bool) (d' : DevId) (s' : SubId) (L' : LeafId) :
    (st.setReady d b).enLoAt d' s' L' = st.enLoAt d' s' L' := rfl
@[simp] theorem State.setReady_shadowMskAt (st : State) (d : DevId) (b : Bool) (d' : DevId) (s' : SubId) (i' : Nat) :
    (st.setReady d b).shadowMskAt d' s' i' = st.shadowMskAt d' s' i' := rfl
@[simp] theorem State.setReady_headPtrAt (st : State) (d : DevId) (b : Bool) (d' : DevId) (s' : SubId) (r' : Nat) :
    (st.setReady d b).headPtrAt d' s' r' = st.headPtrAt d' s' r' := rfl
@[simp] theorem State.setReady_tailPtrAt (st : State) (d : DevId) (b : Bool) (d' : DevId) (s' : SubId) (r' : Nat) :
    (st.setReady d b).tailPtrAt d' s' r' = st.tailPtrAt d' s' r' := rfl
@[simp] theorem State.setReady_cbAt (st : State) (d : DevId) (b : Bool) (d' : DevId) (L' : LeafId) :
    (st.setReady d b).cbAt d' L' = st.cbAt d' L' := rfl
@[simp] theorem State.setReady_countAt (st : State) (d : DevId) (b : Bool) (d' : DevId) (L' : LeafId) (b' : Nat) :
    (st.setReady d b).countAt d' L' b' = st.countAt d' L' b' := rfl
@[simp] theorem State.setReady_countShownAt (st : State) (d : DevId) (b : Bool) (d' : DevId) (L' : LeafId) (b' : Nat) :
    (st.setReady d b).countShownAt d' L' b' = st.countShownAt d' L' b' := rfl
@[simp] theorem State.setReady_viewAt (st : State) (d : DevId) (b : Bool) (d' : DevId) (s' : SubId) (r' : RingId) :
    (st.setReady d b).viewAt d' s' r' = st.viewAt d' s' r' := rfl
@[simp] theorem State.setReady_logAt (st : State) (d : DevId) (b : Bool) (j : Nat) :
    (st.setReady d b).logAt j = st.logAt j := rfl
@[simp] theorem State.setReady_seqAt (st : State) (d : DevId) (b : Bool) (d' : DevId) :
    (st.setReady d b).seqAt d' = st.seqAt d' := rfl
@[simp] theorem State.setReady_threadAt (st : State) (d : DevId) (b : Bool) (t' : Nat) :
    (st.setReady d b).threadAt t' = st.threadAt t' := rfl
@[simp] theorem State.setThread_statusAt (st : State) (t : Nat) (th : Thread) (d' : DevId) (s' : SubId) (L' : LeafId) :
    (st.setThread t th).statusAt d' s' L' = st.statusAt d' s' L' := rfl
@[simp] theorem State.setThread_enHiAt (st : State) (t : Nat) (th : Thread) (d' : DevId) (s' : SubId) (L' : LeafId) :
    (st.setThread t th).enHiAt d' s' L' = st.enHiAt d' s' L' := rfl
@[simp] theorem State.setThread_enLoAt (st : State) (t : Nat) (th : Thread) (d' : DevId) (s' : SubId) (L' : LeafId) :
    (st.setThread t th).enLoAt d' s' L' = st.enLoAt d' s' L' := rfl
@[simp] theorem State.setThread_shadowMskAt (st : State) (t : Nat) (th : Thread) (d' : DevId) (s' : SubId) (i' : Nat) :
    (st.setThread t th).shadowMskAt d' s' i' = st.shadowMskAt d' s' i' := rfl
@[simp] theorem State.setThread_headPtrAt (st : State) (t : Nat) (th : Thread) (d' : DevId) (s' : SubId) (r' : Nat) :
    (st.setThread t th).headPtrAt d' s' r' = st.headPtrAt d' s' r' := rfl
@[simp] theorem State.setThread_tailPtrAt (st : State) (t : Nat) (th : Thread) (d' : DevId) (s' : SubId) (r' : Nat) :
    (st.setThread t th).tailPtrAt d' s' r' = st.tailPtrAt d' s' r' := rfl
@[simp] theorem State.setThread_cbAt (st : State) (t : Nat) (th : Thread) (d' : DevId) (L' : LeafId) :
    (st.setThread t th).cbAt d' L' = st.cbAt d' L' := rfl
@[simp] theorem State.setThread_countAt (st : State) (t : Nat) (th : Thread) (d' : DevId) (L' : LeafId) (b' : Nat) :
    (st.setThread t th).countAt d' L' b' = st.countAt d' L' b' := rfl
@[simp] theorem State.setThread_countShownAt (st : State) (t : Nat) (th : Thread) (d' : DevId) (L' : LeafId) (b' : Nat) :
    (st.setThread t th).countShownAt d' L' b' = st.countShownAt d' L' b' := rfl
@[simp] theorem State.setThread_viewAt (st : State) (t : Nat) (th : Thread) (d' : DevId) (s' : SubId) (r' : RingId) :
    (st.setThread t th).viewAt d' s' r' = st.viewAt d' s' r' := rfl
@[simp] theorem State.setThread_logAt (st : State) (t : Nat) (th : Thread) (j : Nat) :
    (st.setThread t th).logAt j = st.logAt j := rfl
@[simp] theorem State.setThread_seqAt (st : State) (t : Nat) (th : Thread) (d' : DevId) :
    (st.setThread t th).seqAt d' = st.seqAt d' := rfl
@[simp] theorem State.setThread_readyAt (st : State) (t : Nat) (th : Thread) (d' : DevId) :
    (st.setThread t th).readyAt d' = st.readyAt d' := rfl
@[simp] theorem State.emit_statusAt (st : State) (e : Event) (d' : DevId) (s' : SubId) (L' : LeafId) :
    (st.emit e).statusAt d' s' L' = st.statusAt d' s' L' := rfl
@[simp] theorem State.emit_enHiAt (st : State) (e : Event) (d' : DevId) (s' : SubId) (L' : LeafId) :
    (st.emit e).enHiAt d' s' L' = st.enHiAt d' s' L' := rfl
@[simp] theorem State.emit_enLoAt (st : State) (e : Event) (d' : DevId) (s' : SubId) (L' : LeafId) :
    (st.emit e).enLoAt d' s' L' = st.enLoAt d' s' L' := rfl
@[simp] theorem State.emit_shadowMskAt (st : State) (e : Event) (d' : DevId) (s' : SubId) (i' : Nat) :
    (st.emit e).shadowMskAt d' s' i' = st.shadowMskAt d' s' i' := rfl
@[simp] theorem State.emit_headPtrAt (st : State) (e : Event) (d' : DevId) (s' : SubId) (r' : Nat) :
    (st.emit e).headPtrAt d' s' r' = st.headPtrAt d' s' r' := rfl
@[simp] theorem State.emit_tailPtrAt (st : State) (e : Event) (d' : DevId) (s' : SubId) (r' : Nat) :
    (st.emit e).tailPtrAt d' s' r' = st.tailPtrAt d' s' r' := rfl
@[simp] theorem State.emit_cbAt (st : State) (e : Event) (d' : DevId) (L' : LeafId) :
    (st.emit e).cbAt d' L' = st.cbAt d' L' := rfl
@[simp] theorem State.emit_countAt (st : State) (e : Event) (d' : DevId) (L' : LeafId) (b' : Nat) :
    (st.emit e).countAt d' L' b' = st.countAt d' L' b' := rfl
@[simp] theorem State.emit_countShownAt (st : State) (e : Event) (d' : DevId) (L' : LeafId) (b' : Nat) :
    (st.emit e).countShownAt d' L' b' = st.countShownAt d' L' b' := rfl
@[simp] theorem State.emit_viewAt (st : State) (e : Event) (d' : DevId) (s' : SubId) (r' : RingId) :
    (st.emit e).viewAt d' s' r' = st.viewAt d' s' r' := rfl
@[simp] theorem State.emit_logAt (st : State) (e : Event) (j : Nat) :
    (st.emit e).logAt j = st.logAt j := rfl
@[simp] theorem State.emit_seqAt (st : State) (e : Event) (d' : DevId) :
    (st.emit e).seqAt d' = st.seqAt d' := rfl
@[simp] theorem State.emit_readyAt (st : State) (e : Event) (d' : DevId) :
    (st.emit e).readyAt d' = st.readyAt d' := rfl
@[simp] theorem State.emit_threadAt (st : State) (e : Event) (t' : Nat) :
    (st.emit e).threadAt t' = st.threadAt t' := rfl
@[simp] theorem State.respond_statusAt (st : State) (r : Response) (d' : DevId) (s' : SubId) (L' : LeafId) :
    (st.respond r).statusAt d' s' L' = st.statusAt d' s' L' := rfl
@[simp] theorem State.respond_enHiAt (st : State) (r : Response) (d' : DevId) (s' : SubId) (L' : LeafId) :
    (st.respond r).enHiAt d' s' L' = st.enHiAt d' s' L' := rfl
@[simp] theorem State.respond_enLoAt (st : State) (r : Response) (d' : DevId) (s' : SubId) (L' : LeafId) :
    (st.respond r).enLoAt d' s' L' = st.enLoAt d' s' L' := rfl
@[simp] theorem State.respond_shadowMskAt (st : State) (r : Response) (d' : DevId) (s' : SubId) (i' : Nat) :
    (st.respond r).shadowMskAt d' s' i' = st.shadowMskAt d' s' i' := rfl
@[simp] theorem State.respond_headPtrAt (st : State) (r : Response) (d' : DevId) (s' : SubId) (r' : Nat) :
    (st.respond r).headPtrAt d' s' r' = st.headPtrAt d' s' r' := rfl
@[simp] theorem State.respond_tailPtrAt (st : State) (r : Response) (d' : DevId) (s' : SubId) (r' : Nat) :
    (st.respond r).tailPtrAt d' s' r' = st.tailPtrAt d' s' r' := rfl
@[simp] theorem State.respond_cbAt (st : State) (r : Response) (d' : DevId) (L' : LeafId) :
    (st.respond r).cbAt d' L' = st.cbAt d' L' := rfl
@[simp] theorem State.respond_countAt (st : State) (r : Response) (d' : DevId) (L' : LeafId) (b' : Nat) :
    (st.respond r).countAt d' L' b' = st.countAt d' L' b' := rfl
@[simp] theorem State.respond_countShownAt (st : State) (r : Response) (d' : DevId) (L' : LeafId) (b' : Nat) :
    (st.respond r).countShownAt d' L' b' = st.countShownAt d' L' b' := rfl
@[simp] theorem State.respond_viewAt (st : State) (r : Response) (d' : DevId) (s' : SubId) (r' : RingId) :
    (st.respond r).viewAt d' s' r' = st.viewAt d' s' r' := rfl
@[simp] theorem State.respond_logAt (st : State) (r : Response) (j : Nat) :
    (st.respond r).logAt j = st.logAt j := rfl
@[simp] theorem State.respond_seqAt (st : State) (r : Response) (d' : DevId) :
    (st.respond r).seqAt d' = st.seqAt d' := rfl
@[simp] theorem State.respond_readyAt (st : State) (r : Response) (d' : DevId) :
    (st.respond r).readyAt d' = st.readyAt d' := rfl
@[simp] theorem State.respond_threadAt (st : State) (r : Response) (t' : Nat) :
    (st.respond r).threadAt t' = st.threadAt t' := rfl
@[simp] theorem State.setPolling_statusAt (st : State) (ds : List DevId) (d' : DevId) (s' : SubId) (L' : LeafId) :
    (st.setPolling ds).statusAt d' s' L' = st.statusAt d' s' L' := rfl
@[simp] theorem State.setPolling_enHiAt (st : State) (ds : List DevId) (d' : DevId) (s' : SubId) (L' : LeafId) :
    (st.setPolling ds).enHiAt d' s' L' = st.enHiAt d' s' L' := rfl
@[simp] theorem State.setPolling_enLoAt (st : State) (ds : List DevId) (d' : DevId) (s' : SubId) (L' : LeafId) :
    (st.setPolling ds).enLoAt d' s' L' = st.enLoAt d' s' L' := rfl
@[simp] theorem State.setPolling_shadowMskAt (st : State) (ds : List DevId) (d' : DevId) (s' : SubId) (i' : Nat) :
    (st.setPolling ds).shadowMskAt d' s' i' = st.shadowMskAt d' s' i' := rfl
@[simp] theorem State.setPolling_headPtrAt (st : State) (ds : List DevId) (d' : DevId) (s' : SubId) (r' : Nat) :
    (st.setPolling ds).headPtrAt d' s' r' = st.headPtrAt d' s' r' := rfl
@[simp] theorem State.setPolling_tailPtrAt (st : State) (ds : List DevId) (d' : DevId) (s' : SubId) (r' : Nat) :
    (st.setPolling ds).tailPtrAt d' s' r' = st.tailPtrAt d' s' r' := rfl
@[simp] theorem State.setPolling_cbAt (st : State) (ds : List DevId) (d' : DevId) (L' : LeafId) :
    (st.setPolling ds).cbAt d' L' = st.cbAt d' L' := rfl
@[simp] theorem State.setPolling_countAt (st : State) (ds : List DevId) (d' : DevId) (L' : LeafId) (b' : Nat) :
    (st.setPolling ds).countAt d' L' b' = st.countAt d' L' b' := rfl
@[simp] theorem State.setPolling_countShownAt (st : State) (ds : List DevId) (d' : DevId) (L' : LeafId) (b' : Nat) :
    (st.setPolling ds).countShownAt d' L' b' = st.countShownAt d' L' b' := rfl
@[simp] theorem State.setPolling_viewAt (st : State) (ds : List DevId) (d' : DevId) (s' : SubId) (r' : RingId) :
    (st.setPolling ds).viewAt d' s' r' = st.viewAt d' s' r' := rfl
@[simp] theorem State.setPolling_logAt (st : State) (ds : List DevId) (j : Nat) :
    (st.setPolling ds).logAt j = st.logAt j := rfl
@[simp] theorem State.setPolling_seqAt (st : State) (ds : List DevId) (d' : DevId) :
    (st.setPolling ds).seqAt d' = st.seqAt d' := rfl
@[simp] theorem State.setPolling_readyAt (st : State) (ds : List DevId) (d' : DevId) :
    (st.setPolling ds).readyAt d' = st.readyAt d' := rfl
@[simp] theorem State.setPolling_threadAt (st : State) (ds : List DevId) (t' : Nat) :
    (st.setPolling ds).threadAt t' = st.threadAt t' := rfl
@[simp] theorem State.setPort_statusAt (st : State) (ws : List Word) (d' : DevId) (s' : SubId) (L' : LeafId) :
    (st.setPort ws).statusAt d' s' L' = st.statusAt d' s' L' := rfl
@[simp] theorem State.setPort_enHiAt (st : State) (ws : List Word) (d' : DevId) (s' : SubId) (L' : LeafId) :
    (st.setPort ws).enHiAt d' s' L' = st.enHiAt d' s' L' := rfl
@[simp] theorem State.setPort_enLoAt (st : State) (ws : List Word) (d' : DevId) (s' : SubId) (L' : LeafId) :
    (st.setPort ws).enLoAt d' s' L' = st.enLoAt d' s' L' := rfl
@[simp] theorem State.setPort_shadowMskAt (st : State) (ws : List Word) (d' : DevId) (s' : SubId) (i' : Nat) :
    (st.setPort ws).shadowMskAt d' s' i' = st.shadowMskAt d' s' i' := rfl
@[simp] theorem State.setPort_headPtrAt (st : State) (ws : List Word) (d' : DevId) (s' : SubId) (r' : Nat) :
    (st.setPort ws).headPtrAt d' s' r' = st.headPtrAt d' s' r' := rfl
@[simp] theorem State.setPort_tailPtrAt (st : State) (ws : List Word) (d' : DevId) (s' : SubId) (r' : Nat) :
    (st.setPort ws).tailPtrAt d' s' r' = st.tailPtrAt d' s' r' := rfl
@[simp] theorem State.setPort_cbAt (st : State) (ws : List Word) (d' : DevId) (L' : LeafId) :
    (st.setPort ws).cbAt d' L' = st.cbAt d' L' := rfl
@[simp] theorem State.setPort_countAt (st : State) (ws : List Word) (d' : DevId) (L' : LeafId) (b' : Nat) :
    (st.setPort ws).countAt d' L' b' = st.countAt d' L' b' := rfl
@[simp] theorem State.setPort_countShownAt (st : State) (ws : List Word) (d' : DevId) (L' : LeafId) (b' : Nat) :
    (st.setPort ws).countShownAt d' L' b' = st.countShownAt d' L' b' := rfl
@[simp] theorem State.setPort_viewAt (st : State) (ws : List Word) (d' : DevId) (s' : SubId) (r' : RingId) :
    (st.setPort ws).viewAt d' s' r' = st.viewAt d' s' r' := rfl
@[simp] theorem State.setPort_logAt (st : State) (ws : List Word) (j : Nat) :
    (st.setPort ws).logAt j = st.logAt j := rfl
@[simp] theorem State.setPort_seqAt (st : State) (ws : List Word) (d' : DevId) :
    (st.setPort ws).seqAt d' = st.seqAt d' := rfl
@[simp] theorem State.setPort_readyAt (st : State) (ws : List Word) (d' : DevId) :
    (st.setPort ws).readyAt d' = st.readyAt d' := rfl
@[simp] theorem State.setPort_threadAt (st : State) (ws : List Word) (t' : Nat) :
    (st.setPort ws).threadAt t' = st.threadAt t' := rfl

/-! ## What an update wrote -/

theorem State.statusAt_setStatus (st : State) (d d' : DevId) (s s' : SubId) (L L' : LeafId) (v : Word) :
    (st.setStatus d s L v).statusAt d' s' L' = if d' = d ∧ s' = s ∧ L' = L then v else st.statusAt d' s' L' := by
  unfold State.statusAt State.setStatus Memory.read Memory.write
  rw [Store.get_put]
  simp only [dsKey_inj]

@[simp] theorem State.statusAt_setStatus_same (st : State) (d : DevId) (s : SubId) (L : LeafId) (v : Word) :
    (st.setStatus d s L v).statusAt d s L = v := by
  rw [State.statusAt_setStatus, if_pos ⟨rfl, rfl, rfl⟩]

theorem State.enHiAt_setEnHi (st : State) (d d' : DevId) (s s' : SubId) (L L' : LeafId) (v : Word) :
    (st.setEnHi d s L v).enHiAt d' s' L' = if d' = d ∧ s' = s ∧ L' = L then v else st.enHiAt d' s' L' := by
  unfold State.enHiAt State.setEnHi Memory.read Memory.write
  rw [Store.get_put]
  simp only [dsKey_inj]

@[simp] theorem State.enHiAt_setEnHi_same (st : State) (d : DevId) (s : SubId) (L : LeafId) (v : Word) :
    (st.setEnHi d s L v).enHiAt d s L = v := by
  rw [State.enHiAt_setEnHi, if_pos ⟨rfl, rfl, rfl⟩]

theorem State.enLoAt_setEnLo (st : State) (d d' : DevId) (s s' : SubId) (L L' : LeafId) (v : Word) :
    (st.setEnLo d s L v).enLoAt d' s' L' = if d' = d ∧ s' = s ∧ L' = L then v else st.enLoAt d' s' L' := by
  unfold State.enLoAt State.setEnLo Memory.read Memory.write
  rw [Store.get_put]
  simp only [dsKey_inj]

@[simp] theorem State.enLoAt_setEnLo_same (st : State) (d : DevId) (s : SubId) (L : LeafId) (v : Word) :
    (st.setEnLo d s L v).enLoAt d s L = v := by
  rw [State.enLoAt_setEnLo, if_pos ⟨rfl, rfl, rfl⟩]

theorem State.shadowMskAt_setShadowMsk (st : State) (d d' : DevId) (s s' : SubId) (i i' : Nat) (v : Word) :
    (st.setShadowMsk d s i v).shadowMskAt d' s' i' = if d' = d ∧ s' = s ∧ i' = i then v else st.shadowMskAt d' s' i' := by
  unfold State.shadowMskAt State.setShadowMsk Memory.read Memory.write
  rw [Store.get_put]
  simp only [dsKey_inj]

@[simp] theorem State.shadowMskAt_setShadowMsk_same (st : State) (d : DevId) (s : SubId) (i : Nat) (v : Word) :
    (st.setShadowMsk d s i v).shadowMskAt d s i = v := by
  rw [State.shadowMskAt_setShadowMsk, if_pos ⟨rfl, rfl, rfl⟩]

theorem State.headPtrAt_setHeadPtr (st : State) (d d' : DevId) (s s' : SubId) (r r' : Nat) (v : Word) :
    (st.setHeadPtr d s r v).headPtrAt d' s' r' = if d' = d ∧ s' = s ∧ r' = r then v else st.headPtrAt d' s' r' := by
  unfold State.headPtrAt State.setHeadPtr Memory.read Memory.write
  rw [Store.get_put]
  simp only [dsKey_inj]

@[simp] theorem State.headPtrAt_setHeadPtr_same (st : State) (d : DevId) (s : SubId) (r : Nat) (v : Word) :
    (st.setHeadPtr d s r v).headPtrAt d s r = v := by
  rw [State.headPtrAt_setHeadPtr, if_pos ⟨rfl, rfl, rfl⟩]

theorem State.tailPtrAt_setTailPtr (st : State) (d d' : DevId) (s s' : SubId) (r r' : Nat) (v : Word) :
    (st.setTailPtr d s r v).tailPtrAt d' s' r' = if d' = d ∧ s' = s ∧ r' = r then v else st.tailPtrAt d' s' r' := by
  unfold State.tailPtrAt State.setTailPtr Memory.read Memory.write
  rw [Store.get_put]
  simp only [dsKey_inj]

@[simp] theorem State.tailPtrAt_setTailPtr_same (st : State) (d : DevId) (s : SubId) (r : Nat) (v : Word) :
    (st.setTailPtr d s r v).tailPtrAt d s r = v := by
  rw [State.tailPtrAt_setTailPtr, if_pos ⟨rfl, rfl, rfl⟩]

theorem State.countAt_setCount (st : State) (d d' : DevId) (L L' : LeafId) (b b' : Nat) (v : Word) (hb : b < nBit)
    (hb' : b' < nBit) :
    (st.setCount d L b v).countAt d' L' b' = if d' = d ∧ L' = L ∧ b' = b then v else st.countAt d' L' b' := by
  unfold State.countAt State.setCount Memory.read Memory.write
  rw [Store.get_put]
  simp only [cntKey_inj d' d L' L b' b hb' hb]

@[simp] theorem State.countAt_setCount_same (st : State) (d : DevId) (L : LeafId) (b : Nat) (v : Word) :
    (st.setCount d L b v).countAt d L b = v := by
  unfold State.countAt State.setCount Memory.read Memory.write
  simp

theorem State.countShownAt_setCountShown (st : State) (d d' : DevId) (L L' : LeafId) (b b' : Nat) (v : Word) (hb : b < nBit)
    (hb' : b' < nBit) :
    (st.setCountShown d L b v).countShownAt d' L' b' = if d' = d ∧ L' = L ∧ b' = b then v else st.countShownAt d' L' b' := by
  unfold State.countShownAt State.setCountShown Memory.read Memory.write
  rw [Store.get_put]
  simp only [cntKey_inj d' d L' L b' b hb' hb]

@[simp] theorem State.countShownAt_setCountShown_same (st : State) (d : DevId) (L : LeafId) (b : Nat) (v : Word) :
    (st.setCountShown d L b v).countShownAt d L b = v := by
  unfold State.countShownAt State.setCountShown Memory.read Memory.write
  simp

theorem State.cbAt_setCb (st : State) (d d' : DevId) (L L' : LeafId) (v : Option Callback) :
    (st.setCb d L v).cbAt d' L' = if d' = d ∧ L' = L then v else st.cbAt d' L' := by
  unfold State.cbAt State.setCb
  rw [Store.get_put]
  simp only [dKey_inj]

@[simp] theorem State.cbAt_setCb_same (st : State) (d : DevId) (L : LeafId) (v : Option Callback) :
    (st.setCb d L v).cbAt d L = v := by
  rw [State.cbAt_setCb, if_pos ⟨rfl, rfl⟩]

theorem State.viewAt_setView (st : State) (d d' : DevId) (s s' : SubId) (r r' : RingId) (v : View) :
    (st.setView d s r v).viewAt d' s' r' = if d' = d ∧ s' = s ∧ r' = r then v else st.viewAt d' s' r' := by
  unfold State.viewAt State.setView
  rw [Store.get_put]
  simp only [ringKey_inj]

@[simp] theorem State.viewAt_setView_same (st : State) (d : DevId) (s : SubId) (r : RingId) (v : View) :
    (st.setView d s r v).viewAt d s r = v := by
  rw [State.viewAt_setView, if_pos ⟨rfl, rfl, rfl⟩]

theorem State.logAt_setLog (st : State) (slot j : Nat) (e : LogEntry) :
    (st.setLog slot e).logAt j = if j = slot then e else st.logAt j := by
  unfold State.logAt State.setLog
  rw [Store.get_put]

@[simp] theorem State.logAt_setLog_same (st : State) (slot : Nat) (e : LogEntry) : (st.setLog slot e).logAt slot = e := by
  rw [State.logAt_setLog, if_pos rfl]

theorem State.seqAt_setSeq (st : State) (d d' : DevId) (q : Seq) :
    (st.setSeq d q).seqAt d' = if d' = d then q else st.seqAt d' := by
  unfold State.seqAt State.setSeq
  rw [Store.get_put]
  simp only [dKey_inj, and_true]

@[simp] theorem State.seqAt_setSeq_same (st : State) (d : DevId) (q : Seq) : (st.setSeq d q).seqAt d = q := by
  rw [State.seqAt_setSeq, if_pos rfl]

theorem State.readyAt_setReady (st : State) (d d' : DevId) (b : Bool) :
    (st.setReady d b).readyAt d' = if d' = d then b else st.readyAt d' := by
  unfold State.readyAt State.setReady
  rw [Store.get_put]
  simp only [dKey_inj, and_true]

theorem State.threadAt_setThread (st : State) (t t' : Nat) (th : Thread) :
    (st.setThread t th).threadAt t' = if t' = t then th else st.threadAt t' := by
  unfold State.threadAt State.setThread
  rw [Store.get_put]

/-! ## Reset -/

/-- After reset every register file has the canonical form. -/
theorem State.reset_memories_wf : State.reset.status.wf ∧ State.reset.enHi.wf ∧ State.reset.enLo.wf ∧
    State.reset.shadowMsk.wf ∧ State.reset.headPtr.wf ∧ State.reset.tailPtr.wf ∧ State.reset.count.wf ∧
    State.reset.countShown.wf :=
  ⟨Memory.wf_reset, Memory.wf_reset, Memory.wf_reset, Memory.wf_reset, Memory.wf_reset, Memory.wf_reset, Memory.wf_reset,
    Memory.wf_reset⟩

end Sys2Proof.Machine
end

