-- ==== Sys2Proof/Laws/Ops.lean ====
section
/-! SUPPORT. One lemma per shared operation that says what it can do: the sequencing of outcomes, the boundary with no
other agent, the words of the shadow tree, the transport primitives, the counter loops, the gates. -/

namespace Sys2Proof.Machine

/-! ## Outcomes -/

@[simp] theorem andThen_next {α β : Type} (a : α) (f : α → Host.Outcome β Fault Refusal) :
    andThen (.next a) f = f a := rfl

@[simp] theorem andThen_refused {α β : Type} (r : Refusal) (f : α → Host.Outcome β Fault Refusal) :
    andThen (.refused r : Host.Outcome α Fault Refusal) f = .refused r := rfl

/-- A sequence answers a next state exactly when both parts do. -/
theorem andThen_eq_next {α β : Type} (o : Host.Outcome α Fault Refusal) (f : α → Host.Outcome β Fault Refusal) (b : β) :
    andThen o f = .next b ↔ ∃ a, o = .next a ∧ f a = .next b := by
  cases o with
  | next a => simp
  | fault r => exact nomatch r
  | refused r => simp

/-! ## Boundaries -/

/-- With no other agent scheduled nothing happens at a boundary (R70). -/
@[simp] theorem boundary_nil (st : State) (h : st.sched = []) : boundary st = .next st := by
  unfold boundary
  rw [h]

/-- What happens at a boundary is the first entry of the schedule. -/
theorem boundary_cons (st : State) (now : List AgentStep) (later : List (List AgentStep)) (h : st.sched = now :: later) :
    boundary st = agentSteps now { st with sched := later } := by
  unfold boundary
  rw [h]

/-! ## The masked status shadow tree -/

/-- Bit `b` of a word built bit by bit. -/
theorem getLsbD_wordOfBits (f : Nat → Bool) (n b : Nat) (hn : n ≤ 32) :
    (wordOfBits f n).getLsbD b = (decide (b < n) && f b) := by
  induction n with
  | zero => simp [wordOfBits]
  | succ n ih =>
    have ih := ih (by omega)
    rw [wordOfBits, BitVec.getLsbD_or, ih]
    by_cases hb : b = n
    · subst hb
      cases hf : f b
      · simp
      · simp [BitVec.getLsbD_twoPow]
        omega
    · cases hf : f n
      · have : (b < n + 1) = (b < n) := by
          apply propext
          omega
        simp [this]
      · have : (b < n + 1) = (b < n) := by
          apply propext
          omega
        have hne : ¬ n = b := fun h => hb h.symm
        simp [BitVec.getLsbD_twoPow, this, hne]

/-- Bit `b` of an OR of words. -/
theorem getLsbD_orAll (ws : List Word) (b : Nat) : (orAll ws).getLsbD b = true ↔ ∃ w ∈ ws, w.getLsbD b = true := by
  induction ws with
  | nil => simp [orAll]
  | cons w ws ih => simp [orAll, ih]

/-- The bits of a word, in ascending order (R8). -/
theorem mem_bitsAsc (v : Word) (b : Nat) : b ∈ bitsAsc v ↔ b < 32 ∧ v.getLsbD b = true := by
  simp [bitsAsc]

theorem nodup_bitsAsc (v : Word) : (bitsAsc v).Nodup := List.Nodup.filter _ List.nodup_range

/-- A shadow word depends on the statuses and enables of its subdevice alone (R38). -/
theorem shadowIntAt_congr (st st' : State) (d : DevId) (s : SubId) (i : Nat) (hc : st'.cfg = st.cfg)
    (h : ∀ L, leafPending st' d s L = leafPending st d s L) : shadowIntAt st' d s i = shadowIntAt st d s i := by
  unfold shadowIntAt
  simp only [hc, h]

/-! ## The transport primitives -/

/-- A read shows the access and changes nothing else (R62). -/
theorem regRead_eq (st : State) (d : DevId) (s : SubId) (reg : Reg) :
    regRead st d s reg = { st with trace := st.trace ++ [.read d s (addrOf st.cfg reg) (regValue st d s reg)] } := rfl

@[simp] theorem regStore_cfg (st : State) (d : DevId) (s : SubId) (reg : Reg) (v : Word) :
    (regStore st d s reg v).cfg = st.cfg := by
  cases reg <;> rfl

@[simp] theorem regStore_trace (st : State) (d : DevId) (s : SubId) (reg : Reg) (v : Word) :
    (regStore st d s reg v).trace = st.trace := by
  cases reg <;> rfl

/-- A write shows the access after its effect (R63). -/
theorem regWrite_trace (st : State) (d : DevId) (s : SubId) (reg : Reg) (v : Word) :
    (regWrite st d s reg v).trace = st.trace ++ [.write d s (addrOf st.cfg reg) v] := by
  simp [regWrite, State.emit]

/-! ## Counters -/

/-- The counting loop changes the counters alone (R191). -/
theorem countBits_eq (st : State) (d : DevId) (L : LeafId) (bs : List Nat) :
    countBits st d L bs = { st with count := (countBits st d L bs).count } := by
  induction bs generalizing st with
  | nil => rfl
  | cons b bs ih =>
    rw [countBits, ih]
    rfl

/-- The counting loop adds one for each occurrence of a bit in the list (R191). -/
theorem countAt_countBits (st : State) (d d' : DevId) (L L' : LeafId) (b : Nat) (bs : List Nat) (hb : b < 32)
    (hbs : ∀ x ∈ bs, x < 32) : (countBits st d L bs).countAt d' L' b =
      if d' = d ∧ L' = L then st.countAt d' L' b + BitVec.ofNat 32 (bs.count b) else st.countAt d' L' b := by
  induction bs generalizing st with
  | nil => simp [countBits]
  | cons x bs ih =>
    have hx : x < 32 := hbs x (by simp)
    rw [countBits, ih _ (fun y hy => hbs y (by simp [hy])), State.countAt_setCount _ _ _ _ _ _ _ _ hx hb]
    by_cases h : d' = d ∧ L' = L
    · obtain ⟨rfl, rfl⟩ := h
      by_cases hxb : b = x
      · subst hxb
        simp only [and_self, if_true, List.count_cons_self]
        rw [BitVec.ofNat_add, BitVec.add_assoc, BitVec.add_comm 1#32]
      · have : ¬ (x == b) = true := by simpa using fun h => hxb h.symm
        simp [hxb, List.count_cons, this]
    · rw [if_neg h, if_neg h, if_neg (fun h' => h ⟨h'.1, h'.2.1⟩)]

/-- The display loop changes `COUNT_SHOWN` alone (R203). -/
theorem showCounts_eq (st : State) (d : DevId) (L : LeafId) (bs : List Nat) :
    showCounts st d L bs = { st with countShown := (showCounts st d L bs).countShown } := by
  induction bs generalizing st with
  | nil => rfl
  | cons b bs ih =>
    rw [showCounts, ih]
    rfl

/-- The display loop copies the counters listed (R203). -/
theorem countShownAt_showCounts (st : State) (d d' : DevId) (L L' : LeafId) (b : Nat) (bs : List Nat) (hb : b < 32)
    (hbs : ∀ x ∈ bs, x < 32) : (showCounts st d L bs).countShownAt d' L' b =
      if d' = d ∧ L' = L ∧ b ∈ bs then st.countAt d L b else st.countShownAt d' L' b := by
  induction bs generalizing st with
  | nil => simp [showCounts]
  | cons x bs ih =>
    have hx : x < 32 := hbs x (by simp)
    rw [showCounts, ih _ (fun y hy => hbs y (by simp [hy])), State.countShownAt_setCountShown _ _ _ _ _ _ _ _ hx hb]
    by_cases h : d' = d ∧ L' = L
    · obtain ⟨rfl, rfl⟩ := h
      by_cases hxb : b = x
      · subst hxb
        by_cases hm : b ∈ bs <;> simp [hm]
      · simp [hxb]
    · rw [if_neg (fun h' => h ⟨h'.1, h'.2.1⟩), if_neg (fun h' => h ⟨h'.1, h'.2.1⟩),
        if_neg (fun h' => h ⟨h'.1, h'.2.1⟩)]

/-! ## Pointer arithmetic -/

/-- Where it is defined, `adv` is the advance on the circle (R152). -/
theorem adv_of_lt {p : Ptr} {depth : Nat} (n : Nat) (h : p.idx < depth) : adv p n depth = advCircle p n depth := if_pos h

/-- The index of an advanced pointer is below `depth` again (R152). -/
theorem adv_idx_lt {p : Ptr} {depth : Nat} (n : Nat) (h : p.idx < depth) : (adv p n depth).idx < depth := by
  rw [adv_of_lt n h]
  exact Nat.mod_lt _ (by omega)

/-! ## Log records -/

/-- A shifted number with smaller bits below is their sum. -/
theorem shiftLeft_or_eq_add {a b : Nat} (k : Nat) (h : b < 2 ^ k) : a <<< k ||| b = a * 2 ^ k + b := by
  rw [← Nat.shiftLeft_add_eq_or_of_lt h, Nat.shiftLeft_eq]

/-- The identity word of a record as the sum of its fields at their places (R246). -/
theorem identityWord_eq (p : LogPayload) : identityWord p =
    BitVec.ofNat 32 (2 ^ 20 * p.dev.toNat + 2 ^ 18 * p.sub.toNat + 2 ^ 12 * p.ring.toNat + 2 ^ 4 * p.dir.code.toNat +
      p.nWords.toNat) := by
  have hdev := p.dev.isLt
  have hsub := p.sub.isLt
  have hring := p.ring.isLt
  have hdir := p.dir.code.isLt
  have hwords := p.nWords.isLt
  apply BitVec.eq_of_toNat_eq
  simp only [identityWord, BitVec.toNat_append, BitVec.toNat_ofNat]
  rw [shiftLeft_or_eq_add 3 hwords, shiftLeft_or_eq_add 1 (by decide), shiftLeft_or_eq_add 3 hdir,
    shiftLeft_or_eq_add 5 (by decide), shiftLeft_or_eq_add 6 hring, shiftLeft_or_eq_add 2 hsub,
    shiftLeft_or_eq_add 4 hdev]
  omega

/-- An entry is reported iff it is not empty, of the device and subdevice, and of a wanted ring (R246). -/
theorem logWanted_eq_true (d : DevId) (s : SubId) (filter : DWord) (e : LogEntry) : logWanted d s filter e = true ↔
    e.ts ≠ 0#64 ∧ e.payload.dev = d ∧ e.payload.sub = s ∧
      (filter = 0#64 ∨ filter.getLsbD e.payload.ring.toNat = true) := by
  simp [logWanted, and_assoc]

/-- An allocation draw touches nothing but the queue of draws and their counter (R246). -/
theorem allocDrawn_eq (st : State) :
    allocDrawn st = { st with allocIn := (allocDrawn st).allocIn, draws := (allocDrawn st).draws } := by
  unfold allocDrawn
  split
  · rfl
  · split <;> rfl

/-! ## Gates -/

/-- No `UPDATE_VIEW` of a ring of the device is in progress (R312). -/
theorem deviceUpdating_eq_false (st : State) (d : DevId) :
    deviceUpdating st d = false ↔ ∀ u ∈ st.updating, u.1 ≠ d := by
  simp [deviceUpdating, List.any_eq_false]

/-- An `UPDATE_VIEW` of a ring of the device is in progress (R312). -/
theorem deviceUpdating_eq_true (st : State) (d : DevId) :
    deviceUpdating st d = true ↔ ∃ u ∈ st.updating, u.1 = d := by
  simp [deviceUpdating, List.any_eq_true]

/-- The tests of `UPDATE_VIEW` all passed (R158). -/
theorem viewGate_pass (st : State) (d : DevId) (s : SubId) (r : RingId) : viewGate st d s r = .pass () ↔
    ringIdsOk st.cfg d s r = true ∧ st.readyAt d = true ∧ viewConfigured (st.viewAt d s r) = true ∧
      viewBusy st d s r = false := by
  unfold viewGate
  cases ringIdsOk st.cfg d s r <;> cases st.readyAt d <;> cases viewConfigured (st.viewAt d s r) <;>
    cases viewBusy st d s r <;> simp

/-- The tests of `INJECT_ALL` and `ENABLE_ALL` all passed (R223, R224). -/
theorem leafGate_pass (st : State) (d : DevId) (s : SubId) (a : Addr) (L : LeafId) : leafGate st d s a = .pass L ↔
    idsOk st.cfg d s = true ∧ leafOf st.cfg a = some L ∧ st.readyAt d = true ∧ leafOk st.cfg d s L = true := by
  unfold leafGate
  cases idsOk st.cfg d s
  · simp
  · cases hL : leafOf st.cfg a with
    | none => simp
    | some L' =>
      cases hr : st.readyAt d
      · simp
      · by_cases hk : leafOk st.cfg d s L' = true
        · simp only [hk, Bool.true_eq_false, if_false, Gate.pass.injEq, Option.some.injEq]
          constructor
          · rintro rfl
            simp [hk]
          · exact fun h => h.2.1
        · have hk' : leafOk st.cfg d s L' = false := by simpa using hk
          simp only [hk', Bool.true_eq_false, if_false, if_true, Option.some.injEq]
          constructor
          · intro h
            cases h
          · rintro ⟨-, rfl, -, h'⟩
            exact absurd h' hk

/-- The tests of P0 all passed (R182). -/
theorem pollGate_pass (st : State) (d : DevId) (s : SubId) : pollGate st d s = .pass () ↔
    idsOk st.cfg d s = true ∧ st.readyAt d = true ∧ (st.seqAt d).st = .idle := by
  unfold pollGate
  cases idsOk st.cfg d s <;> cases st.readyAt d <;> by_cases h : (st.seqAt d).st = .idle <;> simp [h]

/-- The tests of `LOG_EVENT` all passed (R240). -/
theorem logGate_pass (st : State) (d : DevId) (s : SubId) (r : RingId) (data : List DWord) :
    logGate st d s r data = .pass () ↔ data.length ≤ 4 ∧ ringIdsOk st.cfg d s r = true := by
  unfold logGate dataFits
  by_cases h : data.length ≤ 4 <;> cases ringIdsOk st.cfg d s r <;> simp [h]

/-- No gate refuses but for an overlap the caller must avoid (R312). -/
theorem viewGate_refuse (st : State) (d : DevId) (s : SubId) (r : RingId) (why : Refusal)
    (h : viewGate st d s r = .refuse why) : why = .ringBusy d ∧ (d, s, r) ∈ st.updating := by
  unfold viewGate at h
  split at h
  · cases h
  · split at h
    · cases h
    · split at h
      · cases h
      · split at h
        · rename_i hb
          cases h
          exact ⟨rfl, by simpa [viewBusy] using hb⟩
        · cases h

/-- No gate refuses but for an overlap the caller must avoid (R311). -/
theorem pollGate_refuse (st : State) (d : DevId) (s : SubId) (why : Refusal) (h : pollGate st d s = .refuse why) :
    why = .deviceBusy d ∧ (st.seqAt d).st ≠ .idle := by
  unfold pollGate at h
  split at h
  · cases h
  · split at h
    · cases h
    · split at h
      · rename_i hb
        cases h
        exact ⟨rfl, hb⟩
      · cases h

end Sys2Proof.Machine
end

