-- ==== Sys2Proof/Laws/PerInstr.lean ====
section
/-! SUPPORT. What holds of every command as syntax, one lemma per constructor: its length in words (R93, R94). -/

namespace Sys2Proof.Laws.EncodedLength

/-- The `len` column of the opcode map (R94), for a `LOG_EVENT` `3 + 2 * n_words`. -/
def tableLength : Instr → Nat
  | .rd _ _ _ => 2
  | .wr _ _ _ _ => 3
  | .devInit _ => 1
  | .ringCfg _ _ _ _ _ _ _ => 5
  | .updateView _ _ _ => 1
  | .used _ _ _ => 1
  | .ringDump _ _ _ => 1
  | .poll _ _ _ => 1
  | .cbReg _ _ _ _ => 5
  | .cntShow _ _ => 2
  | .injectAll _ _ _ => 2
  | .enableAll _ _ _ _ => 2
  | .logEvent _ _ _ _ _ _ data => 3 + 2 * data.length
  | .logRead _ _ _ => 3

/-- The words of a well-formed command are as many as the opcode map says, and at most eleven (R93, R94). -/
def Statement (i : Instr) : Prop :=
  i.wellFormed = true → (encode i).length = tableLength i ∧ (encode i).length ≤ longestCommand

theorem rd (d : DevId) (s : SubId) (addr : Addr) : Statement (.rd d s addr) := fun _ => ⟨rfl, Nat.le_of_ble_eq_true rfl⟩

theorem wr (d : DevId) (s : SubId) (addr : Addr) (value : Word) : Statement (.wr d s addr value) :=
  fun _ => ⟨rfl, Nat.le_of_ble_eq_true rfl⟩

theorem devInit (d : DevId) : Statement (.devInit d) := fun _ => ⟨rfl, Nat.le_of_ble_eq_true rfl⟩

theorem ringCfg (d : DevId) (s : SubId) (r : RingId) (base : DWord) (depth : Word) (wpd : BitVec 16) (lock : Bool) :
    Statement (.ringCfg d s r base depth wpd lock) := fun _ => ⟨rfl, Nat.le_of_ble_eq_true rfl⟩

theorem updateView (d : DevId) (s : SubId) (r : RingId) : Statement (.updateView d s r) := fun _ => ⟨rfl, Nat.le_of_ble_eq_true rfl⟩

theorem used (d : DevId) (s : SubId) (r : RingId) : Statement (.used d s r) := fun _ => ⟨rfl, Nat.le_of_ble_eq_true rfl⟩

theorem ringDump (d : DevId) (s : SubId) (r : RingId) : Statement (.ringDump d s r) := fun _ => ⟨rfl, Nat.le_of_ble_eq_true rfl⟩

theorem poll (force : Bool) (d : DevId) (s : SubId) : Statement (.poll force d s) := fun _ => ⟨rfl, Nat.le_of_ble_eq_true rfl⟩

theorem cbReg (d : DevId) (addr : Addr) (fn : Word) (ud : DWord) : Statement (.cbReg d addr fn ud) :=
  fun _ => ⟨rfl, Nat.le_of_ble_eq_true rfl⟩

theorem cntShow (d : DevId) (addr : Addr) : Statement (.cntShow d addr) := fun _ => ⟨rfl, Nat.le_of_ble_eq_true rfl⟩

theorem injectAll (d : DevId) (s : SubId) (addr : Addr) : Statement (.injectAll d s addr) := fun _ => ⟨rfl, Nat.le_of_ble_eq_true rfl⟩

theorem enableAll (on : Bool) (d : DevId) (s : SubId) (addr : Addr) : Statement (.enableAll on d s addr) :=
  fun _ => ⟨rfl, Nat.le_of_ble_eq_true rfl⟩

theorem logEvent (d : DevId) (s : SubId) (r : RingId) (dir : LogDir) (head tail : Word) (data : List DWord) :
    Statement (.logEvent d s r dir head tail data) := by
  intro h
  have hd : data.length ≤ 4 := by simpa [Instr.wellFormed, dataFits] using h
  have hl : (encode (.logEvent d s r dir head tail data)).length = 3 + 2 * data.length := by
    simp only [encode, List.length_cons, splitPairs_length]
    omega
  refine ⟨hl, ?_⟩
  rw [hl]
  show 3 + 2 * data.length ≤ 11
  omega

theorem logRead (d : DevId) (s : SubId) (filter : DWord) : Statement (.logRead d s filter) := fun _ => ⟨rfl, Nat.le_of_ble_eq_true rfl⟩

end Sys2Proof.Laws.EncodedLength
end

