-- ==== Sys2Proof/Laws/Tree.lean ====
section
/-! SUPPORT. What the table walk gives: the leaves whose masks, at every level, meet the word, in table order. -/

namespace Sys2Proof.Machine

/-- A path goes on through a group whose sub-mask meets the word. -/
theorem pathMeets_cons {c : Cfg} {w m : Word} (h : w &&& m ≠ 0#32) (p : List Word × LeafId) :
    pathMeets c w (m :: p.1, p.2) = pathMeets c w p := by
  simp [pathMeets, h]

mutual
/-- The walk of a body keeps exactly the paths that meet the word (R188). -/
theorem walk_eq_paths (c : Cfg) (w : Word) : ∀ body : Body,
    walk c w body = ((bodyPaths body).filter (pathMeets c w)).map Prod.snd
  | .flat ls => by
    simp only [walk, bodyPaths, List.filter_map, List.map_map]
    simp [Function.comp_def, pathMeets]
  | .nested g => by simpa only [walk, bodyPaths] using walkGroups_eq_paths c w g

/-- The same for a list of groups. -/
theorem walkGroups_eq_paths (c : Cfg) (w : Word) : ∀ g : Groups,
    walkGroups c w g = ((groupPaths g).filter (pathMeets c w)).map Prod.snd
  | .nil => rfl
  | .cons m body rest => by
    simp only [walkGroups, groupPaths, List.filter_append, List.map_append, List.filter_map, List.map_map,
      ← walkGroups_eq_paths c w rest]
    by_cases h : w &&& m = 0#32
    · simp [h, Function.comp_def, pathMeets]
    · simp [h, Function.comp_def, pathMeets_cons h, walk_eq_paths c w body]
end

end Sys2Proof.Machine
end

