-- ==== Sys2Proof/Laws/Updates.lean ====
section
/-! SUPPORT. Said once: what a step can do. Every command, every step of another agent and every step of the machine is a
sequence of the updates listed here, each with the guard under which the machine makes it. An invariant that every update
keeps is kept by every step. -/

namespace Sys2Proof.Machine

/-- One update of the state, with its guard. -/
inductive Update : State → State → Prop where
  /-- What no register of the spec holds: the port, the response, the trace, the model's own fields but the threads. -/
  | bookkeeping (st : State) (port : List Word) (resp : Response) (trace : List Event) (sched : List (List AgentStep))
      (polling : List DevId) (updating : List (DevId × SubId × RingId)) (clockIn : List DWord) (allocIn : List Bool)
      (draws : Nat) :
      Update st { st with port := port, resp := resp, trace := trace, sched := sched, polling := polling,
                          updating := updating, clockIn := clockIn, allocIn := allocIn, draws := draws }
  | thread (st : State) (t : Nat) (th : Thread) : Update st (st.setThread t th)
  | status (st : State) (d : DevId) (s : SubId) (L : LeafId) (v : Word) : Update st (st.setStatus d s L v)
  | enHi (st : State) (d : DevId) (s : SubId) (L : LeafId) (v : Word) : Update st (st.setEnHi d s L v)
  | enLo (st : State) (d : DevId) (s : SubId) (L : LeafId) (v : Word) : Update st (st.setEnLo d s L v)
  | shadowMsk (st : State) (d : DevId) (s : SubId) (i : Nat) (v : Word) : Update st (st.setShadowMsk d s i v)
  | headPtr (st : State) (d : DevId) (s : SubId) (r : Nat) (v : Word) :
      Update st (st.setHeadPtr d s r (v &&& ptrMask st.cfg))
  | tailPtr (st : State) (d : DevId) (s : SubId) (r : Nat) (v : Word) :
      Update st (st.setTailPtr d s r (v &&& ptrMask st.cfg))
  | dma (st : State) (d : DevId) (s : SubId) (r : RingId) (n : Nat) : Update st (dmaAdv st d s r n)
  | callback (st : State) (d : DevId) (L : LeafId) (cb : Option Callback) (h : ∀ c, cb = some c → c.fn ≠ 0#32) :
      Update st (st.setCb d L cb)
  | count (st : State) (d : DevId) (L : LeafId) (b : Nat) (v : Word) : Update st (st.setCount d L b v)
  | countShown (st : State) (d : DevId) (L : LeafId) (b : Nat) (v : Word) : Update st (st.setCountShown d L b v)
  | viewCreate (st : State) (d : DevId) (s : SubId) (r : RingId) (base : DWord) (depth : Word) (wpd : BitVec 16)
      (lock : Bool) (h : depth.toNat < 2 ^ st.cfg.ptrIdxW) : Update st (st.setView d s r (freshView base depth wpd lock))
  | viewUpdate (st : State) (d : DevId) (s : SubId) (r : RingId) (h t : Word) :
      Update st (st.setView d s r (updatedView st.cfg (st.viewAt d s r) h t))
  | logClaim (st : State) : Update st (Sys2Proof.Machine.logClaim st)
  | logEntry (st : State) (slot : BitVec 10) (e : LogEntry) : Update st (st.setLog slot.toNat e)
  | sequencer (st : State) (d : DevId) (q : Seq) : Update st (st.setSeq d q)
  | rebuild (st : State) (d : DevId) : Update st (rebuildDevice st d)

/-- Any number of updates. -/
abbrev Updates : State → State → Prop := Relation.ReflTransGen Update

namespace Updates

theorem refl (st : State) : Updates st st := Relation.ReflTransGen.refl

theorem one {st st' : State} (h : Update st st') : Updates st st' := Relation.ReflTransGen.single h

theorem respond (st : State) (r : Response) : Updates st (st.respond r) :=
  one (Update.bookkeeping st st.port r st.trace st.sched st.polling st.updating st.clockIn st.allocIn st.draws)

theorem emit (st : State) (e : Event) : Updates st (st.emit e) :=
  one (Update.bookkeeping st st.port st.resp (st.trace ++ [e]) st.sched st.polling st.updating st.clockIn st.allocIn
    st.draws)

theorem setPolling (st : State) (ds : List DevId) : Updates st (st.setPolling ds) :=
  one (Update.bookkeeping st st.port st.resp st.trace st.sched ds st.updating st.clockIn st.allocIn st.draws)

theorem setPort (st : State) (ws : List Word) : Updates st (st.setPort ws) :=
  one (Update.bookkeeping st ws st.resp st.trace st.sched st.polling st.updating st.clockIn st.allocIn st.draws)

theorem setSched (st : State) (sc : List (List AgentStep)) : Updates st { st with sched := sc } :=
  one (Update.bookkeeping st st.port st.resp st.trace sc st.polling st.updating st.clockIn st.allocIn st.draws)

theorem setUpdating (st : State) (us : List (DevId × SubId × RingId)) : Updates st { st with updating := us } :=
  one (Update.bookkeeping st st.port st.resp st.trace st.sched st.polling us st.clockIn st.allocIn st.draws)

theorem borrow (st : State) (r : Response) (ds : List DevId) : Updates st { st with resp := r, polling := ds } :=
  one (Update.bookkeeping st st.port r st.trace st.sched ds st.updating st.clockIn st.allocIn st.draws)

theorem regRead (st : State) (d : DevId) (s : SubId) (reg : Reg) : Updates st (regRead st d s reg) := emit st _

theorem regStore (st : State) (d : DevId) (s : SubId) (reg : Reg) (v : Word) : Updates st (regStore st d s reg v) := by
  cases reg with
  | glbShadow => exact refl st
  | shadowInt i => exact refl st
  | shadowMsk i => exact one (Update.shadowMsk st d s i v)
  | status L => exact one (Update.status st d s L _)
  | enHi L => exact one (Update.enHi st d s L v)
  | enLo L => exact one (Update.enLo st d s L v)
  | inject L => exact one (Update.status st d s L _)
  | headPtr r => exact one (Update.headPtr st d s r v)
  | tailPtr r => exact one (Update.tailPtr st d s r v)

theorem regWrite (st : State) (d : DevId) (s : SubId) (reg : Reg) (v : Word) : Updates st (regWrite st d s reg v) :=
  (regStore st d s reg v).trans (emit _ _)

theorem setSeq (st : State) (d : DevId) (q : Seq) : Updates st (st.setSeq d q) := one (Update.sequencer st d q)

theorem countBits (st : State) (d : DevId) (L : LeafId) (bs : List Nat) : Updates st (countBits st d L bs) := by
  induction bs generalizing st with
  | nil => exact refl st
  | cons b bs ih => exact (one (Update.count st d L b _)).trans (ih _)

theorem showCounts (st : State) (d : DevId) (L : LeafId) (bs : List Nat) : Updates st (showCounts st d L bs) := by
  induction bs generalizing st with
  | nil => exact refl st
  | cons b bs ih => exact (one (Update.countShown st d L b _)).trans (ih _)

theorem clockDrawn (st : State) : Updates st (clockDrawn st) := by
  unfold Sys2Proof.Machine.clockDrawn
  split
  · exact one (Update.bookkeeping st st.port st.resp st.trace st.sched st.polling st.updating _ st.allocIn st.draws)
  · exact one (Update.bookkeeping st st.port st.resp st.trace st.sched st.polling st.updating st.clockIn st.allocIn _)

theorem allocDrawn (st : State) : Updates st (allocDrawn st) := by
  unfold Sys2Proof.Machine.allocDrawn
  split
  · exact refl st
  · split
    · exact one (Update.bookkeeping st st.port st.resp st.trace st.sched st.polling st.updating st.clockIn _ st.draws)
    · exact one (Update.bookkeeping st st.port st.resp st.trace st.sched st.polling st.updating st.clockIn st.allocIn _)

end Updates

/-! ## The commands of one micro-step -/

theorem fail_updates {st st' : State} {r : Response} (h : st.fail r = .next st') : Updates st st' := by
  cases h
  exact Updates.respond st r

theorem execRd_updates {d : DevId} {s : SubId} {a : Addr} {st st' : State} (h : execRd d s a st = .next st') :
    Updates st st' := by
  unfold execRd at h
  split at h
  · exact fail_updates h
  · split at h
    · exact fail_updates h
    · cases h
      exact (Updates.regRead _ _ _ _).trans (Updates.respond _ _)

theorem execWr_updates {d : DevId} {s : SubId} {a : Addr} {v : Word} {st st' : State}
    (h : execWr d s a v st = .next st') : Updates st st' := by
  unfold execWr at h
  split at h
  · exact fail_updates h
  · split at h
    · exact fail_updates h
    · cases h
      exact (Updates.regWrite _ _ _ _ _).trans (Updates.respond _ _)

theorem execDevInit_updates {d : DevId} {st st' : State} (h : execDevInit d st = .next st') : Updates st st' := by
  unfold execDevInit at h
  split at h
  · exact fail_updates h
  · split at h
    · cases h
    · split at h
      · cases h
      · cases h
        exact (Updates.one (Update.rebuild st d)).trans (Updates.respond _ _)

theorem execRingCfg_updates {d : DevId} {s : SubId} {r : RingId} {base : DWord} {depth : Word} {wpd : BitVec 16}
    {lock : Bool} {st st' : State} (h : execRingCfg d s r base depth wpd lock st = .next st') : Updates st st' := by
  unfold execRingCfg at h
  split at h
  · exact fail_updates h
  · split at h
    · cases h
      exact Updates.respond _ _
    · split at h
      · cases h
      · split at h
        · exact fail_updates h
        · split at h
          · exact fail_updates h
          · rename_i hd
            cases h
            exact (Updates.one (Update.viewCreate st d s r base depth wpd lock (not_le.mp hd))).trans (Updates.respond _ _)

theorem execUsed_updates {d : DevId} {s : SubId} {r : RingId} {st st' : State} (h : execUsed d s r st = .next st') :
    Updates st st' := by
  unfold execUsed at h
  split at h
  · exact fail_updates h
  · cases h
    exact Updates.respond _ _

theorem execRingDump_updates {d : DevId} {s : SubId} {r : RingId} {st st' : State}
    (h : execRingDump d s r st = .next st') : Updates st st' := by
  unfold execRingDump at h
  split at h
  · exact fail_updates h
  · cases h
    exact Updates.respond _ _

theorem execCbReg_updates {d : DevId} {a : Addr} {fn : Word} {ud : DWord} {st st' : State}
    (h : execCbReg d a fn ud st = .next st') : Updates st st' := by
  unfold execCbReg at h
  split at h
  · exact fail_updates h
  · split at h
    · exact fail_updates h
    · split at h
      · cases h
        exact Updates.respond _ _
      · split at h
        · cases h
        · cases h
          refine (Updates.one (Update.callback st d _ _ ?_)).trans (Updates.respond _ _)
          intro c hc
          split at hc
          · cases hc
          · rename_i hfn
            cases hc
            exact hfn

theorem execCntShow_updates {d : DevId} {a : Addr} {st st' : State} (h : execCntShow d a st = .next st') :
    Updates st st' := by
  unfold execCntShow at h
  split at h
  · exact fail_updates h
  · split at h
    · exact fail_updates h
    · split at h
      · cases h
      · cases h
        exact (Updates.showCounts _ _ _ _).trans (Updates.respond _ _)

theorem execInjectAll_updates {d : DevId} {s : SubId} {a : Addr} {st st' : State}
    (h : execInjectAll d s a st = .next st') : Updates st st' := by
  unfold execInjectAll at h
  split at h
  · cases h
    exact Updates.respond _ _
  · cases h
  · cases h
    exact (Updates.regWrite _ _ _ _ _).trans (Updates.respond _ _)

/-! ## Micro-steps of the longer commands -/

theorem viewReadHead_updates (st : State) (d : DevId) (s : SubId) (r : RingId) : Updates st (viewReadHead st d s r) :=
  (Updates.regRead st d s _).trans (Updates.setUpdating _ _)

theorem viewReadTail_updates (st : State) (d : DevId) (s : SubId) (r : RingId) : Updates st (viewReadTail st d s r) :=
  Updates.regRead st d s _

theorem viewCommit_updates (st : State) (d : DevId) (s : SubId) (r : RingId) (h t : Word) :
    Updates st (viewCommit st d s r h t) :=
  ((Updates.one (Update.viewUpdate st d s r h t)).trans (Updates.setUpdating _ _)).trans (Updates.respond _ _)

theorem enableHi_updates (st : State) (on : Bool) (d : DevId) (s : SubId) (L : LeafId) :
    Updates st (enableHi st on d s L) := Updates.regWrite _ _ _ _ _

theorem enableLo_updates (st : State) (on : Bool) (d : DevId) (s : SubId) (L : LeafId) :
    Updates st (enableLo st on d s L) := (Updates.regWrite _ _ _ _ _).trans (Updates.respond _ _)

theorem logClaim_updates (st : State) : Updates st (logClaim st) := Updates.one (Update.logClaim st)

theorem logStamp_updates (st : State) (slot : BitVec 10) : Updates st (logStamp st slot) :=
  (Updates.clockDrawn st).trans (Updates.one (Update.logEntry _ slot _))

theorem logFill_updates (st : State) (slot : BitVec 10) (p : LogPayload) : Updates st (logFill st slot p) :=
  (Updates.one (Update.logEntry st slot _)).trans (Updates.respond _ _)

theorem pollOpen_updates (st : State) (d : DevId) (s : SubId) (force : Bool) : Updates st (pollOpen st d s force) :=
  Updates.setSeq _ _ _

theorem pollGlobal_updates (st : State) (d : DevId) : Updates st (pollGlobal st d) :=
  (Updates.regRead st d _ _).trans (Updates.setSeq _ _ _)

theorem pollSkip_updates (st : State) (d : DevId) (i : Nat) : Updates st (pollSkip st d i) := Updates.setSeq _ _ _

theorem pollClose_updates (st : State) (d : DevId) : Updates st (pollClose st d) := Updates.setSeq _ _ _

theorem serviceMask_updates (st : State) (d : DevId) (i : Nat) : Updates st (serviceMask st d i) :=
  (Updates.regWrite _ _ _ _ _).trans (Updates.setSeq _ _ _)

theorem serviceLatch_updates (st : State) (d : DevId) (i : Nat) : Updates st (serviceLatch st d i) :=
  (Updates.regRead _ _ _ _).trans (Updates.setSeq _ _ _)

theorem serviceUnmask_updates (st : State) (d : DevId) (i : Nat) : Updates st (serviceUnmask st d i) :=
  (Updates.regWrite _ _ _ _ _).trans (Updates.setSeq _ _ _)

theorem leafPop_updates (st : State) (d : DevId) (rest : List LeafId) : Updates st (leafPop st d rest) :=
  Updates.setSeq _ _ _

theorem leafRead_updates (st : State) (d : DevId) (L : LeafId) : Updates st (leafRead st d L) :=
  (Updates.regRead _ _ _ _).trans (Updates.countBits _ _ _ _)

/-! ## Other agents -/

theorem finished_updates {o : Result} {st : State} {out : State × List Frame}
    (ho : ∀ st', o = .next st' → Updates st st') (h : finished o = .next out) : Updates st out.1 := by
  obtain ⟨st', hst', h⟩ := (andThen_eq_next _ _ _).mp h
  cases h
  exact ho st' hst'

theorem beginCommand_updates {i : Instr} {st : State} {out : State × List Frame} (h : beginCommand i st = .next out) :
    Updates st out.1 := by
  unfold beginCommand at h
  split at h
  · exact finished_updates (fun _ => execRd_updates) h
  · exact finished_updates (fun _ => execWr_updates) h
  · exact finished_updates (fun _ => execDevInit_updates) h
  · exact finished_updates (fun _ => execRingCfg_updates) h
  · split at h
    · cases h
      exact Updates.respond _ _
    · cases h
    · cases h
      exact viewReadHead_updates _ _ _ _
  · exact finished_updates (fun _ => execUsed_updates) h
  · exact finished_updates (fun _ => execRingDump_updates) h
  · split at h
    · cases h
      exact Updates.respond _ _
    · cases h
    · cases h
      exact pollOpen_updates _ _ _ _
  · exact finished_updates (fun _ => execCbReg_updates) h
  · exact finished_updates (fun _ => execCntShow_updates) h
  · exact finished_updates (fun _ => execInjectAll_updates) h
  · split at h
    · cases h
      exact Updates.respond _ _
    · cases h
    · cases h
      exact enableHi_updates _ _ _ _ _
  · split at h
    · cases h
      exact Updates.respond _ _
    · cases h
    · cases h
      exact logClaim_updates _
  · split at h
    · cases h
      exact Updates.respond _ _
    · split at h
      · cases h
        exact (Updates.allocDrawn _).trans (Updates.respond _ _)
      · cases h
        exact Updates.allocDrawn _

theorem pollAdvance_updates (st : State) (d : DevId) : Updates st (pollAdvance st d).1 := by
  unfold pollAdvance
  simp only
  split
  · exact Updates.respond _ _
  · split
    · exact (pollGlobal_updates _ _).trans (Updates.respond _ _)
    · exact pollGlobal_updates _ _
  · split
    · split
      · exact (pollClose_updates _ _).trans (Updates.respond _ _)
      · exact serviceMask_updates _ _ _
    · exact serviceLatch_updates _ _ _
  · split
    · exact serviceUnmask_updates _ _ _
    · split
      · exact leafPop_updates _ _ _
      · exact (leafPop_updates _ _ _).trans (leafRead_updates _ _ _)

theorem frameStep_updates {f : Frame} {st : State} {out : State × List Frame} (h : frameStep f st = .next out) :
    Updates st out.1 := by
  unfold frameStep at h
  split at h
  · split at h
    · cases h
    · exact beginCommand_updates h
  · cases h
    exact viewReadTail_updates _ _ _ _
  · cases h
    exact viewCommit_updates _ _ _ _ _ _
  · cases h
    exact enableLo_updates _ _ _ _ _
  · cases h
    exact logStamp_updates _ _
  · cases h
    exact logFill_updates _ _ _
  · split at h
    · cases h
      exact Updates.refl _
    · cases h
      exact Updates.respond _ _
  · cases h
    exact pollAdvance_updates _ _
  · split at h
    · cases h
      exact Updates.refl _
    · cases h
      exact Updates.emit _ _

theorem threadStep_updates {t : Nat} {f : Frame} {fs : List Frame} {st st' : State}
    (h : threadStep t f fs st = .next st') : Updates st st' := by
  obtain ⟨out, hout, h⟩ := (andThen_eq_next _ _ _).mp h
  cases h
  exact (((Updates.borrow st _ _).trans (frameStep_updates hout)).trans (Updates.one (Update.thread _ _ _))).trans
    (Updates.borrow _ _ _)

/-- What one step of another agent can do. -/
theorem agentStep_updates {a : AgentStep} {st st' : State} (h : agentStep a st = .next st') : Updates st st' := by
  unfold agentStep at h
  split at h
  · cases h
    unfold srcRaise
    split
    · exact Updates.one (Update.status _ _ _ _ _)
    · exact Updates.refl _
  · cases h
    exact Updates.one (Update.dma _ _ _ _ _)
  · split at h
    · exact threadStep_updates h
    · cases h
      exact Updates.refl _
  · split at h
    · cases h
      exact Updates.refl _
    · exact threadStep_updates h

theorem agentSteps_updates {as : List AgentStep} {st st' : State} (h : agentSteps as st = .next st') :
    Updates st st' := by
  induction as generalizing st with
  | nil =>
    cases h
    exact Updates.refl _
  | cons a as ih =>
    obtain ⟨st₁, h₁, h⟩ := (andThen_eq_next _ _ _).mp h
    exact (agentStep_updates h₁).trans (ih h)

/-- What the other agents can do at a boundary (R70). -/
theorem boundary_updates {st st' : State} (h : boundary st = .next st') : Updates st st' := by
  unfold boundary at h
  split at h
  · cases h
    exact Updates.refl _
  · exact (Updates.setSched st _).trans (agentSteps_updates h)

/-! ## The commands other agents may step inside of -/

theorem execUpdateView_updates {d : DevId} {s : SubId} {r : RingId} {st st' : State}
    (h : execUpdateView d s r st = .next st') : Updates st st' := by
  unfold execUpdateView at h
  split at h
  · cases h
    exact Updates.respond _ _
  · cases h
  · obtain ⟨st₁, h₁, h⟩ := (andThen_eq_next _ _ _).mp h
    obtain ⟨st₂, h₂, h⟩ := (andThen_eq_next _ _ _).mp h
    cases h
    exact (((viewReadHead_updates _ _ _ _).trans (boundary_updates h₁)).trans
      ((viewReadTail_updates _ _ _ _).trans (boundary_updates h₂))).trans (viewCommit_updates _ _ _ _ _ _)

theorem execEnableAll_updates {on : Bool} {d : DevId} {s : SubId} {a : Addr} {st st' : State}
    (h : execEnableAll on d s a st = .next st') : Updates st st' := by
  unfold execEnableAll at h
  split at h
  · cases h
    exact Updates.respond _ _
  · cases h
  · obtain ⟨st₁, h₁, h⟩ := (andThen_eq_next _ _ _).mp h
    cases h
    exact ((enableHi_updates _ _ _ _ _).trans (boundary_updates h₁)).trans (enableLo_updates _ _ _ _ _)

theorem execLogEvent_updates {d : DevId} {s : SubId} {r : RingId} {dir : LogDir} {hd tl : Word} {data : List DWord}
    {st st' : State} (h : execLogEvent d s r dir hd tl data st = .next st') : Updates st st' := by
  unfold execLogEvent at h
  split at h
  · cases h
    exact Updates.respond _ _
  · cases h
  · obtain ⟨st₁, h₁, h⟩ := (andThen_eq_next _ _ _).mp h
    obtain ⟨st₂, h₂, h⟩ := (andThen_eq_next _ _ _).mp h
    cases h
    exact (((logClaim_updates _).trans (boundary_updates h₁)).trans
      ((logStamp_updates _ _).trans (boundary_updates h₂))).trans (logFill_updates _ _ _)

theorem logScan_updates {d : DevId} {s : SubId} {filter : DWord} {js : List Nat} {out : List (List Word)}
    {st st' : State} (h : logScan d s filter js out st = .next st') : Updates st st' := by
  induction js generalizing st out with
  | nil =>
    cases h
    exact Updates.respond _ _
  | cons j js ih =>
    obtain ⟨st₁, h₁, h⟩ := (andThen_eq_next _ _ _).mp h
    exact (boundary_updates h₁).trans (ih h)

theorem execLogRead_updates {d : DevId} {s : SubId} {filter : DWord} {st st' : State}
    (h : execLogRead d s filter st = .next st') : Updates st st' := by
  unfold execLogRead at h
  split at h
  · exact fail_updates h
  · split at h
    · exact (Updates.allocDrawn _).trans (fail_updates h)
    · exact (Updates.allocDrawn _).trans (logScan_updates h)

/-! ## The poll cycle -/

/-- A way to run a handler's commands that makes only updates of the machine. -/
abbrev Runs (run : Runner) : Prop := ∀ i st st', run i st = .next st' → Updates st st'

theorem runHandler_updates {run : Runner} (hr : Runs run) {is : List Instr} {st st' : State}
    (h : runHandler run is st = .next st') : Updates st st' := by
  induction is generalizing st with
  | nil =>
    cases h
    exact Updates.refl _
  | cons i is ih =>
    unfold runHandler at h
    split at h
    · cases h
    obtain ⟨st₁, h₁, h⟩ := (andThen_eq_next _ _ _).mp h
    obtain ⟨st₂, h₂, h⟩ := (andThen_eq_next _ _ _).mp h
    exact ((hr _ _ _ h₁).trans (boundary_updates h₂)).trans (ih h)

theorem leafCallback_updates {run : Runner} (hr : Runs run) {d : DevId} {L : LeafId} {raw : Word} {st st' : State}
    (h : leafCallback run d L raw st = .next st') : Updates st st' := by
  unfold leafCallback at h
  split at h
  · cases h
    exact Updates.refl _
  · obtain ⟨st₁, h₁, h⟩ := (andThen_eq_next _ _ _).mp h
    exact ((Updates.emit _ _).trans (boundary_updates h₁)).trans (runHandler_updates hr h)

theorem serviceLeaves_updates {run : Runner} (hr : Runs run) {d : DevId} {ls : List LeafId} {st st' : State}
    (h : serviceLeaves run d ls st = .next st') : Updates st st' := by
  induction ls generalizing st with
  | nil =>
    cases h
    exact Updates.refl _
  | cons L rest ih =>
    unfold serviceLeaves at h
    split at h
    · exact (leafPop_updates _ _ _).trans (ih h)
    · obtain ⟨st₁, h₁, h⟩ := (andThen_eq_next _ _ _).mp h
      obtain ⟨st₂, h₂, h⟩ := (andThen_eq_next _ _ _).mp h
      exact ((((leafPop_updates _ _ _).trans (leafRead_updates _ _ _)).trans (boundary_updates h₁)).trans
        (leafCallback_updates hr h₂)).trans (ih h)

theorem serviceSlot_updates {run : Runner} (hr : Runs run) {d : DevId} {i : Nat} {st st' : State}
    (h : serviceSlot run d i st = .next st') : Updates st st' := by
  obtain ⟨st₁, h₁, h⟩ := (andThen_eq_next _ _ _).mp h
  obtain ⟨st₂, h₂, h⟩ := (andThen_eq_next _ _ _).mp h
  obtain ⟨st₃, h₃, h⟩ := (andThen_eq_next _ _ _).mp h
  exact ((((serviceMask_updates _ _ _).trans (boundary_updates h₁)).trans
    ((serviceLatch_updates _ _ _).trans (boundary_updates h₂))).trans (serviceLeaves_updates hr h₃)).trans
    ((serviceUnmask_updates _ _ _).trans (boundary_updates h))

theorem scanSlots_updates {run : Runner} (hr : Runs run) {d : DevId} {is : List Nat} {st st' : State}
    (h : scanSlots run d is st = .next st') : Updates st st' := by
  induction is generalizing st with
  | nil =>
    cases h
    exact pollClose_updates _ _
  | cons i is ih =>
    unfold scanSlots at h
    split at h
    · obtain ⟨st₁, h₁, h⟩ := (andThen_eq_next _ _ _).mp h
      exact (serviceSlot_updates hr h₁).trans (ih h)
    · exact (pollSkip_updates _ _ _).trans (ih h)

theorem pollCycle_updates {run : Runner} (hr : Runs run) {d : DevId} {st st' : State}
    (h : pollCycle run d st = .next st') : Updates st st' := by
  unfold pollCycle at h
  simp only at h
  split at h
  · cases h
    exact pollGlobal_updates _ _
  · obtain ⟨st₁, h₁, h⟩ := (andThen_eq_next _ _ _).mp h
    exact ((pollGlobal_updates _ _).trans (boundary_updates h₁)).trans (scanSlots_updates hr h)

theorem pollWith_updates {run : Runner} (hr : Runs run) {force : Bool} {d : DevId} {s : SubId} {st st' : State}
    (h : pollWith run force d s st = .next st') : Updates st st' := by
  unfold pollWith at h
  split at h
  · cases h
    exact Updates.respond _ _
  · cases h
  · obtain ⟨st₁, h₁, h⟩ := (andThen_eq_next _ _ _).mp h
    obtain ⟨st₂, h₂, h⟩ := (andThen_eq_next _ _ _).mp h
    cases h
    exact ((((pollOpen_updates _ _ _ _).trans (Updates.setPolling _ _)).trans (boundary_updates h₁)).trans
      (pollCycle_updates hr h₂)).trans ((Updates.setPolling _ _).trans (Updates.respond _ _))

theorem runWith_updates {poll : Bool → DevId → SubId → State → Result}
    (hp : ∀ f d s st st', poll f d s st = .next st' → Updates st st') : Runs (runWith poll) := by
  intro i st st' h
  cases i with
  | rd d s a => exact execRd_updates h
  | wr d s a v => exact execWr_updates h
  | devInit d => exact execDevInit_updates h
  | ringCfg d s r base depth wpd lock => exact execRingCfg_updates h
  | updateView d s r => exact execUpdateView_updates h
  | used d s r => exact execUsed_updates h
  | ringDump d s r => exact execRingDump_updates h
  | poll f d s => exact hp _ _ _ _ _ h
  | cbReg d a fn ud => exact execCbReg_updates h
  | cntShow d a => exact execCntShow_updates h
  | injectAll d s a => exact execInjectAll_updates h
  | enableAll on d s a => exact execEnableAll_updates h
  | logEvent d s r dir hd tl data => exact execLogEvent_updates h
  | logRead d s filter => exact execLogRead_updates h

theorem pollNested_updates (n : Nat) {force : Bool} {d : DevId} {s : SubId} {st st' : State}
    (h : pollNested n force d s st = .next st') : Updates st st' := by
  induction n generalizing force d s st st' with
  | zero => exact pollWith_updates (fun _ _ _ h => by cases h) h
  | succ n ih => exact pollWith_updates (runWith_updates (fun _ _ _ _ _ h => ih h)) h

/-! ## Commands and steps -/

/-- What a command can do. -/
theorem exec_updates {i : Instr} {st st' : State} (h : exec i st = .next st') : Updates st st' := by
  cases i with
  | rd d s a => exact execRd_updates h
  | wr d s a v => exact execWr_updates h
  | devInit d => exact execDevInit_updates h
  | ringCfg d s r base depth wpd lock => exact execRingCfg_updates h
  | updateView d s r => exact execUpdateView_updates h
  | used d s r => exact execUsed_updates h
  | ringDump d s r => exact execRingDump_updates h
  | poll f d s => exact pollNested_updates 16 h
  | cbReg d a fn ud => exact execCbReg_updates h
  | cntShow d a => exact execCntShow_updates h
  | injectAll d s a => exact execInjectAll_updates h
  | enableAll on d s a => exact execEnableAll_updates h
  | logEvent d s r dir hd tl data => exact execLogEvent_updates h
  | logRead d s filter => exact execLogRead_updates h

/-- What a step of the machine can do; only with a well-formed configuration does it do anything (R7). -/
theorem step_updates {st st' : State} (h : step st = .next st') : cfgWf st.cfg = true ∧ Updates st st' := by
  unfold step at h
  split at h
  · rename_i hwf
    refine ⟨hwf, ?_⟩
    obtain ⟨st₁, h₁, h⟩ := (andThen_eq_next _ _ _).mp h
    refine (boundary_updates h₁).trans ?_
    unfold stepPort at h
    split at h
    · cases h
      exact Updates.refl _
    · rename_i rest _
      cases h
      exact (Updates.setPort st₁ rest).trans (Updates.respond (st₁.setPort rest) rIllegal)
    · cases h
    · exact (Updates.setPort _ _).trans (exec_updates h)
  · cases h

/-- An invariant that every update keeps is kept by any number of them. -/
theorem Updates.keep {P : State → Prop} (hP : ∀ st st', Update st st' → P st → P st') {st st' : State}
    (h : Updates st st') (hs : P st) : P st' := by
  induction h with
  | refl => exact hs
  | tail _ hu ih => exact hP _ _ hu ih

/-- No update changes the configuration (R49). -/
theorem Update.cfg_eq {st st' : State} (h : Update st st') : st'.cfg = st.cfg := by
  cases h with
  | dma d s r n =>
    unfold dmaAdv
    simp only
    split
    · split <;> rfl
    · rfl
  | _ => rfl

theorem Updates.cfg_eq {st st' : State} (h : Updates st st') : st'.cfg = st.cfg :=
  Updates.keep (P := fun x => x.cfg = st.cfg) (fun _ _ hu hp => hu.cfg_eq.trans hp) h rfl

/-- An invariant that every update keeps under a well-formed configuration is kept by every step. -/
theorem step_keeps {P : State → Prop} (hP : ∀ st st', cfgWf st.cfg = true → Update st st' → P st → P st')
    {st st' : State} (h : step st = .next st') (hs : P st) : P st' := by
  obtain ⟨hwf, hu⟩ := step_updates h
  refine (Updates.keep (P := fun x => cfgWf x.cfg = true ∧ P x) ?_ hu ⟨hwf, hs⟩).2
  rintro x y hxy ⟨hx, hp⟩
  exact ⟨by rw [hxy.cfg_eq]; exact hx, hP x y hx hxy hp⟩

end Sys2Proof.Machine
end

