-- ==== Sys2Proof/Machine/Assembler.lean ====
section
/-! DEFINITION. The assembler syntax of the commands (R99) and the pseudo-commands with their expansions (R100). -/

namespace Sys2Proof.Machine

/-- A number in decimal, as R99 writes ids. -/
def decText (n : Nat) : String := String.ofList (Nat.toDigits 10 n)

/-- A number in hexadecimal with `0x`, as R99 writes addresses and data. -/
def hexText (n : Nat) : String := "0x" ++ String.ofList ((Nat.toDigits 16 n).map Char.toUpper)

/-- Operands "separated by commas" (R99). -/
def commaText : List String → String
  | [] => ""
  | [x] => x
  | x :: y :: rest => x ++ ", " ++ commaText (y :: rest)

/-- The name of a direction (R241). -/
def dirText : LogDir → String
  | .push => "PUSH"
  | .pull => "PULL"
  | .start => "START"
  | .service => "SERVICE"
  | .dmaRd => "DMA_RD"
  | .dmaWr => "DMA_WR"

/-- A command as one line of the assembler (R99). -/
def asmText : Instr → String
  | .rd d s a => "RD " ++ commaText [decText d.toNat, decText s.toNat, hexText a.toNat]
  | .wr d s a v => "WR " ++ commaText [decText d.toNat, decText s.toNat, hexText a.toNat, hexText v.toNat]
  | .devInit d => "DEV_INIT " ++ decText d.toNat
  | .ringCfg d s r base depth wpd lock => "RING_CFG " ++ commaText [decText d.toNat, decText s.toNat, decText r.toNat,
      hexText base.toNat, decText depth.toNat, decText wpd.toNat, decText lock.toNat]
  | .updateView d s r => "UPDATE_VIEW " ++ commaText [decText d.toNat, decText s.toNat, decText r.toNat]
  | .used d s r => "USED " ++ commaText [decText d.toNat, decText s.toNat, decText r.toNat]
  | .ringDump d s r => "RING_DUMP " ++ commaText [decText d.toNat, decText s.toNat, decText r.toNat]
  | .poll false d s => "POLL " ++ commaText [decText d.toNat, decText s.toNat]
  | .poll true d s => "POLL.F " ++ commaText [decText d.toNat, decText s.toNat]
  | .cbReg d a fn ud => "CB_REG " ++ commaText [decText d.toNat, hexText a.toNat, hexText fn.toNat, hexText ud.toNat]
  | .cntShow d a => "CNT_SHOW " ++ commaText [decText d.toNat, hexText a.toNat]
  | .injectAll d s a => "INJECT_ALL " ++ commaText [decText d.toNat, decText s.toNat, hexText a.toNat]
  | .enableAll on d s a =>
      "ENABLE_ALL " ++ commaText [decText d.toNat, decText s.toNat, hexText a.toNat, decText on.toNat]
  | .logEvent d s r dir head tail data => "LOG_EVENT " ++ commaText [decText d.toNat, decText s.toNat, decText r.toNat,
      dirText dir, hexText head.toNat, hexText tail.toNat, "[" ++ commaText (data.map (fun w => hexText w.toNat)) ++ "]"]
  | .logRead d s filter => "LOG_READ " ++ commaText [decText d.toNat, decText s.toNat, hexText filter.toNat]

/-! ## Pseudo-commands -/

/-- `ENABLE d, s, addr` (R100). -/
def pseudoEnable (d : DevId) (s : SubId) (addr : Addr) : Instr := .enableAll true d s addr

/-- `DISABLE d, s, addr` (R100). -/
def pseudoDisable (d : DevId) (s : SubId) (addr : Addr) : Instr := .enableAll false d s addr

/-- `CB_UNREG d, addr`: a zero `fn` empties the slot (R100, R200). -/
def pseudoCbUnreg (d : DevId) (addr : Addr) : Instr := .cbReg d addr 0#32 0#64

/-- `MASK d, s, i` (R100). -/
def pseudoMask (c : Cfg) (d : DevId) (s : SubId) (i : Nat) : Instr := .wr d s (addrOf c (.shadowMsk i)) ones

/-- `UNMASK d, s, i` (R100). -/
def pseudoUnmask (c : Cfg) (d : DevId) (s : SubId) (i : Nat) : Instr := .wr d s (addrOf c (.shadowMsk i)) 0#32

/-- `ACK d, s, addr, bits`: the write-one-to-clear a callback uses (R100, R125). -/
def pseudoAck (d : DevId) (s : SubId) (addr : Addr) (bits : Word) : Instr := .wr d s addr bits

/-- The first command of `PUSH d, s, r, n`: the read of the tail pointer (R100). -/
def pseudoPushRead (c : Cfg) (d : DevId) (s : SubId) (r : RingId) : Instr := .rd d s (addrOf c (.tailPtr r.toNat))

/-- The second command of `PUSH d, s, r, n`, on the value the first one returned: the host-side pointer advance (R100,
R152). Where the index read is not below `depth` the word written is a free value (log entry 24). -/
def pseudoPushWrite (c : Cfg) (d : DevId) (s : SubId) (r : RingId) (n depth : Nat) (read : Word) : Instr :=
  .wr d s (addrOf c (.tailPtr r.toNat)) (encPtr c (adv (decPtr c read) n depth))

end Sys2Proof.Machine
end

