-- ==== Sys2Proof/Tests/Slice0.lean ====
section
/-! SUPPORT. Our own tests. Every expected value is taken from the worked examples of the command rules or from the
vectors of spec/95_test_vectors.md, whose example configuration is `Cfg.sample`; then, for each statement, a concrete
state and operands that meet its hypotheses together. -/

namespace Sys2Proof.Tests
open Sys2Proof.Machine

/-- The next state of an outcome. -/
def next? : Result → Option State
  | .next s => some s
  | .fault _ => none
  | .refused _ => none

/-- The next state of a command. -/
def run? (i : Instr) (s : State) : Option State := next? (exec i s)

/-- Several commands, one after the other. -/
def runAll? : List Instr → State → Option State
  | [], s => some s
  | i :: is, s => (run? i s).bind (runAll? is)

/-- The response of a command. -/
def resp? (i : Instr) (s : State) : Option Response := (run? i s).map State.resp

/-- Reset, then `DEV_INIT 0` and `DEV_INIT 1` (R128). -/
def ready : State := { State.reset with devReady := [(0, true), (1, true)] }

/-- A condition of leaf `L0` of space (0, 0), as `SRC_RAISE` leaves it (R131). -/
def raised (v : Word) (s : State) : State := s.setStatus 0#4 0#2 0 v

/-! ## Well-formedness -/

/-- A `LOG_EVENT` with five data words is not well formed, with four it is (R97). -/
theorem test_wellFormed_refuses_five_data_words :
    Instr.wellFormed (.logEvent 0#4 0#2 0#6 .push 0#32 0#32 [1#64, 2#64, 3#64, 4#64, 5#64]) = false ∧
    Instr.wellFormed (.logEvent 0#4 0#2 0#6 .push 0#32 0#32 [1#64, 2#64, 3#64, 4#64]) = true := by decide

/-! ## Decoding: the words of spec/95_test_vectors.md -/

/-- V1. -/
theorem test_decode_rd : decode [0x04000000#32, 0x00001000#32] = .command (.rd 0#4 0#2 0x1000#32) [] := by decide

/-- V34. -/
theorem test_decode_wr : decode [0x08040000#32, 0x00000150#32, 0xFFFFFFFF#32] =
    .command (.wr 0#4 1#2 0x0150#32 0xFFFFFFFF#32) [] := by decide

/-- V20. -/
theorem test_decode_dev_init : decode [0x0C200000#32] = .command (.devInit 2#4) [] := by decide

/-- V26: `lock` is bit 16 and `wpd` the low half of the last word. -/
theorem test_decode_ring_cfg : decode [0x20003000#32, 0x90000000#32, 0#32, 0x20#32, 0x00010002#32] =
    .command (.ringCfg 0#4 0#2 3#6 0x90000000#64 32#32 2#16 true) [] := by decide

/-- V27. -/
theorem test_decode_update_view : decode [0x24003000#32] = .command (.updateView 0#4 0#2 3#6) [] := by decide

/-- V29h. -/
theorem test_decode_used : decode [0x28008000#32] = .command (.used 0#4 0#2 8#6) [] := by decide

/-- V29l. -/
theorem test_decode_ring_dump : decode [0x2C004000#32] = .command (.ringDump 0#4 0#2 4#6) [] := by decide

/-- V34 and V33. -/
theorem test_decode_poll : decode [0x42040000#32, 0x40040000#32] = .command (.poll true 0#4 1#2) [0x40040000#32] ∧
    decode [0x40040000#32] = .command (.poll false 0#4 1#2) [] := by decide

/-- V30e: the low word of the user-data comes first. -/
theorem test_decode_cb_reg : decode [0x44000000#32, 0x1000#32, 0xB0#32, 0x00000002#32, 0x00000003#32] =
    .command (.cbReg 0#4 0x1000#32 0xB0#32 0x0000000300000002#64) [] := by decide

/-- P4. -/
theorem test_decode_cnt_show : decode [0x48100000#32, 0x00001010#32] = .command (.cntShow 1#4 0x1010#32) [] := by decide

/-- P3. -/
theorem test_decode_inject_all : decode [0x4C040000#32, 0x00001020#32] = .command (.injectAll 0#4 1#2 0x1020#32) [] := by
  decide

/-- V40j and V40h. -/
theorem test_decode_enable_all :
    decode [0x520C0000#32, 0x00001000#32] = .command (.enableAll true 0#4 3#2 0x1000#32) [] ∧
    decode [0x50000000#32, 0x00001000#32] = .command (.enableAll false 0#4 0#2 0x1000#32) [] := by decide

/-- V45e, the longest command. -/
theorem test_decode_log_event :
    decode [0x60043034#32, 0#32, 0#32, 1#32, 0#32, 2#32, 0#32, 3#32, 0#32, 0xFFFFFFFF#32, 0xFFFFFFFF#32] =
    .command (.logEvent 0#4 1#2 3#6 .service 0#32 0#32 [1#64, 2#64, 3#64, 0xFFFFFFFFFFFFFFFF#64]) [] := by decide

/-- V45j. -/
theorem test_decode_log_read : decode [0x64000000#32, 0#32, 0x80000000#32] =
    .command (.logRead 0#4 0#2 0x8000000000000000#64) [] := by decide

/-- V60: the illegal words of the table. -/
theorem test_decode_illegal_words : ([0x00000000#32, 0xFFFFFFFF#32, 0x06000000#32, 0x41000000#32, 0x40000001#32,
    0x40001000#32, 0x0C040000#32, 0x0C001000#32, 0x10000000#32, 0x54000000#32, 0x68000000#32, 0x24003001#32,
    0x44040000#32, 0x64003000#32, 0x60003005#32, 0x60003061#32, 0x60003008#32, 0x60003080#32].all
    (fun w => decide (decode [w] = .illegal []))) = true := by decide +kernel

/-- The encoder writes the words of V45e and V26. -/
theorem test_encode_longest : encode (.logEvent 0#4 1#2 3#6 .service 0#32 0#32 [1#64, 2#64, 3#64, 0xFFFFFFFFFFFFFFFF#64]) =
    [0x60043034#32, 0#32, 0#32, 1#32, 0#32, 2#32, 0#32, 3#32, 0#32, 0xFFFFFFFF#32, 0xFFFFFFFF#32] ∧
    encode (.ringCfg 0#4 0#2 3#6 0x90000000#64 32#32 2#16 true) =
    [0x20003000#32, 0x90000000#32, 0#32, 0x20#32, 0x00010002#32] := by decide

/-- V61: the stream is taken command by command; `DEV_INIT 0` is all that changes. -/
theorem test_step_stream : next? (step { State.reset with port := [0x41000000#32, 0x0C000000#32] }) =
    some { State.reset with port := [0x0C000000#32], resp := ⟨.illegalCmd, []⟩ } := by decide

/-- The example configuration satisfies R7. -/
theorem test_sample_wellFormed : cfgWf Cfg.sample = true := by decide

/-- The assembler lines of V30d, V45b and P3 (R99, R100). -/
theorem test_asm : asmText (.cbReg 0#4 0x1000#32 0xA0#32 1#64) = "CB_REG 0, 0x1000, 0xA0, 0x1" ∧
    asmText (.poll true 0#4 1#2) = "POLL.F 0, 1" ∧
    encode (pseudoMask Cfg.sample 0#4 1#2 4) = [0x08040000#32, 0x00000150#32, 0xFFFFFFFF#32] ∧
    encode (pseudoPushWrite Cfg.sample 0#4 0#2 3#6 8 16 0x0000000A#32) = [0x08000000#32, 0x201C#32, 0x00100002#32] := by
  decide

/-! ## Register access -/

/-- V1, V15, V13. -/
theorem test_rd : resp? (.rd 0#4 0#2 0x1000#32) (raised 5#32 .reset) = some ⟨.ok, [5#32]⟩ ∧
    resp? (.rd 2#4 0#2 0x1000#32) .reset = some ⟨.invalidArg, []⟩ ∧
    resp? (.rd 0#4 0#2 0x3000#32) .reset = some ⟨.invalidArg, []⟩ := by decide

/-- V7, V8, V10: the mask hides the slot from the global word only. -/
theorem test_rd_shadow_tree :
    let s := (raised 7#32 .reset).setEnHi 0#4 0#2 0 2#32
    resp? (.rd 0#4 0#2 0x0100#32) s = some ⟨.ok, [1#32]⟩ ∧ resp? (.rd 0#4 0#2 0x0080#32) s = some ⟨.ok, [1#32]⟩ ∧
    resp? (.rd 0#4 0#2 0x0100#32) (s.setShadowMsk 0#4 0#2 0 ones) = some ⟨.ok, [1#32]⟩ ∧
    resp? (.rd 0#4 0#2 0x0080#32) (s.setShadowMsk 0#4 0#2 0 ones) = some ⟨.ok, [0#32]⟩ := by decide

/-- V2 and V5: write-one-to-clear, and inject. -/
theorem test_wr_ack_and_inject :
    (run? (.wr 0#4 0#2 0x1000#32 1#32) (raised 5#32 .reset)).map State.status = some [(0, 4#32)] ∧
    (run? (.wr 0#4 0#2 0x100C#32 3#32) (raised 4#32 .reset)).map State.status = some [(0, 7#32)] := by decide

/-- V18: a pointer register keeps bits 20..0. -/
theorem test_wr_pointer : (run? (.wr 0#4 0#2 0x2018#32 0xFFFFFFFF#32) .reset).map (fun s => s.headPtrAt 0#4 0#2 3) =
    some 0x001FFFFF#32 := by decide

/-- V19, V20: the hardware registers survive, the device is ready. -/
theorem test_dev_init : run? (.devInit 0#4) (raised 7#32 .reset) =
      some { raised 7#32 State.reset with devReady := [(0, true)] } ∧
    resp? (.devInit 2#4) .reset = some ⟨.invalidArg, []⟩ := by decide

/-! ## Rings -/

/-- The ring of R165 (2), its registers written. -/
def ring3 : State :=
  ((ready.setView 0#4 0#2 3#6 (freshView 0x80000000#64 16#32 4#16 false)).setHeadPtr 0#4 0#2 3 0x0000000E#32).setTailPtr
    0#4 0#2 3 0x00100002#32

/-- V24, V26: the refused configurations. -/
theorem test_ring_cfg : resp? (.ringCfg 0#4 0#2 3#6 0x80000000#64 0x100000#32 4#16 false) ready = some ⟨.invalidArg, []⟩ ∧
    resp? (.ringCfg 0#4 0#2 3#6 0x90000000#64 32#32 2#16 true) ring3 = some ⟨.invalidArg, []⟩ := by decide

/-- V28, V29a, V29b. -/
theorem test_update_view :
    (runAll? [.updateView 0#4 0#2 3#6, .used 0#4 0#2 3#6] ring3).map State.resp = some ⟨.ok, [4#32]⟩ ∧
    (runAll? [.updateView 0#4 0#2 3#6, .ringDump 0#4 0#2 3#6] ring3).map State.resp =
      some ⟨.ok, [0x0000000E#32, 0x00100002#32, 16#32, 4#32, 0#32, 0#32, 0#32, 0x80000000#32, 0#32, 4#32, 3#32, 14#32,
        0#32]⟩ := by decide

/-- V28: `byte_count` is 448, and the reads are head then tail. -/
theorem test_update_view_counts : (run? (.updateView 0#4 0#2 3#6) ring3).map (fun s => ((s.viewAt 0#4 0#2 3#6).byteCount,
    s.trace)) = some (448#64, [.read 0#4 0#2 0x2018#32 0x0000000E#32, .read 0#4 0#2 0x201C#32 0x00100002#32]) := by decide

/-- S1, S2 and V29f: the source's two examples, and a pair that is not valid. -/
theorem test_used : usedInt ⟨false, 4⟩ ⟨false, 10⟩ 16 = 6 ∧ usedInt ⟨false, 14⟩ ⟨true, 2⟩ 16 = 4 ∧
    usedWord ⟨false, 10⟩ ⟨false, 4⟩ 16 = 0xFFFFFFFA#32 := by decide

/-- V22: a ring that was never configured dumps as zeros and its id. -/
theorem test_ring_dump_unconfigured : resp? (.ringDump 0#4 0#2 3#6) .reset =
    some ⟨.ok, [0#32, 0#32, 0#32, 0#32, 0#32, 0#32, 0#32, 0#32, 0#32, 0#32, 3#32, 0#32, 0#32]⟩ := by decide

/-- V29e: the engine drains a full ring. -/
theorem test_dma_adv : (next? (agentStep (.dmaAdv 0#4 0#2 3#6 16) (ring3.setTailPtr 0#4 0#2 3 0x0010000E#32))).map
    (fun s => s.headPtrAt 0#4 0#2 3) = some 0x0010000E#32 := by decide

/-- The torn snapshot of 95_test_vectors.md 3.2. -/
theorem test_torn_snapshot : (run? (.updateView 0#4 0#2 3#6) { (ring3.setHeadPtr 0#4 0#2 3 0#32).setTailPtr 0#4 0#2 3 8#32
    with sched := [[.dmaAdv 0#4 0#2 3#6 3]] }).map (fun s => ((s.viewAt 0#4 0#2 3#6).head.idx,
      (s.viewAt 0#4 0#2 3#6).occupancy, s.headPtrAt 0#4 0#2 3)) = some (0, 8#32, 3#32) := by decide

/-! ## Poll, callbacks, counters -/

/-- The state of R198. -/
def r198 : State := ((raised 5#32 ready).setEnHi 0#4 0#2 0 ones).setCb 0#4 0 (some ⟨0xA0#32, 1#64⟩)

/-- The message of R198. -/
def r198Message : DispatchMsg := ⟨0xA0#32, 0#4, 0#2, 0x1000#32, 5#32, 0x1004#32, 0x1008#32, 1#64⟩

/-- R198: what the transport and the callback port show. -/
theorem test_poll_trace : (run? (.poll false 0#4 0#2) r198).map State.trace = some
    [.read 0#4 0#2 0x0080#32 1#32, .write 0#4 0#2 0x0140#32 ones, .read 0#4 0#2 0x0100#32 1#32,
     .read 0#4 0#2 0x1000#32 5#32, .dispatch r198Message, .write 0#4 0#2 0x1000#32 5#32,
     .write 0#4 0#2 0x0140#32 0#32] := by decide +kernel

/-- R198: counters 0 and 2 are one, the status is acknowledged. -/
theorem test_poll_counts : (run? (.poll false 0#4 0#2) r198).map (fun s => (s.count, s.status)) =
    some ([(0, 1#32), (32, 1#32)], []) := by decide +kernel

/-- V36: a bit raised after the leaf's read survives the acknowledge and is not counted. The schedule puts it at the
boundary after the dispatch message. -/
theorem test_poll_race : (run? (.poll false 0#4 0#2) { r198 with sched := [[], [], [], [], [], [.srcRaise 0#4 0#2 0 8#32]] }).map
    (fun s => (s.countAt 0#4 0 3, s.statusAt 0#4 0#2 0)) = some (0#32, 8#32) := by decide +kernel

/-- V30d to V30f. -/
theorem test_cb_reg : (runAll? [.cbReg 0#4 0x1000#32 0xA0#32 1#64, .cbReg 0#4 0x1000#32 0xB0#32 0x0000000200000002#64]
      ready).map State.resp = some ⟨.ok, [0xA0#32, 1#32, 0#32]⟩ ∧
    resp? (.cbReg 0#4 0x1004#32 0xA0#32 1#64) ready = some ⟨.invalidArg, []⟩ := by decide

/-- V31c, V31d: the differences are zero the second time. -/
theorem test_cnt_show : (runAll? [.cntShow 0#4 0x1000#32, .cntShow 0#4 0x1000#32] { ready with count := [(0, 1#32)] }).map
    State.resp = some ⟨.ok, 1#32 :: List.replicate 63 0#32⟩ := by decide +kernel

/-! ## Inject and enable -/

/-- V40e, V40i. -/
theorem test_inject_all : (run? (.injectAll 0#4 0#2 0x1000#32) ready).map (fun s => (s.statusAt 0#4 0#2 0, s.trace)) =
      some (ones, [.write 0#4 0#2 0x100C#32 ones]) ∧
    resp? (.injectAll 0#4 0#2 0x1004#32) ready = some ⟨.invalidArg, []⟩ := by decide

/-- V40d: hi before lo. -/
theorem test_enable_all : (run? (.enableAll true 0#4 0#2 0x1000#32) ready).map State.trace =
    some [.write 0#4 0#2 0x1004#32 ones, .write 0#4 0#2 0x1008#32 ones] := by decide

/-! ## The log -/

/-- The state after V45b and V45c. -/
def logged : State := { State.reset with
  logNext := 2#64
  logEntries := [(0, ⟨0x64#64, logPayload 0#4 0#2 3#6 .push 4#32 10#32 [0x1122334455667788#64]⟩),
                 (1, ⟨0x65#64, logPayload 0#4 0#2 5#6 .dmaWr 0x00100001#32 0x00100001#32 []⟩)] }

/-- V45b, V45c. -/
theorem test_log_event : (runAll? [.logEvent 0#4 0#2 3#6 .push 4#32 10#32 [0x1122334455667788#64],
      .logEvent 0#4 0#2 5#6 .dmaWr 0x00100001#32 0x00100001#32 []] { State.reset with clockIn := [0x64#64, 0x65#64] }) =
    some logged := by decide

/-- V45h: filter on ring 5. -/
theorem test_log_read : resp? (.logRead 0#4 0#2 0x20#64) { logged with allocIn := [true] } = some ⟨.ok,
    [1#32, 1#32, 0x65#32, 0#32, 0x00005050#32, 0x00100001#32, 0x00100001#32, 0#32, 0#32, 0#32, 0#32, 0#32, 0#32, 0#32,
     0#32]⟩ := by decide +kernel

/-- V45n: the allocation fails. -/
theorem test_log_read_no_resource : resp? (.logRead 0#4 0#2 0#64) { logged with allocIn := [false] } =
    some ⟨.noResource, []⟩ := by decide

/-! ## Witnesses: states and operands that meet the hypotheses of each statement -/

theorem witness_DecodeEncodeRoundTrip :
    Instr.wellFormed (.logEvent 15#4 3#2 63#6 .dmaWr 0#32 0#32 [1#64, 2#64, 3#64, 4#64]) = true := by decide

/-- A port with two illegal words. -/
def atPort (ws : List Word) : State := { State.reset with port := ws }

theorem witness_IllegalWordConsumesOneWord : cfgWf (atPort [0#32, 7#32]).cfg = true ∧ Quiet (atPort [0#32, 7#32]) ∧
    (atPort [0#32, 7#32]).port = 0#32 :: [7#32] ∧ selectOp 0#32 = none := by decide

theorem witness_TruncatedStreamRefused : cfgWf (atPort [0x04000000#32]).cfg = true ∧ Quiet (atPort [0x04000000#32]) ∧
    (atPort [0x04000000#32]).port = 0x04000000#32 :: [] ∧ selectOp 0x04000000#32 = some .rd ∧
    ([] : List Word).length < extCount .rd 0x04000000#32 := by decide

theorem witness_StepRunsDecodedCommand_boundary :
    let s := { atPort [0x0C000000#32, 7#32] with sched := [[.srcRaise 0#4 0#2 0 5#32]] }
    cfgWf s.cfg = true ∧ boundary s = .next (raised 5#32 (atPort [0x0C000000#32, 7#32])) ∧
    decode (raised 5#32 (atPort [0x0C000000#32, 7#32])).port = .command (.devInit 0#4) [7#32] := ⟨by decide, rfl, by decide⟩

theorem witness_StepRunsDecodedCommand_quiet : cfgWf (atPort [0x0C000000#32]).cfg = true ∧
    Quiet (atPort [0x0C000000#32]) ∧ decode (atPort [0x0C000000#32]).port = .command (.devInit 0#4) [] := by decide

theorem witness_IllFormedConfigRefused : cfgWf { Cfg.sample with nDev := 17 } = false := by decide

/-- R7 (a): two registers at one address; an address beyond `2^AW`. -/
theorem witness_IllFormedConfigRefused_addr :
    let c := { Cfg.sample with glbShadowAddr := 0x0100#32 }
    (regExists c .glbShadow = true ∧ regExists c (.shadowInt 0) = true ∧ Reg.glbShadow ≠ .shadowInt 0 ∧
      addrOf c .glbShadow = addrOf c (.shadowInt 0)) ∧
    regExists { Cfg.sample with aw := 12 } (.status 0) = true ∧
    2 ^ { Cfg.sample with aw := 12 }.aw ≤ (addrOf { Cfg.sample with aw := 12 } (.status 0)).toNat := by decide +kernel

/-- R7 (b), (c): two leaves of one status address; a leaf in no table, a leaf in two. -/
theorem witness_IllFormedConfigRefused_leaves :
    (let c := { Cfg.sample with leaves := [sampleLeaf 0 1#32, sampleLeaf 0 2#32] }
     0 < c.leaves.length ∧ 1 < c.leaves.length ∧ (leafDesc c 0).statusAddr = (leafDesc c 1).statusAddr) ∧
    4 < Cfg.sample.leaves.length ∧ ((List.range 16).flatMap (slotLeaves { Cfg.sample with slots := [] })).count 4 = 0 ∧
    ((List.range 16).flatMap (slotLeaves { Cfg.sample with
      slots := [some ⟨[(0, .flat [4])]⟩, some ⟨[(0, .flat [4])]⟩] })).count 4 = 2 := by decide

/-- R7 (d), (e): two entries for one bit; an entry for bit 32; three `Nested` levels. -/
theorem witness_IllFormedConfigRefused_tables :
    ¬ (([(0, .flat []), (0, .flat [])] : List (Nat × Body)).map Prod.fst).Nodup ∧
    (∃ e ∈ ([(32, .flat [])] : List (Nat × Body)), 32 ≤ e.1) ∧
    2 < bodyDepth (.nested (.cons 1#32 (.nested (.cons 1#32 (.nested (.cons 1#32 (.flat []) .nil)) .nil)) .nil)) ∧
    slotTable { Cfg.sample with slots := [none, some ⟨[(32, .flat [])]⟩] } 1 = some ⟨[(32, .flat [])]⟩ := by
  refine ⟨by decide, ⟨_, List.mem_singleton.mpr rfl, by decide⟩, by decide, by decide⟩

theorem witness_KindInvertsAddr : cfgWf Cfg.sample = true ∧ regExists Cfg.sample (.tailPtr 7) = true ∧
    kind Cfg.sample 0x203C#32 = some (.tailPtr 7) ∧ regExists Cfg.sample .glbShadow = true ∧
    kind Cfg.sample 0x0080#32 = some .glbShadow := by decide

/-- R194: the three forbidden commands on the polled device, and the nearest allowed ones. -/
theorem test_handler_forbidden : handlerForbids [0#4] (.poll true 0#4 1#2) = some 0#4 ∧
    handlerForbids [0#4] (.cbReg 0#4 0x1000#32 1#32 0#64) = some 0#4 ∧ handlerForbids [0#4] (.devInit 0#4) = some 0#4 ∧
    handlerForbids [0#4] (.devInit 1#4) = none ∧ handlerForbids [0#4] (.cntShow 0#4 0x1000#32) = none := by decide

theorem witness_RdReturnsRegister : idsOk Cfg.sample 2#4 0#2 = false ∧ idsOk Cfg.sample 1#4 1#2 = true ∧
    kind Cfg.sample 0x3000#32 = none ∧ kind Cfg.sample 0x104C#32 = some (.inject 4) := by decide

theorem witness_WrRejectsOrIgnores : idsOk Cfg.sample 0#4 2#2 = false ∧ idsOk Cfg.sample 1#4 1#2 = true ∧
    kind Cfg.sample 0x1002#32 = none ∧ kind Cfg.sample 0x0080#32 = some .glbShadow ∧
    kind Cfg.sample 0x013C#32 = some (.shadowInt 15) := by decide

theorem witness_WrAcknowledgesOrInjects : idsOk Cfg.sample 1#4 1#2 = true ∧
    kind Cfg.sample 0x1000#32 = some (.status 0) ∧ kind Cfg.sample 0x104C#32 = some (.inject 4) := by decide

theorem witness_WrStoresEnablesAndMasks : idsOk Cfg.sample 0#4 1#2 = true ∧ kind Cfg.sample 0x1044#32 = some (.enHi 4) ∧
    kind Cfg.sample 0x1008#32 = some (.enLo 0) ∧ kind Cfg.sample 0x017C#32 = some (.shadowMsk 15) := by decide

theorem witness_WrStoresMaskedPointer : idsOk Cfg.sample 1#4 0#2 = true ∧
    kind Cfg.sample 0x2000#32 = some (.headPtr 0) ∧ kind Cfg.sample 0x203C#32 = some (.tailPtr 7) := by decide

theorem witness_DevInitRebuildsOneDevice : devOk ring3.cfg 1#4 = true ∧ (ring3.seqAt 1#4).st = .idle ∧
    ∀ u ∈ ring3.updating, u.1 ≠ 1#4 := ⟨by decide, by decide, fun _ h => nomatch (show _ ∈ ([] : List _) from h)⟩

theorem witness_DeviceOutOfRangeIsInvalid : State.reset.cfg.nDev ≤ (2#4).toNat ∧
    State.reset.cfg.nSubdev ≤ (2#2).toNat ∧ State.reset.cfg.nRing ≤ (8#6).toNat ∧
    ([1#64, 2#64, 3#64, 4#64] : List DWord).length ≤ 4 := by decide

theorem witness_SourceStepPropagatesAtOnce :
    let s := ready.setEnLo 1#4 1#2 4 1#32
    ((1#4).toNat < s.cfg.nDev ∧ (1#2).toNat < s.cfg.nSubdev ∧ 4 < s.cfg.leaves.length ∧ (1#32 : Word) ≠ 0#32) ∧
    ¬ 5 < s.cfg.leaves.length ∧ slotOf s.cfg 4 = some 4 ∧
    (s.statusAt 1#4 1#2 4 ||| 1#32) &&& (s.enHiAt 1#4 1#2 4 ||| s.enLoAt 1#4 1#2 4) ≠ 0#32 ∧
    (leafDesc s.cfg 4).shadowMask &&& ~~~ s.shadowMskAt 1#4 1#2 4 ≠ 0#32 := by decide

theorem witness_PointerWordRoundTrip : Cfg.sample.ptrIdxW ≤ 31 ∧ (1048575 : Nat) < 2 ^ Cfg.sample.ptrIdxW ∧
    Cfg.sample.ptrIdxW = 20 := by decide +kernel

theorem witness_AdvanceTogglesWrap : 1 ≤ 1 ∧ (Ptr.mk true 0).idx < 1 := by decide

theorem witness_OccupancyLaws : validPtrs ⟨false, 14⟩ ⟨true, 14⟩ 16 = true ∧ validPtrs ⟨true, 9⟩ ⟨true, 9⟩ 16 = true ∧
    ((0 : Nat) : Int) ≤ 16 - usedInt ⟨false, 14⟩ ⟨true, 14⟩ 16 ∧ ((16 : Nat) : Int) ≤ usedInt ⟨false, 14⟩ ⟨true, 14⟩ 16 := by
  decide

theorem witness_ValidPairsAreWithinDepth : 1 ≤ 16 ∧ (Ptr.mk false 15).idx < 16 ∧ (Ptr.mk true 15).idx < 16 := by decide

/-- Ring 5, which the hardware fills, empty. -/
def ring5 : State := ready.setView 0#4 0#2 5#6 (freshView 0x1000#64 1048575#32 1#16 true)

/-- A step on either kind of ring at the end of its room, and none one place further. -/
theorem witness_DmaStepKeepsRingValid : ring3.cfg.ptrIdxW ≤ 31 ∧
    ((0#4).toNat < ring3.cfg.nDev ∧ (0#2).toNat < ring3.cfg.nSubdev ∧ (3#6).toNat < ring3.cfg.nRing) ∧
    (ring3.viewAt 0#4 0#2 3#6).depth.toNat < 2 ^ ring3.cfg.ptrIdxW ∧ (ring3.viewAt 0#4 0#2 3#6).depth ≠ 0#32 ∧
    (ring3.viewAt 0#4 0#2 3#6).base ≠ 0#64 ∧ ringDir ring3.cfg 3#6 = .hostProduces ∧
    validPtrs (ringHead ring3 0#4 0#2 3#6) (ringTail ring3 0#4 0#2 3#6) 16 = true ∧
    usedInt (ringHead ring3 0#4 0#2 3#6) (ringTail ring3 0#4 0#2 3#6) 16 = 4 ∧
    (ring3.viewAt 0#4 0#2 3#6).depth = 16#32 ∧
    dmaEnabled ring3 0#4 0#2 3#6 4 = true ∧ dmaEnabled ring3 0#4 0#2 3#6 5 = false ∧
    (ring5.viewAt 0#4 0#2 5#6).depth.toNat < 2 ^ ring5.cfg.ptrIdxW ∧ ringDir ring5.cfg 5#6 = .hwProduces ∧
    dmaEnabled ring5 0#4 0#2 5#6 1048575 = true ∧ dmaEnabled ring5 0#4 0#2 5#6 1048576 = false := by decide +kernel

theorem witness_RingCfgCreatesView : ringIdsOk ready.cfg 1#4 1#2 7#6 = true ∧ ready.readyAt 1#4 = true ∧
    (∀ u ∈ ready.updating, u.1 ≠ 1#4) ∧ (ready.viewAt 1#4 1#2 7#6).depth = 0#32 ∧
    (1048575#32).toNat < 2 ^ ready.cfg.ptrIdxW :=
  ⟨by decide, by decide, fun _ h => (nomatch (show _ ∈ ([] : List _) from h)), by decide, by decide +kernel⟩

theorem witness_RingCfgRefusals : ringIdsOk ring3.cfg 0#4 0#2 3#6 = true ∧ (∀ u ∈ ring3.updating, u.1 ≠ 0#4) ∧
    State.reset.readyAt 0#4 = false ∧ ring3.readyAt 0#4 = true ∧ (ring3.viewAt 0#4 0#2 3#6).depth ≠ 0#32 ∧
    (ring3.viewAt 0#4 0#2 3#6).base ≠ 0#64 ∧ 2 ^ ring3.cfg.ptrIdxW ≤ (1048576#32).toNat :=
  ⟨by decide, fun _ h => (nomatch (show _ ∈ ([] : List _) from h)), by decide, by decide, by decide, by decide,
    by decide +kernel⟩

theorem witness_UsedReturnsOccupancy : ringIdsOk ring3.cfg 0#4 0#2 3#6 = true ∧ ringIdsOk ring3.cfg 0#4 0#2 7#6 = true ∧
    (ring3.viewAt 0#4 0#2 7#6).depth = 0#32 ∧ (ring3.viewAt 0#4 0#2 3#6).depth ≠ 0#32 ∧
    (ring3.viewAt 0#4 0#2 3#6).base ≠ 0#64 := by decide

theorem witness_RingDumpReturnsView : ringIdsOk ring3.cfg 1#4 1#2 7#6 = true := by decide

theorem witness_UpdateViewTakesSnapshot : Quiet ring3 ∧ ringIdsOk ring3.cfg 0#4 0#2 3#6 = true ∧
    ring3.readyAt 0#4 = true ∧ (ring3.viewAt 0#4 0#2 3#6).depth ≠ 0#32 ∧ (ring3.viewAt 0#4 0#2 3#6).base ≠ 0#64 ∧
    (0#4, 0#2, 3#6) ∉ ring3.updating := by decide

theorem witness_UpdateViewNoOp : ringIdsOk ring3.cfg 0#4 0#2 7#6 = true ∧ (ring3.viewAt 0#4 0#2 7#6).depth = 0#32 ∧
    State.reset.readyAt 0#4 = false := by decide

/-- The torn snapshot's ring, the engine scheduled between the two reads. -/
def torn : State := { ring3 with sched := [[.dmaAdv 0#4 0#2 3#6 4]] }

theorem witness_TornSnapshotCorrectsItself : torn.sched = [[.dmaAdv 0#4 0#2 3#6 4]] ∧ torn.cfg.ptrIdxW ≤ 30 ∧
    torn.readyAt 0#4 = true ∧ (torn.viewAt 0#4 0#2 3#6).depth.toNat < 2 ^ torn.cfg.ptrIdxW ∧
    (0#4, 0#2, 3#6) ∉ torn.updating ∧ ringDir torn.cfg 3#6 = .hostProduces ∧ dmaEnabled torn 0#4 0#2 3#6 4 = true := by
  decide +kernel

theorem witness_CompleteTableServesEveryLeaf : ∃ t body, slotTable Cfg.sample 4 = some t ∧
    tableComplete Cfg.sample t = true ∧ (4#32).getLsbD 2 = true ∧ tableEntry t 2 = some body ∧ 4 ∈ bodyLeaves body :=
  ⟨_, _, rfl, by decide, by decide, rfl, by decide⟩

theorem witness_EachLeafServicedAtMostOnce : cfgWf Cfg.sample = true ∧ 4 < 16 ∧ 2 ∈ leavesToService Cfg.sample 4 5#32 := by
  decide

/-- R32, R188: bits in ascending order, a group in table order; a bit with no entry and a bit not set lead nowhere. -/
theorem test_walk_order : leavesToService Cfg.sample 4 0xFFFFFFFF#32 = [2, 3, 4] ∧
    leavesToService Cfg.sample 4 4#32 = [4] ∧ leavesToService Cfg.sample 4 2#32 = [] ∧
    leavesToService Cfg.sample 1 1#32 = [] := by decide

theorem witness_DispatchMessageIsTheRules : r198.cbAt 0#4 1 = none ∧ r198.cbAt 0#4 0 = some ⟨0xA0#32, 1#64⟩ ∧
    r198.cfg.cbOnZero = false ∧ (5#32 : Word) ≠ 0#32 ∧ Quiet r198 := by decide

theorem witness_IdlePollIsOneRead : Quiet ready ∧ idsOk ready.cfg 1#4 1#2 = true ∧ ready.readyAt 1#4 = true ∧
    (ready.seqAt 1#4).st = .idle ∧ glbShadowAt ready 1#4 1#2 = 0#32 := by decide

/-- A device in the middle of a poll. -/
def busy : State := ready.setSeq 0#4 { Seq.reset with st := .globalCheck }

theorem witness_PollEntryTests : idsOk ready.cfg 0#4 2#2 = false ∧ idsOk ready.cfg 0#4 1#2 = true ∧
    State.reset.readyAt 0#4 = false ∧ busy.readyAt 0#4 = true ∧ (busy.seqAt 0#4).st ≠ .idle ∧
    ready.readyAt 0#4 = true ∧ (ready.seqAt 0#4).st = .idle := by decide

/-- A pending leaf with no callback. -/
def pending : State := (raised 5#32 ready).setEnHi 0#4 0#2 0 ones

theorem witness_PollWithoutCallbacks : Quiet pending ∧ idsOk pending.cfg 0#4 0#2 = true ∧ pending.readyAt 0#4 = true ∧
    (pending.seqAt 0#4).st = .idle ∧ NoCallbacks pending 0#4 ∧ setSlots (latchedGlobal pending false 0#4 0#2) = [0] ∧
    visitedLeaves pending false 0#4 0#2 0 = [0] :=
  ⟨rfl, by decide, by decide, by decide, fun _ => rfl, by decide, by decide⟩

theorem witness_PollReturnsToIdle : Settled r198 ∧ idsOk r198.cfg 0#4 0#2 = true ∧ r198.readyAt 0#4 = true ∧
    HandlersAllowed r198 0#4 := by
  refine ⟨⟨rfl, rfl, rfl, fun d => rfl⟩, by decide, by decide, ?_⟩
  intro L cb h m hm i hi
  have hcb : Store.get none [(0, some (Callback.mk 0xA0#32 1#64))] (dKey 0#4 L) = some cb := h
  simp only [Store.get] at hcb
  split at hcb
  · cases hcb
    have hh : handlerCommands r198.cfg m = [.wr m.dev m.sub m.statusAddr m.raw] := by
      show handlerCommands Cfg.sample m = _
      simp [handlerCommands, Cfg.sample, hm, handlerStepCommand, handlerArg]
    rw [hh, List.mem_singleton] at hi
    subst hi
    rfl
  · cases hcb

theorem witness_PollAccessBound : cfgWf pending.cfg = true ∧ Quiet pending ∧ NoCallbacks pending 0#4 ∧
    (run? (.poll true 0#4 0#2) pending).map (fun t => t.trace.length) = some 50 :=
  ⟨by decide, rfl, fun _ => rfl, by decide +kernel⟩

theorem witness_BusyDeviceIsRefused : idsOk busy.cfg 0#4 0#2 = true ∧ busy.readyAt 0#4 = true ∧
    leafOf busy.cfg 0x1040#32 = some 4 ∧ (busy.seqAt 0#4).st ≠ .idle ∧ 0#4 ∉ busy.polling := by decide

theorem witness_CbRegReplacesCallback : devOk r198.cfg 0#4 = true ∧ leafOf r198.cfg 0x1000#32 = some 0 ∧
    r198.readyAt 0#4 = true ∧ (r198.seqAt 0#4).st = .idle := by decide

theorem witness_CallbackCommandRefusals : devOk State.reset.cfg 1#4 = true ∧
    (∀ a ∈ State.reset.cfg.leaves.map LeafDesc.statusAddr, a.toNat ≠ 0x1004) ∧
    leafOf State.reset.cfg 0x1004#32 = none ∧
    leafOf State.reset.cfg 0x1040#32 = some 4 ∧ State.reset.readyAt 1#4 = false := by
  refine ⟨by decide, ?_, by decide, by decide, by decide⟩
  simp [State.reset, State.resetWith, Cfg.sample, sampleLeaf]

theorem witness_OverlapsAreRefused : (ring3.threadAt 1).frames = [] ∧ ringIdsOk ring3.cfg 0#4 0#2 3#6 = true ∧
    ring3.readyAt 0#4 = true ∧ (ring3.viewAt 0#4 0#2 3#6).depth ≠ 0#32 ∧ (ring3.viewAt 0#4 0#2 3#6).base ≠ 0#64 ∧
    (0#4, 0#2, 3#6) ∉ ring3.updating ∧ ringIdsOk ring3.cfg 0#4 1#2 7#6 = true ∧ (ring3.seqAt 0#4).st = .idle ∧
    0#4 ∈ (busy.setPolling [1#4, 0#4]).polling := by decide

/-- R312: a `RING_CFG` of another ring of the device does not overlap an `UPDATE_VIEW`; one of another device may. -/
theorem test_ring_cfg_overlap :
    exec (.ringCfg 0#4 1#2 7#6 1#64 1#32 1#16 false) { ring3 with updating := [(0#4, 0#2, 3#6)] } =
      .refused (.ringBusy 0#4) ∧
    (run? (.ringCfg 1#4 0#2 3#6 1#64 1#32 1#16 false) { ring3 with updating := [(0#4, 0#2, 3#6)] }).isSome = true :=
  ⟨rfl, by decide +kernel⟩

theorem witness_CntShowReportsAndCopies : devOk r198.cfg 0#4 = true ∧ leafOf r198.cfg 0x1040#32 = some 4 ∧
    (r198.seqAt 0#4).st = .idle ∧ 0#4 ∈ (busy.setPolling [0#4]).polling ∧
    ((busy.setPolling [0#4]).seqAt 0#4).st ≠ .idle := by decide

theorem witness_InjectAllSetsPattern : idsOk ready.cfg 1#4 1#2 = true ∧ leafOf ready.cfg 0x1040#32 = some 4 ∧
    ready.readyAt 1#4 = true ∧ leafOk ready.cfg 1#4 1#2 4 = true := by decide

theorem witness_EnableAllWritesHiThenLo : Quiet ready ∧ idsOk ready.cfg 1#4 1#2 = true ∧
    leafOf ready.cfg 0x1040#32 = some 4 ∧ ready.readyAt 1#4 = true ∧ leafOk ready.cfg 1#4 1#2 4 = true := by decide

/-- The configuration of V40: the gate denies leaf `L1` of space (0, 0). -/
def denied : State := { ready with
  cfg := { Cfg.sample with secDeny := [0x1010#32, 0x1014#32, 0x1018#32, 0x101C#32].map (fun a => (0#4, 0#2, a)) } }

theorem witness_DeniedLeafSeesNoAccess : cfgWf denied.cfg = true ∧ idsOk denied.cfg 0#4 0#2 = true ∧
    leafOf denied.cfg 0x1010#32 = some 1 ∧ leafOk denied.cfg 0#4 0#2 1 = false ∧ State.reset.readyAt 0#4 = false ∧
    leafOf denied.cfg 0x1000#32 = some 0 ∧ leafOk denied.cfg 0#4 0#2 0 = true ∧ denied.readyAt 0#4 = true ∧
    Quiet denied := by decide

theorem witness_LogEventFillsClaimedSlot : Quiet State.reset ∧ ringIdsOk State.reset.cfg 1#4 1#2 7#6 = true ∧
    ([1#64, 2#64, 3#64, 4#64] : List DWord).length ≤ 4 := by decide

theorem witness_LogReadReturnsRecords : Quiet { logged with allocIn := [true] } ∧ idsOk logged.cfg 1#4 1#2 = true ∧
    allocValue { logged with allocIn := [true] } = true := by decide

theorem witness_LogReadAllocationFailure : idsOk logged.cfg 0#4 0#2 = true ∧
    allocValue { logged with allocIn := [false] } = false ∧ logged.cfg.allocCanFail = true ∧ { Cfg.sample with allocCanFail := false }.allocCanFail = false := by
  decide

/-- Two log calls, and two draws of the clock. -/
def calls : List LogCall := [⟨3#6, .push, 4#32, 10#32, [1#64]⟩, ⟨7#6, .dmaWr, 0#32, 0#32, []⟩]

/-- The state they start from. -/
def drawing : State := { State.reset with clockIn := [1#64, 2#64], allocIn := [true] }

theorem witness_LogWrapsAround : Quiet drawing ∧ idsOk drawing.cfg 1#4 1#2 = true ∧
    (∀ e ∈ calls, e.legal drawing.cfg = true) ∧ drawing.logEntries = [] ∧ drawing.logNext = 0#64 ∧
    calls.length ≤ drawing.clockIn.length ∧ (∀ t ∈ drawing.clockIn, t ≠ 0#64) :=
  ⟨rfl, by decide, by simp [calls, LogCall.legal, dataFits, ringOk, drawing, State.reset, State.resetWith, Cfg.sample], rfl,
    rfl, by decide, by simp [drawing]⟩

theorem witness_LogEventMicroSteps : ringIdsOk State.reset.cfg 1#4 1#2 7#6 = true ∧
    ([1#64, 2#64, 3#64, 4#64] : List DWord).length ≤ 4 ∧ (State.reset.threadAt 0).frames = [] := by decide

theorem witness_MaskGatesGlobalWordOnly : (15 : Nat) < 16 ∧ (0 : Nat) ≠ 15 ∧
    shadowIntAt pending 0#4 0#2 0 ≠ 0#32 := by decide

theorem witness_ConsecutiveSlotsDiffer : (0 : Nat) < 1023 ∧ (1023 : Nat) < 1024 := by decide

theorem witness_StepKeepsStoresCanonical : StoresCanonical (atPort [0x0C000000#32]) ∧
    next? (step (atPort [0x0C000000#32])) = some { State.reset with devReady := [(0, true)] } := by
  refine ⟨?_, by decide⟩
  unfold StoresCanonical
  decide

theorem witness_StepKeepsRegistersInRange : RegistersInRange (atPort [0x0C000000#32]) ∧
    next? (step (atPort [0x0C000000#32])) = some { State.reset with devReady := [(0, true)] } :=
  ⟨⟨fun _ => BitVec.zero_and, fun _ => BitVec.zero_and, fun _ _ _ => ⟨Nat.two_pow_pos _, Nat.two_pow_pos _, Nat.two_pow_pos _, rfl⟩,
    fun _ _ _ h => (by cases h), fun _ h => (by cases h), rfl⟩, by decide⟩

theorem witness_StepKeepsConfigAndReadiness : next? (step { ready with port := [0x28007000#32] }) =
    some { ready with resp := ⟨.ok, [0#32]⟩ } ∧ ready.readyAt 1#4 = true := by decide

theorem witness_FailureChangesNothing : resp? (.logRead 0#4 0#2 0#64) { logged with allocIn := [false] } =
    some ⟨.noResource, []⟩ ∧ Status.noResource ≠ .ok := by decide

end Sys2Proof.Tests
end

section
/-! PROOFS. The derived words of the masked status shadow tree bit by bit (R38, R39, R40), and the state after reset
(R50). -/

namespace Sys2Proof.Machine

/-! ## The derived words, bit by bit -/

/-- A leaf is pending when a status bit and one of its two enables are set together (R38). -/
theorem leafPending_eq_true_iff (st : State) (d : DevId) (s : SubId) (L : LeafId) :
    leafPending st d s L = true ↔ st.statusAt d s L &&& (st.enHiAt d s L ||| st.enLoAt d s L) ≠ 0#32 :=
  decide_eq_true_iff

/-- Each bit of a shadow word comes from a pending leaf of the slot that carries it in its mask (R38). -/
theorem getLsbD_shadowIntAt (st : State) (d : DevId) (s : SubId) (i b : Nat) :
    (shadowIntAt st d s i).getLsbD b = true ↔
      ∃ L, L < st.cfg.leaves.length ∧ slotOf st.cfg L = some i ∧
        (leafDesc st.cfg L).shadowMask.getLsbD b = true ∧ leafPending st d s L = true := by
  unfold shadowIntAt
  rw [getLsbD_orAll]
  constructor
  · rintro ⟨w, hw, hbit⟩
    obtain ⟨L, hL, rfl⟩ := List.mem_map.mp hw
    obtain ⟨hlen, hslot, hpend⟩ : L < st.cfg.leaves.length ∧ slotOf st.cfg L = some i ∧ leafPending st d s L = true := by
      simpa using hL
    exact ⟨L, hlen, hslot, hbit, hpend⟩
  · rintro ⟨L, hlen, hslot, hbit, hpend⟩
    exact ⟨_, List.mem_map_of_mem (by simp [hlen, hslot, hpend]), hbit⟩

/-- With no leaf pending every shadow word is zero. -/
theorem shadowIntAt_eq_zero_of_not_leafPending (st : State) (d : DevId) (s : SubId) (i : Nat)
    (h : ∀ L, leafPending st d s L = false) : shadowIntAt st d s i = 0#32 := by
  apply BitVec.eq_of_getLsbD_eq
  intro b _
  have hbit : ¬ (shadowIntAt st d s i).getLsbD b = true := by
    rw [getLsbD_shadowIntAt]
    rintro ⟨L, -, -, -, hpend⟩
    simp [h L] at hpend
  simpa using hbit

/-- A bit of the global word is its slot's unmasked shadow bits, for the sixteen slots there are (R39). -/
theorem getLsbD_glbShadowAt (st : State) (d : DevId) (s : SubId) (i : Nat) :
    (glbShadowAt st d s).getLsbD i = true ↔ i < 16 ∧ shadowIntAt st d s i &&& ~~~ st.shadowMskAt d s i ≠ 0#32 := by
  unfold glbShadowAt
  rw [getLsbD_wordOfBits _ _ _ (by decide), Bool.and_eq_true, decide_eq_true_iff, decide_eq_true_iff]

/-- With every shadow word zero the global word is zero, whatever the masks. -/
theorem glbShadowAt_eq_zero_of_shadowIntAt (st : State) (d : DevId) (s : SubId)
    (h : ∀ i, shadowIntAt st d s i = 0#32) : glbShadowAt st d s = 0#32 := by
  apply BitVec.eq_of_getLsbD_eq
  intro i _
  have hbit : ¬ (glbShadowAt st d s).getLsbD i = true := by
    rw [getLsbD_glbShadowAt, h i]
    simp
  simpa using hbit

/-- The wire follows the global word (R40). -/
theorem intLine_eq_true_iff (st : State) (d : DevId) (s : SubId) :
    intLine st d s = true ↔ glbShadowAt st d s ≠ 0#32 :=
  decide_eq_true_iff

/-! ## The state after reset -/

@[simp] theorem statusAt_resetWith (c : Cfg) (d : DevId) (s : SubId) (L : LeafId) :
    (State.resetWith c).statusAt d s L = 0#32 := rfl
@[simp] theorem enHiAt_resetWith (c : Cfg) (d : DevId) (s : SubId) (L : LeafId) :
    (State.resetWith c).enHiAt d s L = 0#32 := rfl
@[simp] theorem enLoAt_resetWith (c : Cfg) (d : DevId) (s : SubId) (L : LeafId) :
    (State.resetWith c).enLoAt d s L = 0#32 := rfl
@[simp] theorem shadowMskAt_resetWith (c : Cfg) (d : DevId) (s : SubId) (i : Nat) :
    (State.resetWith c).shadowMskAt d s i = 0#32 := rfl
@[simp] theorem headPtrAt_resetWith (c : Cfg) (d : DevId) (s : SubId) (r : Nat) :
    (State.resetWith c).headPtrAt d s r = 0#32 := rfl
@[simp] theorem tailPtrAt_resetWith (c : Cfg) (d : DevId) (s : SubId) (r : Nat) :
    (State.resetWith c).tailPtrAt d s r = 0#32 := rfl
@[simp] theorem cbAt_resetWith (c : Cfg) (d : DevId) (L : LeafId) : (State.resetWith c).cbAt d L = none := rfl
@[simp] theorem countAt_resetWith (c : Cfg) (d : DevId) (L : LeafId) (b : Nat) :
    (State.resetWith c).countAt d L b = 0#32 := rfl
@[simp] theorem countShownAt_resetWith (c : Cfg) (d : DevId) (L : LeafId) (b : Nat) :
    (State.resetWith c).countShownAt d L b = 0#32 := rfl
@[simp] theorem viewAt_resetWith (c : Cfg) (d : DevId) (s : SubId) (r : RingId) :
    (State.resetWith c).viewAt d s r = View.zero := rfl
@[simp] theorem logAt_resetWith (c : Cfg) (j : Nat) : (State.resetWith c).logAt j = LogEntry.empty := rfl
@[simp] theorem logNext_resetWith (c : Cfg) : (State.resetWith c).logNext = 0#64 := rfl
@[simp] theorem logLock_resetWith (c : Cfg) : (State.resetWith c).logLock = none := rfl
@[simp] theorem seqAt_resetWith (c : Cfg) (d : DevId) : (State.resetWith c).seqAt d = Seq.reset := rfl
@[simp] theorem readyAt_resetWith (c : Cfg) (d : DevId) : (State.resetWith c).readyAt d = false := rfl

/-- After reset no status bit is set, so no leaf is pending. -/
@[simp] theorem leafPending_resetWith (c : Cfg) (d : DevId) (s : SubId) (L : LeafId) :
    leafPending (State.resetWith c) d s L = false := by
  simp [leafPending]

@[simp] theorem shadowIntAt_resetWith (c : Cfg) (d : DevId) (s : SubId) (i : Nat) :
    shadowIntAt (State.resetWith c) d s i = 0#32 :=
  shadowIntAt_eq_zero_of_not_leafPending _ d s i (leafPending_resetWith c d s)

@[simp] theorem glbShadowAt_resetWith (c : Cfg) (d : DevId) (s : SubId) : glbShadowAt (State.resetWith c) d s = 0#32 :=
  glbShadowAt_eq_zero_of_shadowIntAt _ d s (shadowIntAt_resetWith c d s)

@[simp] theorem intLine_resetWith (c : Cfg) (d : DevId) (s : SubId) : intLine (State.resetWith c) d s = false := by
  simp [intLine]

/-! ## The statements -/

/-- Settles O16: the word is an OR of masks, so a bit of it is a bit of one of them. -/
theorem shadowBitIsPendingLeaf : Obligations.ShadowBitIsPendingLeaf :=
  ⟨leafPending_eq_true_iff, getLsbD_shadowIntAt, fun _ _ _ _ _ => ⟨rfl, rfl⟩, shadowIntAt_resetWith⟩

/-- Settles O17: the word is built bit by bit for the sixteen slots, and the wire compares it with zero. -/
theorem globalBitIsUnmaskedSlot : Obligations.GlobalBitIsUnmaskedSlot :=
  ⟨getLsbD_glbShadowAt, fun _ _ _ _ => ⟨rfl, rfl⟩, intLine_eq_true_iff, glbShadowAt_resetWith⟩

/-- Settles O55: every array is empty after reset and reads its default, and with no leaf pending the derived words are
zero. -/
theorem resetValues : Obligations.ResetValues := by
  intro c d s
  refine ⟨fun L => ⟨statusAt_resetWith c d s L, enHiAt_resetWith c d s L, enLoAt_resetWith c d s L, cbAt_resetWith c d L,
      fun b => ⟨countAt_resetWith c d L b, countShownAt_resetWith c d L b⟩⟩,
    fun i => ⟨shadowMskAt_resetWith c d s i, shadowIntAt_resetWith c d s i⟩,
    glbShadowAt_resetWith c d s, intLine_resetWith c d s,
    fun r => ⟨headPtrAt_resetWith c d s r, tailPtrAt_resetWith c d s r⟩, viewAt_resetWith c d s,
    logAt_resetWith c, logNext_resetWith c, logLock_resetWith c, ?sequencer, readyAt_resetWith c d⟩
  case sequencer => simp [Seq.reset]

end Sys2Proof.Machine
end

section
/-! PROOFS. Register access: an address that names a register is that register's address (R36), and what `RD` answers
(R120). -/

namespace Sys2Proof.Machine

/-! ## Addresses and registers -/

/-- The entry a search by address finds has that address. -/
theorem getD_addr_of_findIdx? {α : Type} (f : α → Addr) {xs : List α} {a : Addr} {i : Nat} (dflt : α)
    (h : xs.findIdx? (fun x => decide (f x = a)) = some i) : f (xs.getD i dflt) = a := by
  obtain ⟨hlt, hat, -⟩ := List.findIdx?_eq_some_iff_getElem.mp h
  rw [List.getD_eq_getElem xs dflt hlt]
  exact of_decide_eq_true hat

/-- Half of R36 that needs no well-formed configuration: the register an address names has that address. Each case is
one table `KIND` searches. -/
theorem addrOf_of_kind {c : Cfg} {a : Addr} {reg : Reg} (h : kind c a = some reg) : addrOf c reg = a := by
  unfold kind at h
  split at h
  · next hglb => cases h; exact hglb.symm
  split at h
  · next hidx => cases h; exact getD_addr_of_findIdx? id _ hidx
  split at h
  · next hidx => cases h; exact getD_addr_of_findIdx? id _ hidx
  split at h
  · next hidx => cases h; exact getD_addr_of_findIdx? LeafDesc.statusAddr _ hidx
  split at h
  · next hidx => cases h; exact getD_addr_of_findIdx? LeafDesc.enHiAddr _ hidx
  split at h
  · next hidx => cases h; exact getD_addr_of_findIdx? LeafDesc.enLoAddr _ hidx
  split at h
  · next hidx => cases h; exact getD_addr_of_findIdx? LeafDesc.injectAddr _ hidx
  split at h
  · next hidx => cases h; exact getD_addr_of_findIdx? id _ hidx
  split at h
  · next hidx => cases h; exact getD_addr_of_findIdx? id _ hidx
  · cases h

/-! ## What `RD` answers -/

theorem exec_rd (d : DevId) (s : SubId) (a : Addr) (st : State) : exec (.rd d s a) st = execRd d s a st := rfl

/-- The refusal of an id out of range comes before the address is looked at (R120). -/
theorem execRd_of_not_idsOk {d : DevId} {s : SubId} {a : Addr} {st : State} (hids : idsOk st.cfg d s = false) :
    execRd d s a st = st.fail rInvalid := by
  unfold execRd
  rw [if_pos hids]

theorem execRd_of_unmapped {d : DevId} {s : SubId} {a : Addr} {st : State} (hids : idsOk st.cfg d s = true)
    (hkind : kind st.cfg a = none) : execRd d s a st = st.fail rInvalid := by
  simp [execRd, hids, hkind]

/-- A mapped address is read through the transport, and the word read is the one result word (R120). -/
theorem execRd_of_mapped {d : DevId} {s : SubId} {a : Addr} {st : State} {reg : Reg} (hids : idsOk st.cfg d s = true)
    (hkind : kind st.cfg a = some reg) :
    execRd d s a st = .next ((regRead st d s reg).respond ⟨.ok, [regValue st d s reg]⟩) := by
  simp [execRd, hids, hkind]

/-! ## The statement -/

/-- Settles O9: `RD` has three outcomes; in the mapped one the transport shows the register's own address, which
is the address asked for. The read values are the cases of `regValue`. -/
theorem rdReturnsRegister : Obligations.RdReturnsRegister := by
  intro d s a st
  refine ⟨fun hids => ?outOfRange, fun hids hkind => ?unmapped, fun reg hids hkind => ?mapped,
    fun _ => ⟨rfl, rfl, rfl, rfl⟩, fun _ => ⟨rfl, rfl⟩, fun _ => ⟨rfl, rfl⟩, rfl⟩
  case outOfRange => exact (exec_rd d s a st).trans (execRd_of_not_idsOk hids)
  case unmapped => exact (exec_rd d s a st).trans (execRd_of_unmapped hids hkind)
  case mapped =>
    rw [exec_rd, execRd_of_mapped hids hkind, regRead_eq, addrOf_of_kind hkind]
    rfl

end Sys2Proof.Machine
end

section
/-! PROOFS. Ring pointers: the position of a pointer on the circle of `2 * depth` places determines it (R150), an advance
is an addition on that circle (R152), and a pair is valid iff its occupancy is between 0 and `depth` (R151, R156). -/

namespace Sys2Proof.Machine

/-! ## Positions on the circle -/

/-- A position is one of the `2 * depth` places of the circle (R150). -/
theorem pos_lt {p : Ptr} {depth : Nat} (h : p.idx < depth) : pos p depth < 2 * depth := by
  cases hw : p.wrap <;> simp only [pos, hw, Bool.toNat_false, Bool.toNat_true] <;> omega

/-- The wrap bit is the lap the position lies in (R150). -/
theorem pos_div {p : Ptr} {depth : Nat} (h : p.idx < depth) : pos p depth / depth = p.wrap.toNat := by
  rw [pos, Nat.mul_comm, Nat.mul_add_div (by omega), Nat.div_eq_of_lt h, Nat.add_zero]

/-- The index is the place within the lap (R150). -/
theorem pos_mod {p : Ptr} {depth : Nat} (h : p.idx < depth) : pos p depth % depth = p.idx := by
  rw [pos, Nat.mul_add_mod_of_lt h]

/-- Two pointers of a ring at the same position are the same pointer (R150). -/
theorem eq_of_pos_eq {p q : Ptr} {depth : Nat} (hp : p.idx < depth) (hq : q.idx < depth)
    (h : pos p depth = pos q depth) : p = q := by
  have hwrap : p.wrap.toNat = q.wrap.toNat := by rw [← pos_div hp, h, pos_div hq]
  have hidx : p.idx = q.idx := by rw [← pos_mod hp, h, pos_mod hq]
  obtain ⟨pw, pi⟩ := p
  obtain ⟨qw, qi⟩ := q
  exact congrArg₂ Ptr.mk (Function.LeftInverse.injective Bool.ofNat_toNat hwrap) hidx

/-! ## The advance -/

/-- The wrap bit of an advanced pointer is the lap of the position it comes to (R152). -/
theorem adv_wrap_toNat {p : Ptr} {depth : Nat} (n : Nat) (h : p.idx < depth) :
    (adv p n depth).wrap.toNat = (pos p depth + n) % (2 * depth) / depth := by
  have hlap : (pos p depth + n) % (2 * depth) / depth < 2 :=
    Nat.div_lt_of_lt_mul (Nat.mul_comm 2 depth ▸ Nat.mod_lt _ (by omega))
  rw [adv_of_lt n h, advCircle]
  generalize (pos p depth + n) % (2 * depth) / depth = lap at hlap
  interval_cases lap <;> rfl

/-- The index of an advanced pointer is the place within that lap (R152). -/
theorem adv_idx {p : Ptr} {depth : Nat} (n : Nat) (h : p.idx < depth) :
    (adv p n depth).idx = (pos p depth + n) % (2 * depth) % depth := by
  rw [adv_of_lt n h, advCircle]

/-- An advance is an addition on the circle (R152). -/
theorem pos_adv {p : Ptr} {depth : Nat} (n : Nat) (h : p.idx < depth) :
    pos (adv p n depth) depth = (pos p depth + n) % (2 * depth) := by
  rw [pos, adv_wrap_toNat n h, adv_idx n h, Nat.div_add_mod']

/-- To know where an advance leads it is enough to know the position it leads to. -/
theorem adv_eq_of_pos_eq {p q : Ptr} {n depth : Nat} (hp : p.idx < depth) (hq : q.idx < depth)
    (h : pos q depth = (pos p depth + n) % (2 * depth)) : adv p n depth = q :=
  eq_of_pos_eq (adv_idx_lt n hp) hq ((pos_adv n hp).trans h.symm)

/-- Short of the end of the ring, one place is one more in the index (R152). -/
theorem adv_one_of_lt {p : Ptr} {depth : Nat} (h : p.idx + 1 < depth) : adv p 1 depth = ⟨p.wrap, p.idx + 1⟩ := by
  have hp : p.idx < depth := by omega
  have hpos : pos ⟨p.wrap, p.idx + 1⟩ depth = pos p depth + 1 := rfl
  refine adv_eq_of_pos_eq hp h ?_
  rw [← hpos, Nat.mod_eq_of_lt (pos_lt h)]

/-- From the last entry of the ring, one place leads to index 0 and toggles the wrap bit (R152). -/
theorem adv_one_of_last {p : Ptr} {depth : Nat} (h : p.idx + 1 = depth) : adv p 1 depth = ⟨!p.wrap, 0⟩ := by
  have hsum : pos p depth + 1 = p.wrap.toNat * depth + depth := by rw [pos, Nat.add_assoc, h]
  refine adv_eq_of_pos_eq (by omega) (show 0 < depth by omega) ?_
  rw [hsum]
  cases p.wrap with
  | false => simpa [pos] using (Nat.mod_eq_of_lt (show depth < 2 * depth by omega)).symm
  | true => simp [pos, ← Nat.two_mul]

/-- A whole turn of `2 * depth` places leads back (R152). -/
theorem adv_two_mul_depth {p : Ptr} {depth : Nat} (h : p.idx < depth) : adv p (2 * depth) depth = p := by
  refine adv_eq_of_pos_eq h h ?_
  rw [Nat.add_mod_right, Nat.mod_eq_of_lt (pos_lt h)]

/-! ## Validity -/

/-- `validPtrs` as the condition R151 writes. -/
theorem validPtrs_eq_true_iff (head tail : Ptr) (depth : Nat) : validPtrs head tail depth = true ↔
    1 ≤ depth ∧ head.idx < depth ∧ tail.idx < depth ∧
      ((tail.wrap = head.wrap ∧ head.idx ≤ tail.idx) ∨ (tail.wrap ≠ head.wrap ∧ tail.idx ≤ head.idx)) := by
  by_cases hw : tail.wrap = head.wrap <;> simp [validPtrs, hw, and_assoc]

/-- The difference of two positions is the occupancy of R156, less a whole turn where the tail alone is back in the
first lap. -/
theorem pos_sub_pos (head tail : Ptr) (depth : Nat) : (pos tail depth : Int) - pos head depth =
    usedInt head tail depth - 2 * (depth : Int) * (head.wrap && !tail.wrap).toNat := by
  unfold usedInt pos
  cases head.wrap <;> cases tail.wrap <;> simp <;> omega

/-- On any two pointers, the occupancy is the distance from head to tail on the circle. -/
theorem pos_sub_pos_emod (head tail : Ptr) (depth : Nat) :
    ((pos tail depth : Int) - pos head depth) % (2 * (depth : Int)) = usedInt head tail depth % (2 * (depth : Int)) := by
  rw [pos_sub_pos, Int.sub_mul_emod_self_left]

/-- Whatever the wrap bits, the occupancy of two pointers of a ring lies above `-depth` and below `2 * depth`. -/
theorem usedInt_bounds {head tail : Ptr} {depth : Nat} (hhead : head.idx < depth) (htail : tail.idx < depth) :
    -(depth : Int) < usedInt head tail depth ∧ usedInt head tail depth < 2 * (depth : Int) := by
  unfold usedInt
  split <;> omega

/-- A pair of pointers of a ring is valid iff its occupancy is between 0 and `depth` (R151, R164). -/
theorem validPtrs_iff_usedInt {head tail : Ptr} {depth : Nat} (hhead : head.idx < depth) (htail : tail.idx < depth) :
    validPtrs head tail depth = true ↔ 0 ≤ usedInt head tail depth ∧ usedInt head tail depth ≤ depth := by
  rw [validPtrs_eq_true_iff, usedInt]
  split
  case isTrue hsame => simp only [hsame, ne_eq, not_true_eq_false, true_and, false_and, or_false]; omega
  case isFalse hdiff => simp only [hdiff, ne_eq, not_false_eq_true, true_and, false_and, false_or]; omega

/-- Within one half turn below zero and one whole turn above, a number is in the first half of the circle iff it is so
without the reduction. -/
theorem emod_two_mul_le_iff {u d : Int} (hlo : -d < u) (hhi : u < 2 * d) : u % (2 * d) ≤ d ↔ 0 ≤ u ∧ u ≤ d := by
  by_cases hu : 0 ≤ u
  · rw [Int.emod_eq_of_lt hu hhi]
    exact (and_iff_right hu).symm
  · rw [← Int.add_emod_right, Int.emod_eq_of_lt (by omega) (by omega)]
    omega

/-! ## The statements -/

/-- Settles O21: every clause is the position of the advanced pointer, read as a pointer again. -/
theorem advanceTogglesWrap : Obligations.AdvanceTogglesWrap := by
  refine ⟨fun p n depth _ hp => ⟨pos_adv n hp, adv_wrap_toNat n hp, adv_idx n hp, ?one, adv_two_mul_depth hp⟩,
    by decide, by decide, by decide⟩
  case one =>
    split
    case isTrue hlt => exact adv_one_of_lt hlt
    case isFalse hlast => exact adv_one_of_last (by omega)

/-- Settles O22: the distance on the circle is the occupancy, and validity is a bound on the occupancy. -/
theorem validPairsAreWithinDepth : Obligations.ValidPairsAreWithinDepth := by
  refine fun head tail depth => ⟨validPtrs_eq_true_iff head tail depth, fun _ hhead htail => ?_⟩
  obtain ⟨hlo, hhi⟩ := usedInt_bounds hhead htail
  rw [pos_sub_pos_emod, emod_two_mul_le_iff hlo hhi]
  exact validPtrs_iff_usedInt hhead htail

end Sys2Proof.Machine
end

section
/-! PROOFS. The counting half of a leaf service: what reading and counting a leaf changes, and which counters it
increments (R190, R191). -/

namespace Sys2Proof.Machine

/-- A bit of a word is listed once if it is set and not at all if it is clear (R8). -/
theorem count_bitsAsc (v : Word) {b : Nat} (hb : b < 32) :
    (bitsAsc v).count b = if v.getLsbD b = true then 1 else 0 := by
  rw [(nodup_bitsAsc v).count]
  simp only [mem_bitsAsc, hb, true_and]

/-- Reading and counting a leaf is one read of its status and a change of the counters, nothing else (R190, R191). -/
theorem leafRead_eq (st : State) (d : DevId) (L : LeafId) :
    leafRead st d L = { st with
      count := (leafRead st d L).count,
      trace := st.trace ++ [.read d (st.seqAt d).sub (addrOf st.cfg (.status L)) (leafRaw st d L)] } :=
  countBits_eq (regRead st d (st.seqAt d).sub (.status L)) d L (bitsAsc (leafRaw st d L))

/-- The counters of the leaf at the set bits of the raw status grow by one, all other counters keep their value
(R191). -/
theorem countAt_leafRead (st : State) (d d' : DevId) (L L' : LeafId) {b : Nat} (hb : b < 32) :
    (leafRead st d L).countAt d' L' b =
      if d' = d ∧ L' = L ∧ (leafRaw st d L).getLsbD b = true then st.countAt d' L' b + 1#32
      else st.countAt d' L' b := by
  have hlt : ∀ x ∈ bitsAsc (leafRaw st d L), x < 32 := fun x hx => ((mem_bitsAsc _ x).mp hx).1
  have hread : (regRead st d (st.seqAt d).sub (.status L)).countAt d' L' b = st.countAt d' L' b := rfl
  rw [leafRead, countAt_countBits _ _ _ _ _ _ _ hb hlt, count_bitsAsc _ hb, hread]
  cases (leafRaw st d L).getLsbD b
  case true => simp
  case false => simp

/-- Settles O34: the frame is the read's and the counting loop's, and each set bit is in the loop's list once. -/
theorem leafServiceCountsSetBitsOnce : Obligations.LeafServiceCountsSetBitsOnce :=
  fun st d L => ⟨leafRead_eq st d L, fun d' L' _ hb => countAt_leafRead st d d' L L' hb⟩

end Sys2Proof.Machine
end

section
/-! PROOFS. `INJECT_ALL` and `ENABLE_ALL` behind the security gate: no access on a denied leaf, and the exact accesses on
an admitted one (R223, R224, R225). -/

namespace Sys2Proof.Machine

/-! ## What a register write leaves unchanged -/

@[simp] theorem regStore_sched (st : State) (d : DevId) (s : SubId) (reg : Reg) (v : Word) :
    (regStore st d s reg v).sched = st.sched := by
  cases reg <;> rfl

@[simp] theorem regWrite_cfg (st : State) (d : DevId) (s : SubId) (reg : Reg) (v : Word) :
    (regWrite st d s reg v).cfg = st.cfg :=
  regStore_cfg st d s reg v

/-- A write takes nothing off the schedule: other agents step at boundaries alone (R70). -/
@[simp] theorem regWrite_sched (st : State) (d : DevId) (s : SubId) (reg : Reg) (v : Word) :
    (regWrite st d s reg v).sched = st.sched :=
  regStore_sched st d s reg v

/-! ## The gate and the two commands -/

/-- The gate answers ST_OK for a leaf it denies and for a device that is not ready (R223, R224). -/
theorem leafGate_of_denied {st : State} {d : DevId} {s : SubId} {a : Addr} {L : LeafId} (hids : idsOk st.cfg d s = true)
    (hleaf : leafOf st.cfg a = some L) (hdenied : leafOk st.cfg d s L = false ∨ st.readyAt d = false) :
    leafGate st d s a = .answer rOk := by
  unfold leafGate
  rw [if_neg (by simp [hids]), hleaf]
  cases hready : st.readyAt d with
  | false => rfl
  | true =>
    have hdeny : leafOk st.cfg d s L = false := by simpa [hready] using hdenied
    simp [hdeny]

theorem exec_injectAll (d : DevId) (s : SubId) (a : Addr) (st : State) :
    exec (.injectAll d s a) st = execInjectAll d s a st := rfl

theorem exec_enableAll (on : Bool) (d : DevId) (s : SubId) (a : Addr) (st : State) :
    exec (.enableAll on d s a) st = execEnableAll on d s a st := rfl

theorem exec_injectAll_of_answer {st : State} {d : DevId} {s : SubId} {a : Addr} {r : Response}
    (h : leafGate st d s a = .answer r) : exec (.injectAll d s a) st = .next (st.respond r) := by
  rw [exec_injectAll, execInjectAll, h]

/-- An answer of the gate comes before the first boundary of `ENABLE_ALL`, so no other agent steps (R70, R224). -/
theorem exec_enableAll_of_answer {on : Bool} {st : State} {d : DevId} {s : SubId} {a : Addr} {r : Response}
    (h : leafGate st d s a = .answer r) : exec (.enableAll on d s a) st = .next (st.respond r) := by
  rw [exec_enableAll, execEnableAll, h]

theorem exec_injectAll_of_pass {st : State} {d : DevId} {s : SubId} {a : Addr} {L : LeafId}
    (h : leafGate st d s a = .pass L) :
    exec (.injectAll d s a) st = .next ((regWrite st d s (.inject L) (injectPatternOf st.cfg L)).respond rOk) := by
  rw [exec_injectAll, execInjectAll, h]

/-- With no other agent stepping the lo write follows the hi write at once (R224). -/
theorem exec_enableAll_of_pass {on : Bool} {st : State} {d : DevId} {s : SubId} {a : Addr} {L : LeafId}
    (h : leafGate st d s a = .pass L) (hquiet : Quiet st) :
    exec (.enableAll on d s a) st = .next (enableLo (enableHi st on d s L) on d s L) := by
  have hsched : (enableHi st on d s L).sched = [] := (regWrite_sched ..).trans hquiet
  simp [exec_enableAll, execEnableAll, h, hsched]

/-! ## The accesses of an admitted leaf -/

/-- The two writes of `ENABLE_ALL` show as two accesses, hi before lo (R224). -/
theorem enableLo_enableHi_trace (st : State) (on : Bool) (d : DevId) (s : SubId) (L : LeafId) :
    (enableLo (enableHi st on d s L) on d s L).trace = st.trace ++
      [.write d s (addrOf st.cfg (.enHi L)) (enableWord on), .write d s (addrOf st.cfg (.enLo L)) (enableWord on)] := by
  simp [enableLo, enableHi, regWrite_trace]

/-! ## The statement -/

/-- Settles O48: the gate decides; its answer leaves all but the response, its pass leads to one write of `INJECT_ALL`
and two of `ENABLE_ALL`. -/
theorem deniedLeafSeesNoAccess : Obligations.DeniedLeafSeesNoAccess := by
  intro on d s a L st hids hleaf
  refine ⟨fun hdenied => ?denied, fun hok hready hquiet => ?admitted⟩
  case denied =>
    have hgate := leafGate_of_denied hids hleaf hdenied
    exact ⟨exec_injectAll_of_answer hgate, exec_enableAll_of_answer hgate⟩
  case admitted =>
    have hgate := (leafGate_pass st d s a L).mpr ⟨hids, hleaf, hready, hok⟩
    exact ⟨⟨_, _, exec_injectAll_of_pass hgate, rfl, regWrite_trace ..⟩,
      ⟨_, _, _, exec_enableAll_of_pass hgate hquiet, rfl, enableLo_enableHi_trace ..⟩⟩

end Sys2Proof.Machine
end

section
/-! PROOFS. The transaction log: a legal `LOG_EVENT` fills the slot it claims (R240), the scan of `LOG_READ` collects the
wanted entries (R246), and after `m` events each slot holds the last event whose number falls on it (R249). -/

namespace Sys2Proof.Machine

/-! ## The slot a command claims, and the clock -/

theorem logSlot_toNat (st : State) : (logSlot st).toNat = st.logNext.toNat % 1024 :=
  BitVec.toNat_setWidth 10 st.logNext

theorem clockValue_of_cons {st : State} {ts : DWord} {rest : List DWord} (h : st.clockIn = ts :: rest) :
    clockValue st = ts := by
  rw [clockValue, h]

theorem clockDrawn_of_cons {st : State} {ts : DWord} {rest : List DWord} (h : st.clockIn = ts :: rest) :
    clockDrawn st = { st with clockIn := rest } := by
  rw [clockDrawn, h]

/-- A clock draw touches nothing but the queue of draws and their counter (R242). -/
theorem clockDrawn_eq (st : State) :
    clockDrawn st = { st with clockIn := (clockDrawn st).clockIn, draws := (clockDrawn st).draws } := by
  unfold clockDrawn
  split <;> rfl

@[simp] theorem clockDrawn_cfg (st : State) : (clockDrawn st).cfg = st.cfg := by
  rw [clockDrawn_eq]

@[simp] theorem clockDrawn_sched (st : State) : (clockDrawn st).sched = st.sched := by
  rw [clockDrawn_eq]

@[simp] theorem clockDrawn_logNext (st : State) : (clockDrawn st).logNext = st.logNext := by
  rw [clockDrawn_eq]

/-! ## `LOG_EVENT` -/

/-- The lock taken in `E1` is free again when it ends (R243). -/
theorem logClaim_eq (st : State) : logClaim st = { st with logNext := st.logNext + 1#64, logLock := none } := rfl

/-- The three micro-steps of `LOG_EVENT` with nothing between them (R240). -/
def logEventDone (st : State) (p : LogPayload) : State :=
  logFill (logStamp (logClaim st) (logSlot st)) (logSlot st) p

/-- With no other agent stepping a `LOG_EVENT` that passes its test takes its three micro-steps in a row (R240). -/
theorem exec_logEvent_of_pass {st : State} {d : DevId} {s : SubId} {r : RingId} {data : List DWord} (dir : LogDir)
    (head tail : Word) (h : logGate st d s r data = .pass ()) (hquiet : Quiet st) :
    exec (.logEvent d s r dir head tail data) st = .next (logEventDone st (logPayload d s r dir head tail data)) := by
  have hclaim : boundary (logClaim st) = .next (logClaim st) := boundary_nil _ hquiet
  have hstamp : boundary (logStamp (logClaim st) (logSlot st)) = .next (logStamp (logClaim st) (logSlot st)) := by
    refine boundary_nil _ ?_
    rw [logStamp, State.setLog_sched, clockDrawn_sched]
    exact hquiet
  have hexec : exec (.logEvent d s r dir head tail data) st = execLogEvent d s r dir head tail data st := rfl
  rw [hexec, execLogEvent, h]
  simp only [hclaim, hstamp, andThen_next, logEventDone]

@[simp] theorem logEventDone_cfg (st : State) (p : LogPayload) : (logEventDone st p).cfg = st.cfg := by
  simp [logEventDone, logFill, logStamp, logClaim_eq]

@[simp] theorem logEventDone_sched (st : State) (p : LogPayload) : (logEventDone st p).sched = st.sched := by
  simp [logEventDone, logFill, logStamp, logClaim_eq]

@[simp] theorem logEventDone_logNext (st : State) (p : LogPayload) :
    (logEventDone st p).logNext = st.logNext + 1#64 := by
  simp [logEventDone, logFill, logStamp, logClaim_eq]

theorem clockIn_logEventDone {st : State} {ts : DWord} {rest : List DWord} (p : LogPayload)
    (h : st.clockIn = ts :: rest) : (logEventDone st p).clockIn = rest := by
  have hclaim : (logClaim st).clockIn = ts :: rest := h
  simp [logEventDone, logFill, logStamp, clockDrawn_of_cons hclaim]

/-- The claimed slot gets stamp and payload, so nothing of its older entry stays; every other slot is as before (R240). -/
theorem logAt_logEventDone {st : State} {ts : DWord} {rest : List DWord} (p : LogPayload) (h : st.clockIn = ts :: rest)
    (j : Nat) : (logEventDone st p).logAt j = if j = st.logNext.toNat % 1024 then ⟨ts, p⟩ else st.logAt j := by
  have hclaim : (logClaim st).clockIn = ts :: rest := h
  unfold logEventDone logFill logStamp
  rw [clockDrawn_of_cons hclaim, clockValue_of_cons hclaim, State.respond_logAt, State.logAt_setLog, State.logAt_setLog_same,
    State.logAt_setLog, logSlot_toNat]
  split <;> rfl

/-! ## `LOG_READ` -/

/-- What the scan adds slot by slot is the records of the wanted slots, in the order of the scan (R246). -/
theorem flatMap_logPick (st : State) (d : DevId) (s : SubId) (filter : DWord) (js : List Nat) :
    js.flatMap (logPick st d s filter) =
      (js.filter (fun j => logWanted d s filter (st.logAt j))).map (fun j => logRecord j (st.logAt j)) := by
  induction js with
  | nil => rfl
  | cons j js ih =>
    rw [List.flatMap_cons, ih, logPick]
    cases h : logWanted d s filter (st.logAt j) <;> simp [h]

/-- With no other agent stepping the scan reads every slot in the state it began with (R246). -/
theorem logScan_of_quiet {st : State} (d : DevId) (s : SubId) (filter : DWord) (js : List Nat) (out : List (List Word))
    (hquiet : Quiet st) :
    logScan d s filter js out st =
      .next (st.respond (logResponse (out ++ js.flatMap (logPick st d s filter)))) := by
  induction js generalizing out with
  | nil => simp [logScan]
  | cons j js ih => rw [logScan, boundary_nil st hquiet, andThen_next, ih, List.flatMap_cons, List.append_assoc]

@[simp] theorem logAt_allocDrawn (st : State) (j : Nat) : (allocDrawn st).logAt j = st.logAt j := by
  rw [allocDrawn_eq]
  rfl

@[simp] theorem allocDrawn_sched (st : State) : (allocDrawn st).sched = st.sched := by
  rw [allocDrawn_eq]

/-- The draw leaves what the scan reads, so it does not change what a slot adds to the output (R246). -/
@[simp] theorem logPick_allocDrawn (st : State) (d : DevId) (s : SubId) (filter : DWord) :
    logPick (allocDrawn st) d s filter = logPick st d s filter := by
  funext j
  rw [logPick, logPick, logAt_allocDrawn]

theorem exec_logRead_of_alloc {st : State} {d : DevId} {s : SubId} (filter : DWord) (hquiet : Quiet st)
    (hids : idsOk st.cfg d s = true) (halloc : allocValue st = true) :
    exec (.logRead d s filter) st = .next ((allocDrawn st).respond
      (logResponse ((List.range 1024).flatMap (logPick st d s filter)))) := by
  have hexec : exec (.logRead d s filter) st = execLogRead d s filter st := rfl
  have hdrawn : Quiet (allocDrawn st) := (allocDrawn_sched st).trans hquiet
  rw [hexec, execLogRead, if_neg (by simp [hids]), if_neg (by simp [halloc]), logScan_of_quiet _ _ _ _ _ hdrawn,
    logPick_allocDrawn, List.nil_append]

/-! ## The last event of a slot -/

/-- Of the events counted from zero, the last of the first `m` that falls on slot `j` (R249); with no such event it is `j`
itself, the next that will. -/
def lastEvent (m j : Nat) : Nat := j + 1024 * ((m - 1 - j) / 1024)

theorem lastEvent_lt {m j : Nat} (h : j < m) : lastEvent m j < m := by
  unfold lastEvent
  omega

theorem lastEvent_of_le {m j : Nat} (h : m ≤ j) : lastEvent m j = j := by
  unfold lastEvent
  omega

/-- Event `m` is the last of its own slot and leaves every other slot's last event as it was. -/
theorem lastEvent_succ {m j : Nat} (hj : j < 1024) :
    lastEvent (m + 1) j = if j = m % 1024 then m else lastEvent m j := by
  unfold lastEvent
  split <;> omega

theorem lastEvent_ne {m j : Nat} (hj : j < 1024) (h : j ≠ m % 1024) : lastEvent m j ≠ m := by
  unfold lastEvent
  omega

/-! ## The entry of an event -/

/-- The entry the event numbered `n` from zero leaves when the clock draws the stamps `ts` in order; empty where there is
no such event (R240). -/
def eventEntry (d : DevId) (s : SubId) (es : List LogCall) (ts : List DWord) (n : Nat) : LogEntry :=
  (Option.map₂ (LogCall.entry d s) es[n]? ts[n]?).getD LogEntry.empty

theorem eventEntry_of_getElem? {d : DevId} {s : SubId} {es : List LogCall} {ts : List DWord} {n : Nat} {e : LogCall}
    {t : DWord} (he : es[n]? = some e) (ht : ts[n]? = some t) : eventEntry d s es ts n = e.entry d s t := by
  simp [eventEntry, he, ht]

theorem eventEntry_of_length_le {es : List LogCall} {n : Nat} (d : DevId) (s : SubId) (ts : List DWord)
    (h : es.length ≤ n) : eventEntry d s es ts n = LogEntry.empty := by
  simp [eventEntry, h]

theorem eventEntry_concat_of_ne {es : List LogCall} {n : Nat} (d : DevId) (s : SubId) (e : LogCall) (ts : List DWord)
    (h : n ≠ es.length) : eventEntry d s (es ++ [e]) ts n = eventEntry d s es ts n := by
  have hget : (es ++ [e])[n]? = es[n]? := by
    rcases Nat.lt_or_gt_of_ne h with hlt | hgt
    · exact List.getElem?_append_left hlt
    · rw [List.getElem?_eq_none hgt.le, List.getElem?_eq_none (by simpa using hgt)]
  rw [eventEntry, eventEntry, hget]

/-! ## Runs of `LOG_EVENT` -/

theorem runLog_append (d : DevId) (s : SubId) (es fs : List LogCall) (st : State) :
    runLog d s (es ++ fs) st = andThen (runLog d s es st) (runLog d s fs) := by
  induction es generalizing st with
  | nil => rfl
  | cons e es ih =>
    rw [List.cons_append, runLog, runLog]
    cases exec (.logEvent d s e.ring e.dir e.head e.tail e.data) st with
    | next st₁ => exact ih st₁
    | fault r => rfl
    | refused r => rfl

/-- What a run of events from an empty log with `LOG.next = 0` has made of the state: the draws used up, `LOG.next` the
number of events, every slot with its last event (R249). -/
structure Logged (d : DevId) (s : SubId) (es : List LogCall) (st t : State) : Prop where
  cfg : t.cfg = st.cfg
  quiet : Quiet t
  clockIn : t.clockIn = st.clockIn.drop es.length
  logNext : t.logNext = BitVec.ofNat 64 es.length
  logAt : ∀ j, j < 1024 → t.logAt j = eventEntry d s es st.clockIn (lastEvent es.length j)

theorem Logged.nil (d : DevId) (s : SubId) {st : State} (hquiet : Quiet st) (hempty : st.logEntries = [])
    (hnext : st.logNext = 0#64) : Logged d s [] st st where
  cfg := rfl
  quiet := hquiet
  clockIn := rfl
  logNext := hnext
  logAt j _ := by
    rw [State.logAt, hempty]
    rfl

/-- One more event: its slot is its number mod 1024 and it is the last there (R249). -/
theorem Logged.concat {d : DevId} {s : SubId} {es : List LogCall} {st t : State} (h : Logged d s es st t) (e : LogCall)
    (hroom : es.length < st.clockIn.length) :
    Logged d s (es ++ [e]) st (logEventDone t (logPayload d s e.ring e.dir e.head e.tail e.data)) := by
  have hdraw : t.clockIn = st.clockIn[es.length] :: st.clockIn.drop (es.length + 1) := by
    rw [h.clockIn, List.drop_eq_getElem_cons hroom]
  have hslot : t.logNext.toNat % 1024 = es.length % 1024 := by
    rw [h.logNext, BitVec.toNat_ofNat]
    omega
  have hlen : (es ++ [e]).length = es.length + 1 := List.length_append
  refine ⟨?cfg, ?quiet, ?clockIn, ?logNext, fun j hj => ?logAt⟩
  case cfg => rw [logEventDone_cfg, h.cfg]
  case quiet => exact (logEventDone_sched ..).trans h.quiet
  case clockIn => rw [clockIn_logEventDone _ hdraw, hlen]
  case logNext => rw [logEventDone_logNext, h.logNext, hlen, BitVec.ofNat_add]
  case logAt =>
    rw [logAt_logEventDone _ hdraw, hslot, hlen, lastEvent_succ hj]
    split
    case isTrue => exact (eventEntry_of_getElem? (by simp) (List.getElem?_eq_getElem hroom)).symm
    case isFalse hne => rw [h.logAt j hj, eventEntry_concat_of_ne _ _ _ _ (lastEvent_ne hj hne)]

/-- A run of legal events with a draw queued for each completes (R240, R249). -/
theorem runLog_logged {d : DevId} {s : SubId} {st : State} (es : List LogCall) (hquiet : Quiet st)
    (hids : idsOk st.cfg d s = true) (hlegal : ∀ e ∈ es, e.legal st.cfg = true) (hempty : st.logEntries = [])
    (hnext : st.logNext = 0#64) (hdraws : es.length ≤ st.clockIn.length) :
    ∃ t, runLog d s es st = .next t ∧ Logged d s es st t := by
  induction es using List.reverseRecOn with
  | nil => exact ⟨st, rfl, Logged.nil d s hquiet hempty hnext⟩
  | append_singleton es e ih =>
    have hroom : es.length < st.clockIn.length := by simpa using hdraws
    obtain ⟨t, hrun, hlogged⟩ := ih (fun x hx => hlegal x (List.mem_append_left _ hx)) hroom.le
    have hgate : logGate t d s e.ring e.data = .pass () := by
      have he : e.data.length ≤ 4 ∧ ringOk st.cfg e.ring = true := by
        simpa [LogCall.legal, dataFits] using hlegal e (by simp)
      have hring : ringIdsOk st.cfg d s e.ring = true := Bool.and_eq_true_iff.mpr ⟨hids, he.2⟩
      rw [← hlogged.cfg] at hring
      exact (logGate_pass _ _ _ _ _).mpr ⟨he.1, hring⟩
    refine ⟨_, ?_, hlogged.concat e hroom⟩
    rw [runLog_append, hrun, andThen_next, runLog, exec_logEvent_of_pass _ _ _ hgate hlogged.quiet, andThen_next,
      runLog]

/-! ## Reading the log back -/

theorem LogCall.logWanted_entry (d : DevId) (s : SubId) (e : LogCall) {ts : DWord} (hts : ts ≠ 0#64) :
    logWanted d s 0#64 (e.entry d s ts) = true :=
  (logWanted_eq_true ..).mpr ⟨hts, rfl, rfl, .inl rfl⟩

theorem logWanted_empty (d : DevId) (s : SubId) (filter : DWord) : logWanted d s filter LogEntry.empty = false := by
  simp [logWanted, LogEntry.empty]

/-- The slot of a past event holds the last one's call, stamped by its own draw (R249). -/
theorem Logged.exists_entry {d : DevId} {s : SubId} {es : List LogCall} {st t : State} (h : Logged d s es st t)
    (hdraws : es.length ≤ st.clockIn.length) {j : Nat} (hj : j < min es.length 1024) :
    ∃ e ts, es[lastEvent es.length j]? = some e ∧ st.clockIn[lastEvent es.length j]? = some ts ∧
      ts ∈ st.clockIn ∧ t.logAt j = e.entry d s ts := by
  have hlast : lastEvent es.length j < es.length := lastEvent_lt (by omega)
  have he := List.getElem?_eq_getElem hlast
  have hts := List.getElem?_eq_getElem (hlast.trans_le hdraws)
  exact ⟨_, _, he, hts, List.getElem_mem _, (h.logAt j (by omega)).trans (eventEntry_of_getElem? he hts)⟩

/-- The slots in use, and no others, are reported with no filter (R246, R249). -/
theorem Logged.logWanted_eq {d : DevId} {s : SubId} {es : List LogCall} {st t : State} (h : Logged d s es st t)
    (hdraws : es.length ≤ st.clockIn.length) (hstamps : ∀ ts ∈ st.clockIn, ts ≠ 0#64) {j : Nat} (hj : j < 1024) :
    logWanted d s 0#64 (t.logAt j) = decide (j < es.length) := by
  by_cases hused : j < es.length
  case pos =>
    obtain ⟨e, ts, -, -, hmem, hat⟩ := h.exists_entry hdraws (lt_min hused hj)
    rw [hat, e.logWanted_entry d s (hstamps ts hmem), decide_eq_true hused]
  case neg =>
    have hfree : es.length ≤ j := not_lt.mp hused
    rw [h.logAt j hj, lastEvent_of_le hfree, eventEntry_of_length_le _ _ _ hfree, logWanted_empty,
      decide_eq_false hused]

theorem countP_lt_range (m n : Nat) : (List.range n).countP (fun j => decide (j < m)) = min m n := by
  induction n with
  | zero => rw [Nat.min_zero, List.range_zero, List.countP_nil]
  | succ n ih =>
    rw [List.range_succ, List.countP_append, ih, List.countP_singleton]
    simp only [decide_eq_true_eq]
    split <;> omega

theorem Logged.length_records {d : DevId} {s : SubId} {es : List LogCall} {st t : State} (h : Logged d s es st t)
    (hdraws : es.length ≤ st.clockIn.length) (hstamps : ∀ ts ∈ st.clockIn, ts ≠ 0#64) :
    ((List.range 1024).flatMap (logPick t d s 0#64)).length = min es.length 1024 := by
  have hused : (List.range 1024).filter (fun j => logWanted d s 0#64 (t.logAt j)) =
      (List.range 1024).filter (fun j => decide (j < es.length)) :=
    List.filter_congr fun j hj => h.logWanted_eq hdraws hstamps (List.mem_range.mp hj)
  rw [flatMap_logPick, List.length_map, hused, ← List.countP_eq_length_filter, countP_lt_range]

/-! ## The statement -/

/-- Settles O53, by induction on the events from the last one back: each slot holds its last event, so the slots below
`min(m, 1024)` are those a read reports. -/
theorem logWrapsAround : Obligations.LogWrapsAround := by
  intro d s es st hquiet hids hlegal hempty hnext hdraws hstamps
  obtain ⟨t, hrun, hlogged⟩ := runLog_logged es hquiet hids hlegal hempty hnext hdraws
  refine ⟨t, hrun, hlogged.logNext, fun j hj => ?slots, fun halloc => ?read⟩
  case slots =>
    obtain ⟨e, ts, he, hts, hmem, hat⟩ := hlogged.exists_entry hdraws hj
    exact ⟨e, ts, he, hts, hstamps ts hmem, hat⟩
  case read =>
    have hids' : idsOk t.cfg d s = true := hlogged.cfg ▸ hids
    refine ⟨_, exec_logRead_of_alloc 0#64 hlogged.quiet hids' halloc, ?_⟩
    rw [← hlogged.length_records hdraws hstamps]
    exact List.head?_cons

end Sys2Proof.Machine
end

section
/-! PROOFS. The command port: an illegal command word is consumed alone (R96, R266). -/

namespace Sys2Proof.Machine

/-! ## One step with no other agent -/

/-- With no other agent a step is what stands at the port (R90). -/
theorem step_of_quiet {st : State} (hwf : cfgWf st.cfg = true) (hquiet : Quiet st) : step st = stepPort st := by
  unfold step
  rw [if_pos hwf, boundary_nil st hquiet, andThen_next]

/-! ## An illegal word at the port -/

/-- The decoder takes only the first word of a stream whose first word selects no row (R96). -/
theorem decode_cons_of_selectOp_eq_none {cw : Word} (rest : List Word) (h : selectOp cw = none) :
    decode (cw :: rest) = .illegal rest := by
  rw [decode, h]

theorem stepPort_of_fetch_illegal {st : State} {rest : List Word} (h : st.fetch = .illegal rest) :
    stepPort st = .next (illegalWord st rest) := by
  unfold stepPort
  rw [h]

/-! ## The statement -/

/-- Settles O4: the fetch finds the illegal word, whose consumption leaves the rest of the stream as the port of the next
fetch. -/
theorem illegalWordConsumesOneWord : Obligations.IllegalWordConsumesOneWord := by
  intro s cw rest hwf hquiet hport hillegal
  have hfetch : s.fetch = .illegal rest := by
    rw [State.fetch, hport, decode_cons_of_selectOp_eq_none rest hillegal]
  exact ⟨(step_of_quiet hwf hquiet).trans (stepPort_of_fetch_illegal hfetch), rfl⟩

end Sys2Proof.Machine
end

section
/-! PROOFS. The invariants of a step (R26, R41, R43, R44, R46, R49): each holds after reset, every update keeps it, and a
step is a sequence of updates. -/

namespace Sys2Proof.Machine

/-! ## The canonical form of the arrays -/

/-- Every update writes at most one array, and a write keeps the canonical form; a rebuild clears or writes six. -/
theorem Update.storesCanonical {st st' : State} (hu : Update st st') (h : StoresCanonical st) : StoresCanonical st' := by
  obtain ⟨status, enHi, enLo, shadowMsk, headPtr, tailPtr, count, countShown, cb, view, log, seq, ready, threads⟩ := h
  unfold StoresCanonical
  cases hu with
  | bookkeeping | logClaim =>
    exact ⟨status, enHi, enLo, shadowMsk, headPtr, tailPtr, count, countShown, cb, view, log, seq, ready, threads⟩
  | thread =>
    exact ⟨status, enHi, enLo, shadowMsk, headPtr, tailPtr, count, countShown, cb, view, log, seq, ready,
      Store.canonical_put _ _ _ _ threads⟩
  | status =>
    exact ⟨Memory.wf_write _ _ _ status, enHi, enLo, shadowMsk, headPtr, tailPtr, count, countShown, cb, view, log, seq,
      ready, threads⟩
  | enHi =>
    exact ⟨status, Memory.wf_write _ _ _ enHi, enLo, shadowMsk, headPtr, tailPtr, count, countShown, cb, view, log, seq,
      ready, threads⟩
  | enLo =>
    exact ⟨status, enHi, Memory.wf_write _ _ _ enLo, shadowMsk, headPtr, tailPtr, count, countShown, cb, view, log, seq,
      ready, threads⟩
  | shadowMsk =>
    exact ⟨status, enHi, enLo, Memory.wf_write _ _ _ shadowMsk, headPtr, tailPtr, count, countShown, cb, view, log, seq,
      ready, threads⟩
  | headPtr =>
    exact ⟨status, enHi, enLo, shadowMsk, Memory.wf_write _ _ _ headPtr, tailPtr, count, countShown, cb, view, log, seq,
      ready, threads⟩
  | tailPtr =>
    exact ⟨status, enHi, enLo, shadowMsk, headPtr, Memory.wf_write _ _ _ tailPtr, count, countShown, cb, view, log, seq,
      ready, threads⟩
  | dma d s r n =>
    unfold dmaAdv
    simp only
    split
    · split
      · exact ⟨status, enHi, enLo, shadowMsk, Memory.wf_write _ _ _ headPtr, tailPtr, count, countShown, cb, view, log,
          seq, ready, threads⟩
      · exact ⟨status, enHi, enLo, shadowMsk, headPtr, Memory.wf_write _ _ _ tailPtr, count, countShown, cb, view, log,
          seq, ready, threads⟩
    · exact ⟨status, enHi, enLo, shadowMsk, headPtr, tailPtr, count, countShown, cb, view, log, seq, ready, threads⟩
  | callback =>
    exact ⟨status, enHi, enLo, shadowMsk, headPtr, tailPtr, count, countShown, Store.canonical_put _ _ _ _ cb, view, log,
      seq, ready, threads⟩
  | count =>
    exact ⟨status, enHi, enLo, shadowMsk, headPtr, tailPtr, Memory.wf_write _ _ _ count, countShown, cb, view, log, seq,
      ready, threads⟩
  | countShown =>
    exact ⟨status, enHi, enLo, shadowMsk, headPtr, tailPtr, count, Memory.wf_write _ _ _ countShown, cb, view, log, seq,
      ready, threads⟩
  | viewCreate | viewUpdate =>
    exact ⟨status, enHi, enLo, shadowMsk, headPtr, tailPtr, count, countShown, cb, Store.canonical_put _ _ _ _ view, log,
      seq, ready, threads⟩
  | logEntry =>
    exact ⟨status, enHi, enLo, shadowMsk, headPtr, tailPtr, count, countShown, cb, view, Store.canonical_put _ _ _ _ log,
      seq, ready, threads⟩
  | sequencer =>
    exact ⟨status, enHi, enLo, shadowMsk, headPtr, tailPtr, count, countShown, cb, view, log,
      Store.canonical_put _ _ _ _ seq, ready, threads⟩
  | rebuild d =>
    exact ⟨status, enHi, enLo, shadowMsk, headPtr, tailPtr, Memory.wf_clearDev _ d count, Memory.wf_clearDev _ d countShown,
      Store.canonical_clearDev _ d _ cb, Store.canonical_clearDev _ d _ view, log,
      Store.canonical_put _ _ (dKey d 0) Seq.reset seq, Store.canonical_put _ _ (dKey d 0) true ready, threads⟩

theorem Store.canonical_nil {α : Type} (dflt : α) : Store.Canonical dflt [] := ⟨List.Pairwise.nil, by simp⟩

theorem storesCanonical_resetWith (c : Cfg) : StoresCanonical (State.resetWith c) :=
  ⟨Memory.wf_reset, Memory.wf_reset, Memory.wf_reset, Memory.wf_reset, Memory.wf_reset, Memory.wf_reset, Memory.wf_reset,
    Memory.wf_reset, Store.canonical_nil _, Store.canonical_nil _, Store.canonical_nil _, Store.canonical_nil _,
    Store.canonical_nil _, Store.canonical_nil _⟩

/-- Settles O57: every update keeps the canonical form, so every step does. -/
theorem stepKeepsStoresCanonical : Obligations.StepKeepsStoresCanonical :=
  fun _ _ hs h => step_keeps (fun _ _ _ hu => hu.storesCanonical) h hs

/-! ## Pointer words -/

/-- A pointer word is its index below its wrap bit (R27). -/
theorem encPtr_toNat {c : Cfg} {p : Ptr} (hw : c.ptrIdxW ≤ 31) (hidx : p.idx < 2 ^ c.ptrIdxW) :
    (encPtr c p).toNat = p.wrap.toNat * 2 ^ c.ptrIdxW + p.idx := by
  have hpow : 2 ^ c.ptrIdxW ≤ 2 ^ 31 := Nat.pow_le_pow_right (by decide) hw
  have hwrap : p.wrap.toNat * 2 ^ c.ptrIdxW < 2 ^ 32 := by
    cases p.wrap with
    | false => simp
    | true => simp; omega
  have hbit : p.wrap.toNat < 2 ^ 32 := by cases p.wrap <;> decide
  rw [encPtr, BitVec.toNat_or, BitVec.toNat_shiftLeft, BitVec.toNat_ofNat, BitVec.toNat_ofNat,
    Nat.mod_eq_of_lt hbit, Nat.mod_eq_of_lt (by rwa [Nat.shiftLeft_eq]), Nat.mod_eq_of_lt (by omega),
    shiftLeft_or_eq_add _ hidx]

/-- Masking keeps exactly the bits of a pointer word (R63). -/
theorem and_ptrMask_toNat {c : Cfg} (hw : c.ptrIdxW ≤ 31) (v : Word) :
    (v &&& ptrMask c).toNat = v.toNat % 2 ^ (c.ptrIdxW + 1) := by
  have hpow : 2 ^ (c.ptrIdxW + 1) ≤ 2 ^ 32 := Nat.pow_le_pow_right (by decide) (by omega)
  rw [ptrMask, BitVec.toNat_and, BitVec.toNat_ofNat, Nat.mod_eq_of_lt (by omega), Nat.and_two_pow_sub_one_eq_mod]

theorem and_ptrMask_and_ptrMask (c : Cfg) (v : Word) : v &&& ptrMask c &&& ptrMask c = v &&& ptrMask c := by
  rw [BitVec.and_assoc, BitVec.and_self]

/-- The word of a pointer whose index has `PTR_IDX_W` bits is zero above the wrap bit (R26). -/
theorem encPtr_and_ptrMask {c : Cfg} {p : Ptr} (hw : c.ptrIdxW ≤ 31) (hidx : p.idx < 2 ^ c.ptrIdxW) :
    encPtr c p &&& ptrMask c = encPtr c p := by
  apply BitVec.eq_of_toNat_eq
  rw [and_ptrMask_toNat hw, encPtr_toNat hw hidx, Nat.mod_eq_of_lt]
  rw [Nat.pow_succ]
  cases p.wrap <;> simp <;> omega

theorem decPtr_idx_lt (c : Cfg) (v : Word) : (decPtr c v).idx < 2 ^ c.ptrIdxW :=
  Nat.mod_lt _ (Nat.two_pow_pos _)

/-! ## The ranges of the registers -/

/-- The five parts of the well-formedness of a configuration (R7). -/
theorem cfgWf_eq_true_iff (c : Cfg) : cfgWf c = true ↔
    cfgBoundsWf c = true ∧ cfgAddrsWf c = true ∧ cfgLeavesWf c = true ∧ (∀ t, some t ∈ c.slots → tableWf t = true) ∧
      cfgSecWf c = true := by
  rw [cfgWf, Bool.and_eq_true, Bool.and_eq_true, Bool.and_eq_true, Bool.and_eq_true, List.all_eq_true, and_assoc,
    and_assoc, and_assoc]
  refine and_congr_right' (and_congr_right' (and_congr_right' (and_congr_left' ⟨fun h t => h (some t), fun h t ht => ?_⟩)))
  cases t with
  | none => rfl
  | some t => exact h t ht

theorem ptrIdxW_le_of_cfgWf {c : Cfg} (h : cfgWf c = true) : c.ptrIdxW ≤ 31 := by
  obtain ⟨hbounds, _⟩ := (cfgWf_eq_true_iff c).mp h
  simp only [cfgBoundsWf, Bool.and_eq_true, decide_eq_true_iff] at hbounds
  obtain ⟨⟨_, hw⟩, _⟩ := hbounds
  exact hw

/-- The pointer words of a file all fit the mask. -/
abbrev PtrFileFits (c : Cfg) (m : Memory) : Prop := ∀ k, m.read k &&& ptrMask c = m.read k

theorem PtrFileFits.write {c : Cfg} {m : Memory} (h : PtrFileFits c m) (k : Nat) {v : Word} (hv : v &&& ptrMask c = v) :
    PtrFileFits c (m.write k v) := by
  intro j
  by_cases hj : j = k
  · rw [hj, Memory.read_write_same, hv]
  · rw [Memory.read_write_other _ _ _ _ hj, h j]

/-- The part of `RegistersInRange` about one view (R43, R162). -/
abbrev ViewFits (c : Cfg) (v : View) : Prop :=
  v.depth.toNat < 2 ^ c.ptrIdxW ∧ v.head.idx < 2 ^ c.ptrIdxW ∧ v.tail.idx < 2 ^ c.ptrIdxW ∧ v.lastPtr = 0#64

theorem viewFits_zero (c : Cfg) : ViewFits c View.zero :=
  ⟨Nat.two_pow_pos _, Nat.two_pow_pos _, Nat.two_pow_pos _, rfl⟩

theorem viewFits_freshView {c : Cfg} (base : DWord) {depth : Word} (wpd : BitVec 16) (lock : Bool)
    (h : depth.toNat < 2 ^ c.ptrIdxW) : ViewFits c (freshView base depth wpd lock) :=
  ⟨h, Nat.two_pow_pos _, Nat.two_pow_pos _, rfl⟩

theorem ViewFits.updatedView {c : Cfg} {v : View} (hv : ViewFits c v) (h t : Word) : ViewFits c (updatedView c v h t) :=
  ⟨hv.1, decPtr_idx_lt c h, decPtr_idx_lt c t, hv.2.2.2⟩

theorem viewFits_setView {st : State} (h : ∀ d s r, ViewFits st.cfg (st.viewAt d s r)) (d : DevId) (s : SubId)
    (r : RingId) {v : View} (hv : ViewFits st.cfg v) :
    ∀ d' s' r', ViewFits st.cfg ((st.setView d s r v).viewAt d' s' r') := by
  intro d' s' r'
  rw [State.viewAt_setView]
  split
  · exact hv
  · exact h d' s' r'

/-- What a rebuild leaves of the views and the callbacks: those of the device are gone, the others stay (R128). -/
theorem viewAt_rebuildDevice (st : State) (d d' : DevId) (s : SubId) (r : RingId) :
    (rebuildDevice st d).viewAt d' s r = if d' = d then View.zero else st.viewAt d' s r := by
  simp only [State.viewAt, rebuildDevice, Store.get_clearDev, dsKey_mod, BitVec.toNat_inj]

theorem cbAt_rebuildDevice (st : State) (d d' : DevId) (L : LeafId) :
    (rebuildDevice st d).cbAt d' L = if d' = d then none else st.cbAt d' L := by
  simp only [State.cbAt, rebuildDevice, Store.get_clearDev, dKey_mod, BitVec.toNat_inj]

theorem readyAt_rebuildDevice (st : State) (d d' : DevId) :
    (rebuildDevice st d).readyAt d' = if d' = d then true else st.readyAt d' := by
  simp only [State.readyAt, rebuildDevice, Store.get_put, dKey_inj, and_true]

theorem Store.mem_put {α : Type} [DecidableEq α] {dflt : α} {m : Store α} {k : Nat} {v : α} {e : Nat × α}
    (h : e ∈ Store.put dflt m k v) : e = (k, v) ∨ e ∈ m := by
  unfold Store.put at h
  simp only at h
  split at h
  · exact .inr (List.mem_filter.mp h).1
  · exact ((Store.mem_insert _ _ _ _).mp h).imp_right fun h => (List.mem_filter.mp h).1

/-- The step the DMA engine takes when it is enabled stays within the pointer word, since the ring's depth does. -/
theorem dmaAdv_ptrFilesFit {st : State} (hw : st.cfg.ptrIdxW ≤ 31) (hhead : PtrFileFits st.cfg st.headPtr)
    (htail : PtrFileFits st.cfg st.tailPtr) (d : DevId) (s : SubId) (r : RingId) (n : Nat)
    (hdepth : (st.viewAt d s r).depth.toNat < 2 ^ st.cfg.ptrIdxW) :
    PtrFileFits st.cfg (dmaAdv st d s r n).headPtr ∧ PtrFileFits st.cfg (dmaAdv st d s r n).tailPtr := by
  unfold dmaAdv
  simp only
  split
  case isFalse => exact ⟨hhead, htail⟩
  case isTrue hen =>
    simp only [dmaEnabled, Bool.and_eq_true] at hen
    obtain ⟨⟨_, hvalid⟩, _⟩ := hen
    obtain ⟨_, hhd, htl, _⟩ := (validPtrs_eq_true_iff _ _ _).mp hvalid
    split
    · exact ⟨hhead.write _ (encPtr_and_ptrMask hw ((adv_idx_lt n hhd).trans hdepth)), htail⟩
    · exact ⟨hhead, htail.write _ (encPtr_and_ptrMask hw ((adv_idx_lt n htl).trans hdepth))⟩

/-- The fields of the state that the ranges are about are untouched by a DMA step, but for the pointer registers. -/
theorem dmaAdv_eq (st : State) (d : DevId) (s : SubId) (r : RingId) (n : Nat) :
    dmaAdv st d s r n =
      { st with headPtr := (dmaAdv st d s r n).headPtr, tailPtr := (dmaAdv st d s r n).tailPtr } := by
  unfold dmaAdv
  simp only
  split
  · split <;> rfl
  · rfl

theorem Update.registersInRange {st st' : State} (hwf : cfgWf st.cfg = true) (hu : Update st st')
    (h : RegistersInRange st) : RegistersInRange st' := by
  obtain ⟨head, tail, view, cb, log, lock⟩ := h
  unfold RegistersInRange
  cases hu with
  | bookkeeping | thread | status | enHi | enLo | shadowMsk | count | countShown | sequencer =>
    exact ⟨head, tail, view, cb, log, lock⟩
  | headPtr => exact ⟨PtrFileFits.write head _ (and_ptrMask_and_ptrMask _ _), tail, view, cb, log, lock⟩
  | tailPtr => exact ⟨head, PtrFileFits.write tail _ (and_ptrMask_and_ptrMask _ _), view, cb, log, lock⟩
  | dma d s r n =>
    obtain ⟨head', tail'⟩ := dmaAdv_ptrFilesFit (ptrIdxW_le_of_cfgWf hwf) head tail d s r n (view d s r).1
    rw [dmaAdv_eq]
    exact ⟨head', tail', view, cb, log, lock⟩
  | callback d L new hnew =>
    refine ⟨head, tail, view, fun d' L' c hc => ?_, log, lock⟩
    rw [State.cbAt_setCb] at hc
    split at hc
    · exact hnew c hc
    · exact cb d' L' c hc
  | viewCreate d s r base depth wpd lk hdepth =>
    exact ⟨head, tail, viewFits_setView view d s r (viewFits_freshView base wpd lk hdepth), cb, log, lock⟩
  | viewUpdate d s r hw tw =>
    exact ⟨head, tail, viewFits_setView view d s r (ViewFits.updatedView (view d s r) hw tw), cb, log, lock⟩
  | logClaim => exact ⟨head, tail, view, cb, log, rfl⟩
  | logEntry slot e =>
    refine ⟨head, tail, view, cb, fun x hx => ?_, lock⟩
    rcases Store.mem_put hx with rfl | hx
    · exact slot.isLt
    · exact log x hx
  | rebuild d =>
    refine ⟨head, tail, fun d' s r => ?_, fun d' L c hc => ?_, log, lock⟩
    · rw [viewAt_rebuildDevice]
      split
      · exact viewFits_zero _
      · exact view d' s r
    · rw [cbAt_rebuildDevice] at hc
      split at hc
      · cases hc
      · exact cb d' L c hc

theorem registersInRange_resetWith (c : Cfg) : RegistersInRange (State.resetWith c) :=
  ⟨fun _ => BitVec.zero_and, fun _ => BitVec.zero_and, fun _ _ _ => viewFits_zero c, by simp, by simp [State.resetWith],
    rfl⟩

/-- Settles O58: under a well-formed configuration every update keeps the ranges; the one with content is the DMA step,
whose pointer stays below the ring's depth. -/
theorem stepKeepsRegistersInRange : Obligations.StepKeepsRegistersInRange :=
  fun _ _ hs h => step_keeps (fun _ _ hwf hu => hu.registersInRange hwf) h hs

/-- Settles O56: every array is empty after reset and every register reads zero. -/
theorem resetHasInvariants : Obligations.ResetHasInvariants :=
  fun c => ⟨storesCanonical_resetWith c, registersInRange_resetWith c⟩

/-! ## Configuration and readiness -/

/-- Readiness is written by a rebuild alone, which sets it (R46). -/
theorem Update.readyAt_of_readyAt {st st' : State} (hu : Update st st') {d : DevId} (h : st.readyAt d = true) :
    st'.readyAt d = true := by
  cases hu with
  | dma d' s r n => rw [dmaAdv_eq]; exact h
  | rebuild d' => rw [readyAt_rebuildDevice, h, ite_self]
  | _ => exact h

/-- Settles O59: no update changes the configuration (R49), none takes readiness away (R46). -/
theorem stepKeepsConfigAndReadiness : Obligations.StepKeepsConfigAndReadiness :=
  fun _ _ h => ⟨(step_updates h).2.cfg_eq, fun _ hready => step_keeps (fun _ _ _ hu => hu.readyAt_of_readyAt) h hready⟩

end Sys2Proof.Machine
end

section
/-! PROOFS. The command stream: which words the decoder accepts, and that it undoes the encoder (R90 to R97). -/

namespace Sys2Proof

/-! ## The fields a command does not use -/

/-- A field of one bit is zero when the bit is clear (R91). -/
theorem extractLsb'_one_eq_zero_iff (cw : Word) (k : Nat) : cw.extractLsb' k 1 = 0#1 ↔ cw.getLsbD k = false := by
  have h : cw.extractLsb' k 1 = BitVec.ofBool (cw.getLsbD k) := by
    apply BitVec.eq_of_getLsbD_eq
    intro i hi
    obtain rfl : i = 0 := by omega
    simp
  rw [h]
  cases cw.getLsbD k <;> decide

/-- The bits of the immediate that a `LOG_EVENT` leaves zero are bit 3 and bits 11..7 (R97). -/
theorem logImmediate_unused_iff (cw : Word) : cw.extractLsb' 0 12 &&& 0xF88#12 = 0#12 ↔
    cw.getLsbD 3 = false ∧ cw.extractLsb' 7 5 = 0#5 := by
  have hmask : ∀ i < 12, ((0xF88#12).getLsbD i = true ↔ i = 3 ∨ 7 ≤ i) := by decide
  constructor
  · intro h
    have hclear : ∀ i < 12, (i = 3 ∨ 7 ≤ i) → cw.getLsbD i = false := by
      intro i hi hm
      have hbit := congrArg (·.getLsbD i) h
      simp only [BitVec.getLsbD_and, (hmask i hi).mpr hm, Bool.and_true] at hbit
      simpa [hi] using hbit
    exact ⟨hclear 3 (by decide) (.inl rfl), BitVec.eq_of_getLsbD_eq fun i hi => by
      simpa [hi] using hclear (7 + i) (by omega) (.inr (by omega))⟩
  · rintro ⟨h3, h7⟩
    refine BitVec.eq_of_getLsbD_eq fun i hi => ?_
    by_cases hm : i = 3 ∨ 7 ≤ i
    · have hclear : cw.getLsbD i = false := by
        rcases hm with rfl | hm
        · exact h3
        · simpa [show i - 7 < 5 by omega, show 7 + (i - 7) = i by omega] using congrArg (·.getLsbD (i - 7)) h7
      simp [hclear]
    · have hclear : (0xF88#12).getLsbD i = false := by simpa using mt (hmask i hi).mp hm
      simp [hclear]

/-- The part of the flag that must be zero: all but `POLL` and `ENABLE_ALL` leave it unused (R94). -/
def Op.unusedFlag : Op → BitVec 1
  | .poll | .enableAll => 0#1
  | _ => 1#1

/-- The part of the subdevice field that must be zero: `DEV_INIT`, `CB_REG` and `CNT_SHOW` name no subdevice (R94). -/
def Op.unusedSub : Op → BitVec 2
  | .devInit | .cbReg | .cntShow => 3#2
  | _ => 0#2

/-- The part of the ring field that must be zero: the ring commands and `LOG_EVENT` name a ring (R94). -/
def Op.unusedRing : Op → BitVec 6
  | .ringCfg | .updateView | .used | .ringDump | .logEvent => 0#6
  | _ => 63#6

/-- The part of the immediate that must be zero: `LOG_EVENT` uses `N[6:4]` and `N[2:0]` (R94, R97). -/
def Op.unusedImm : Op → BitVec 12
  | .logEvent => 0xF88#12
  | _ => 0xFFF#12

/-- The opcode map's match and mask bits outside the opcode, field by field (R94). -/
theorem opRows_fields : ∀ row ∈ opRows,
    (row.matchBits.extractLsb' 25 1 = 0#1 ∧ row.matchBits.extractLsb' 24 1 = 0#1 ∧
      row.matchBits.extractLsb' 20 4 = 0#4 ∧ row.matchBits.extractLsb' 18 2 = 0#2 ∧
      row.matchBits.extractLsb' 12 6 = 0#6 ∧ row.matchBits.extractLsb' 0 12 = 0#12) ∧
    row.maskBits.extractLsb' 25 1 = row.op.unusedFlag ∧ row.maskBits.extractLsb' 24 1 = BitVec.allOnes 1 ∧
      row.maskBits.extractLsb' 20 4 = 0#4 ∧ row.maskBits.extractLsb' 18 2 = row.op.unusedSub ∧
      row.maskBits.extractLsb' 12 6 = row.op.unusedRing ∧ row.maskBits.extractLsb' 0 12 = row.op.unusedImm := by
  decide

/-- A row selects a word by its opcode, a zero bit 24, and zeros in every field its command does not use (R94). -/
theorem OpRow.selects_iff_unused {row : OpRow} (hrow : row ∈ opRows) (cw : Word) : row.selects cw = true ↔
    cw.extractLsb' 26 6 = row.op.code ∧ cw.getLsbD 24 = false ∧ cw.extractLsb' 25 1 &&& row.op.unusedFlag = 0#1 ∧
    cw.extractLsb' 18 2 &&& row.op.unusedSub = 0#2 ∧ cw.extractLsb' 12 6 &&& row.op.unusedRing = 0#6 ∧
    cw.extractLsb' 0 12 &&& row.op.unusedImm = 0#12 := by
  obtain ⟨hcodeMask, hcode⟩ := opRows_fix_code row hrow
  obtain ⟨⟨hf, hz, hd, hs, hr, hn⟩, hfm, hzm, hdm, hsm, hrm, hnm⟩ := opRows_fields row hrow
  have hall : (0x3F#6) = BitVec.allOnes 6 := by decide
  rw [OpRow.selects_iff_fields, hcodeMask, hcode, hall, hf, hz, hd, hs, hr, hn, hfm, hzm, hdm, hsm, hrm, hnm,
    BitVec.and_allOnes, BitVec.and_allOnes, BitVec.and_zero, extractLsb'_one_eq_zero_iff cw 24]
  tauto

/-- A word selects a command when the command's row does and the value constraints of `LOG_EVENT` hold (R94, R96). -/
theorem selectOp_eq_some_iff_unused (cw : Word) (op : Op) : selectOp cw = some op ↔
    cw.extractLsb' 26 6 = op.code ∧ cw.getLsbD 24 = false ∧ cw.extractLsb' 25 1 &&& op.unusedFlag = 0#1 ∧
    cw.extractLsb' 18 2 &&& op.unusedSub = 0#2 ∧ cw.extractLsb' 12 6 &&& op.unusedRing = 0#6 ∧
    cw.extractLsb' 0 12 &&& op.unusedImm = 0#12 ∧ (op = .logEvent → logConstraints cw = true) := by
  rw [selectOp_eq_some_iff]
  constructor
  · rintro ⟨row, hrow, rfl, hsel, hlog⟩
    obtain ⟨hcode, hz, hf, hs, hr, hn⟩ := (OpRow.selects_iff_unused hrow cw).mp hsel
    exact ⟨hcode, hz, hf, hs, hr, hn, hlog⟩
  · rintro ⟨hcode, hz, hf, hs, hr, hn, hlog⟩
    obtain ⟨row, hrow, rfl⟩ := opRows_complete op
    exact ⟨row, hrow, rfl, (OpRow.selects_iff_unused hrow cw).mpr ⟨hcode, hz, hf, hs, hr, hn⟩, hlog⟩

/-! ## Legal command words -/

/-- The clause of `legalWord` that is about a command's own fields. -/
def Op.fieldsLegal (cw : Word) : Op → Prop
  | .rd | .wr | .injectAll | .logRead =>
    cw.getLsbD 25 = false ∧ cw.extractLsb' 12 6 = 0#6 ∧ cw.extractLsb' 0 12 = 0#12
  | .devInit | .cbReg | .cntShow =>
    cw.getLsbD 25 = false ∧ cw.extractLsb' 18 2 = 0#2 ∧ cw.extractLsb' 12 6 = 0#6 ∧ cw.extractLsb' 0 12 = 0#12
  | .ringCfg | .updateView | .used | .ringDump => cw.getLsbD 25 = false ∧ cw.extractLsb' 0 12 = 0#12
  | .poll | .enableAll => cw.extractLsb' 12 6 = 0#6 ∧ cw.extractLsb' 0 12 = 0#12
  | .logEvent =>
    cw.getLsbD 25 = false ∧ cw.getLsbD 3 = false ∧ cw.extractLsb' 7 5 = 0#5 ∧
      (cw.extractLsb' 0 3).toNat ≤ 4 ∧ (cw.extractLsb' 4 3).toNat ≤ 5

/-- The rows' masks and the clauses of `legalWord` say the same of a command's fields. -/
theorem Op.fieldsLegal_iff (cw : Word) (op : Op) : op.fieldsLegal cw ↔
    cw.extractLsb' 25 1 &&& op.unusedFlag = 0#1 ∧ cw.extractLsb' 18 2 &&& op.unusedSub = 0#2 ∧
    cw.extractLsb' 12 6 &&& op.unusedRing = 0#6 ∧ cw.extractLsb' 0 12 &&& op.unusedImm = 0#12 ∧
    (op = .logEvent → logConstraints cw = true) := by
  have hflag (x : BitVec 1) : x &&& 1#1 = x := BitVec.and_allOnes
  have hsub (x : BitVec 2) : x &&& 3#2 = x := BitVec.and_allOnes
  have hring (x : BitVec 6) : x &&& 63#6 = x := BitVec.and_allOnes
  have himm (x : BitVec 12) : x &&& 0xFFF#12 = x := BitVec.and_allOnes
  cases op
  case logEvent =>
    simp only [Op.fieldsLegal, Op.unusedFlag, Op.unusedSub, Op.unusedRing, Op.unusedImm, hflag, BitVec.and_zero,
      extractLsb'_one_eq_zero_iff, logImmediate_unused_iff, logConstraints, cwWords, cwDir, decide_eq_true_iff,
      BitVec.le_def]
    simp [-BitVec.getLsbD_eq_getElem, and_assoc]
  all_goals
    simp [Op.fieldsLegal, Op.unusedFlag, Op.unusedSub, Op.unusedRing, Op.unusedImm, hflag, hsub, hring, himm,
      extractLsb'_one_eq_zero_iff, -BitVec.getLsbD_eq_getElem]

/-- The clauses of `legalWord`, one command each (R94). -/
theorem legalWord_iff (cw : Word) : Machine.legalWord cw ↔
    cw.getLsbD 24 = false ∧ ∃ op : Op, cw.extractLsb' 26 6 = op.code ∧ op.fieldsLegal cw := by
  unfold Machine.legalWord
  refine and_congr_right fun _ => ⟨?_, ?_⟩
  · rintro (⟨hc | hc | hc | hc, h⟩ | ⟨hc | hc | hc, h⟩ | ⟨hc | hc | hc | hc, h⟩ | ⟨hc | hc, h⟩ | ⟨hc, h⟩)
    exacts [⟨.rd, hc, h⟩, ⟨.wr, hc, h⟩, ⟨.injectAll, hc, h⟩, ⟨.logRead, hc, h⟩, ⟨.devInit, hc, h⟩, ⟨.cbReg, hc, h⟩,
      ⟨.cntShow, hc, h⟩, ⟨.ringCfg, hc, h⟩, ⟨.updateView, hc, h⟩, ⟨.used, hc, h⟩, ⟨.ringDump, hc, h⟩, ⟨.poll, hc, h⟩,
      ⟨.enableAll, hc, h⟩, ⟨.logEvent, hc, h⟩]
  · rintro ⟨op, hc, h⟩
    cases op with
    | rd => exact .inl ⟨.inl hc, h⟩
    | wr => exact .inl ⟨.inr (.inl hc), h⟩
    | injectAll => exact .inl ⟨.inr (.inr (.inl hc)), h⟩
    | logRead => exact .inl ⟨.inr (.inr (.inr hc)), h⟩
    | devInit => exact .inr (.inl ⟨.inl hc, h⟩)
    | cbReg => exact .inr (.inl ⟨.inr (.inl hc), h⟩)
    | cntShow => exact .inr (.inl ⟨.inr (.inr hc), h⟩)
    | ringCfg => exact .inr (.inr (.inl ⟨.inl hc, h⟩))
    | updateView => exact .inr (.inr (.inl ⟨.inr (.inl hc), h⟩))
    | used => exact .inr (.inr (.inl ⟨.inr (.inr (.inl hc)), h⟩))
    | ringDump => exact .inr (.inr (.inl ⟨.inr (.inr (.inr hc)), h⟩))
    | poll => exact .inr (.inr (.inr (.inl ⟨.inl hc, h⟩)))
    | enableAll => exact .inr (.inr (.inr (.inl ⟨.inr hc, h⟩)))
    | logEvent => exact .inr (.inr (.inr (.inr ⟨hc, h⟩)))

/-- Settles O2: the opcode map and the field list select the same words, row by row. -/
theorem illegalWordsExactly : Obligations.IllegalWordsExactly := by
  intro cw
  rw [Option.eq_none_iff_forall_ne_some, legalWord_iff, ← not_exists, not_iff_not]
  simp only [selectOp_eq_some_iff_unused, Op.fieldsLegal_iff]
  exact ⟨fun ⟨op, hcode, hz, h⟩ => ⟨hz, op, hcode, h⟩, fun ⟨hz, op, hcode, h⟩ => ⟨op, hcode, hz, h⟩⟩

/-! ## The decoder undoes the encoder -/

/-- A command word of fields its command uses selects the command (R91, R94). -/
theorem selectOp_commandWord {op : Op} {f : Bool} {d : DevId} {s : SubId} {r : RingId} {n : BitVec 12}
    (hf : BitVec.ofBool f &&& op.unusedFlag = 0#1) (hs : s &&& op.unusedSub = 0#2) (hr : r &&& op.unusedRing = 0#6)
    (hn : n &&& op.unusedImm = 0#12) (hlog : op = .logEvent → logConstraints (commandWord op f d s r n) = true) :
    selectOp (commandWord op f d s r n) = some op := by
  rw [selectOp_eq_some_iff_unused, commandWord_code, commandWord_flag, commandWord_sub, commandWord_ring, commandWord_imm,
    ← extractLsb'_one_eq_zero_iff, commandWord_zero]
  exact ⟨rfl, rfl, hf, hs, hr, hn, hlog⟩

/-- A command word and as many extension words as it needs decode to the command assembled from them (R93). -/
theorem decode_cons_append {cw : Word} {op : Op} {i : Instr} (xs rest : List Word)
    (hop : selectOp cw = some op) (hlen : xs.length = extCount op cw) (hi : assemble op cw xs = i) :
    decode (cw :: xs ++ rest) = .command i rest := by
  simp [decode, hop, ← hlen, hi]

/-- The count stands in `N[2:0]`, the direction in `N[6:4]` of the immediate of a `LOG_EVENT` (R97). -/
theorem extractLsb'_logImmediate (dir : LogDir) (n : BitVec 3) :
    (logImmediate dir n).extractLsb' 0 3 = n ∧ (logImmediate dir n).extractLsb' 4 3 = dir.code := by
  unfold logImmediate
  constructor
  · exact BitVec.extractLsb'_append_eq_right
  · refine (BitVec.extractLsb'_append_eq_of_le (by decide)).trans ?_
    refine (BitVec.extractLsb'_append_eq_of_le (by decide)).trans ?_
    exact BitVec.extractLsb'_append_eq_right

theorem logImmediate_and_unused (dir : LogDir) (n : BitVec 3) : logImmediate dir n &&& Op.logEvent.unusedImm = 0#12 := by
  have h : ∀ (c n : BitVec 3), (0#5 ++ c ++ 0#1 ++ n) &&& 0xF88#12 = 0#12 := by decide
  exact h dir.code n

/-- The command word of a `LOG_EVENT` with at most four data words is legal and carries their number and the direction
(R94, R97). -/
theorem logEvent_commandWord (d : DevId) (s : SubId) (r : RingId) (dir : LogDir) {n : Nat} (hn : n ≤ 4) :
    let cw := commandWord .logEvent false d s r (logImmediate dir (BitVec.ofNat 3 n))
    selectOp cw = some .logEvent ∧ (cwWords cw).toNat = n ∧ cwDir cw = dir.code := by
  intro cw
  have himm : cw.extractLsb' 0 12 = logImmediate dir (BitVec.ofNat 3 n) := commandWord_imm ..
  obtain ⟨hlow, hmid⟩ := extractLsb'_logImmediate dir (BitVec.ofNat 3 n)
  have hwords : cwWords cw = BitVec.ofNat 3 n := by
    rw [← hlow, ← himm, BitVec.extractLsb'_extractLsb'_of_le (by decide)]
    rfl
  have hdir : cwDir cw = dir.code := by
    rw [← hmid, ← himm, BitVec.extractLsb'_extractLsb'_of_le (by decide)]
    rfl
  have hcount : (cwWords cw).toNat = n := by
    rw [hwords, BitVec.toNat_ofNat]
    omega
  refine ⟨selectOp_commandWord (by decide) BitVec.and_zero BitVec.and_zero (logImmediate_and_unused ..) fun _ => ?_,
    hcount, hdir⟩
  have hcode : dir.code ≤ 5#3 := by cases dir <;> decide
  have hle : cwWords cw ≤ 4#3 := by
    rw [BitVec.le_def, hcount]
    exact hn
  exact decide_eq_true ⟨hle, hdir ▸ hcode⟩

/-- The flag, the depth width and the zero bits of the last extension word of a `RING_CFG` (R92). -/
theorem ringCfg_word_fields (wpd : BitVec 16) (lock : Bool) :
    (0#15 ++ BitVec.ofBool lock ++ wpd).extractLsb' 0 16 = wpd ∧
    (0#15 ++ BitVec.ofBool lock ++ wpd).getLsbD 16 = lock := by
  refine ⟨BitVec.extractLsb'_append_eq_right, ?_⟩
  rw [BitVec.getLsbD_append, BitVec.getLsbD_append]
  cases lock <;> rfl

/-- Settles O1, by cases on the command: each command word is legal, its extension words are as many as it asks for, and
they assemble to the operands. -/
theorem decodeEncodeRoundTrip : Obligations.DecodeEncodeRoundTrip := by
  intro i rest hwf
  have hzero {w : Nat} (m : BitVec w) : (0 : BitVec w) &&& m = 0#w := BitVec.zero_and
  have hfree {w : Nat} (x : BitVec w) : x &&& 0#w = 0#w := BitVec.and_zero
  cases i with
  | rd d s a =>
    exact decode_cons_append [a] rest
      (selectOp_commandWord (by decide) (hfree s) (hzero _) (hzero _) nofun) rfl (by simp [assemble, extWord])
  | wr d s a v =>
    exact decode_cons_append [a, v] rest
      (selectOp_commandWord (by decide) (hfree s) (hzero _) (hzero _) nofun) rfl (by simp [assemble, extWord])
  | devInit d =>
    exact decode_cons_append [] rest
      (selectOp_commandWord (by decide) (hzero _) (hzero _) (hzero _) nofun) rfl (by simp [assemble])
  | ringCfg d s r base depth wpd lock =>
    obtain ⟨hwpd, hlock⟩ := ringCfg_word_fields wpd lock
    exact decode_cons_append [lowWord base, highWord base, depth, 0#15 ++ BitVec.ofBool lock ++ wpd] rest
      (selectOp_commandWord (by decide) (hfree s) (hfree r) (hzero _) nofun) rfl
      (by simp [assemble, extWord, hwpd, hlock, -BitVec.getLsbD_eq_getElem])
  | updateView d s r =>
    exact decode_cons_append [] rest
      (selectOp_commandWord (by decide) (hfree s) (hfree r) (hzero _) nofun) rfl (by simp [assemble])
  | used d s r =>
    exact decode_cons_append [] rest
      (selectOp_commandWord (by decide) (hfree s) (hfree r) (hzero _) nofun) rfl (by simp [assemble])
  | ringDump d s r =>
    exact decode_cons_append [] rest
      (selectOp_commandWord (by decide) (hfree s) (hfree r) (hzero _) nofun) rfl (by simp [assemble])
  | poll f d s =>
    exact decode_cons_append [] rest
      (selectOp_commandWord (hfree _) (hfree s) (hzero _) (hzero _) nofun) rfl (by simp [assemble])
  | cbReg d a fn ud =>
    exact decode_cons_append [a, fn, lowWord ud, highWord ud] rest
      (selectOp_commandWord (by decide) (hzero _) (hzero _) (hzero _) nofun) rfl (by simp [assemble, extWord])
  | cntShow d a =>
    exact decode_cons_append [a] rest
      (selectOp_commandWord (by decide) (hzero _) (hzero _) (hzero _) nofun) rfl (by simp [assemble, extWord])
  | injectAll d s a =>
    exact decode_cons_append [a] rest
      (selectOp_commandWord (by decide) (hfree s) (hzero _) (hzero _) nofun) rfl (by simp [assemble, extWord])
  | enableAll on d s a =>
    exact decode_cons_append [a] rest
      (selectOp_commandWord (hfree _) (hfree s) (hzero _) (hzero _) nofun) rfl (by simp [assemble, extWord])
  | logEvent d s r dir head tail data =>
    have hdata : data.length ≤ 4 := by simpa [Instr.wellFormed, dataFits] using hwf
    obtain ⟨hsel, hcount, hdir⟩ := logEvent_commandWord d s r dir hdata
    exact decode_cons_append (head :: tail :: splitPairs data) rest hsel
      (by simp only [extCount, hcount, List.length_cons, splitPairs_length]; omega) (by simp [assemble, extWord, hdir])
  | logRead d s filter =>
    exact decode_cons_append [lowWord filter, highWord filter] rest
      (selectOp_commandWord (by decide) (hfree s) (hzero _) (hzero _) nofun) rfl (by simp [assemble, extWord])

/-- Settles O3: six closed facts about literal words. -/
theorem specWordsDecode : Obligations.SpecWordsDecode := by
  refine ⟨?_, ?_, ?_, ?_, ?_, ?_⟩ <;> decide

end Sys2Proof

namespace Sys2Proof.Machine

/-! ## What a step does with the words at the port -/

/-- The decoder finds a stream truncated that ends inside a legal command (R93). -/
theorem decode_of_truncated {cw : Word} {rest : List Word} {op : Op} (hop : selectOp cw = some op)
    (hlen : rest.length < extCount op cw) : decode (cw :: rest) = .truncated := by
  simp [decode, hop, hlen]

theorem stepPort_of_fetch_truncated {st : State} (h : st.fetch = .truncated) :
    stepPort st = .refused .truncatedStream := by
  unfold stepPort
  rw [h]

theorem stepPort_of_fetch_command {st : State} {i : Instr} {rest : List Word} (h : st.fetch = .command i rest) :
    stepPort st = exec i (st.setPort rest) := by
  unfold stepPort
  rw [h]

/-- A step is the boundary before the command, then what stands at the port (R70, R90). -/
theorem step_of_boundary {st st₁ : State} (hwf : cfgWf st.cfg = true) (h : boundary st = .next st₁) :
    step st = stepPort st₁ := by
  unfold step
  rw [if_pos hwf, h, andThen_next]

/-- Settles O5: the decoder finds the stream truncated, and the port refuses it. -/
theorem truncatedStreamRefused : Obligations.TruncatedStreamRefused := by
  intro s cw rest op hwf hquiet hport hop hlen
  have hfetch : s.fetch = .truncated := by rw [State.fetch, hport, decode_of_truncated hop hlen]
  exact (step_of_quiet hwf hquiet).trans (stepPort_of_fetch_truncated hfetch)

/-- Settles O6: the command the decoder finds after the boundary is executed with the port at the rest. -/
theorem stepRunsDecodedCommand : Obligations.StepRunsDecodedCommand :=
  ⟨fun _ _ _ _ hwf hb hdec => (step_of_boundary hwf hb).trans (stepPort_of_fetch_command hdec),
    fun _ _ _ hwf hquiet hdec => (step_of_quiet hwf hquiet).trans (stepPort_of_fetch_command hdec)⟩

end Sys2Proof.Machine
end

section
/-! PROOFS. Well-formed configurations (R7): every register has an address of its own, so `KIND` inverts `ADDR` (R36), and
every leaf has one place in the tables. -/

namespace Sys2Proof.Machine

/-! ## Distinct numbers -/

theorem occurs_eq_true_iff (x : Nat) (xs : List Nat) : occurs x xs = true ↔ x ∈ xs := by
  induction xs with
  | nil => simp [occurs]
  | cons y ys ih => simp [occurs, ih]

theorem allDistinct_eq_true_iff (xs : List Nat) : allDistinct xs = true ↔ xs.Nodup := by
  induction xs with
  | nil => simp [allDistinct]
  | cons x xs ih => simp [allDistinct, ih, ← occurs_eq_true_iff]

/-! ## The registers and their addresses -/

/-- Every register that exists, in the order of `allAddrs`. -/
def allRegs (c : Cfg) : List Reg :=
  .glbShadow :: (List.range nSlot).map Reg.shadowInt ++ (List.range nSlot).map Reg.shadowMsk ++
    (List.range c.leaves.length).flatMap (fun L => [.status L, .enHi L, .enLo L, .inject L]) ++
    (List.range c.nRing).map Reg.headPtr ++ (List.range c.nRing).map Reg.tailPtr

theorem mem_allRegs (c : Cfg) (reg : Reg) : reg ∈ allRegs c ↔ regExists c reg = true := by
  cases reg <;> simp [allRegs, regExists]

/-- A list is its entries in order. -/
theorem map_getD_range {α : Type} (xs : List α) (dflt : α) {n : Nat} (h : xs.length = n) :
    (List.range n).map (fun i => xs.getD i dflt) = xs := by
  subst h
  refine List.ext_getElem (by simp) fun i _ hi => ?_
  simp [hi]

/-- The sizes a well-formed configuration gives its address tables (R7). -/
structure AddrTables (c : Cfg) : Prop where
  shadowInt : c.shadowIntAddr.length = nSlot
  shadowMsk : c.shadowMskAddr.length = nSlot
  headPtr : c.headPtrAddr.length = c.nRing
  tailPtr : c.tailPtrAddr.length = c.nRing

/-- With full address tables, `allAddrs` lists the address of each register that exists. -/
theorem map_addrOf_allRegs {c : Cfg} (h : AddrTables c) : (allRegs c).map (addrOf c) = allAddrs c := by
  have hleaves : (List.range c.leaves.length).flatMap (fun L =>
        [addrOf c (.status L), addrOf c (.enHi L), addrOf c (.enLo L), addrOf c (.inject L)]) =
      c.leaves.flatMap (fun l => [l.statusAddr, l.enHiAddr, l.enLoAddr, l.injectAddr]) := by
    conv_rhs => rw [← map_getD_range c.leaves ⟨0#32, 0#32, 0#32, 0#32, 0#32⟩ rfl, List.flatMap_map]
    rfl
  have hint := map_getD_range c.shadowIntAddr 0#32 h.shadowInt
  have hmsk := map_getD_range c.shadowMskAddr 0#32 h.shadowMsk
  have hhead := map_getD_range c.headPtrAddr 0#32 h.headPtr
  have htail := map_getD_range c.tailPtrAddr 0#32 h.tailPtr
  simp only [allRegs, allAddrs, List.map_append, List.map_cons, List.map_map, List.map_flatMap, List.map_nil, hleaves,
    Function.comp_def]
  simp only [addrOf, hint, hmsk, hhead, htail]

theorem cfgAddrsWf_iff (c : Cfg) : cfgAddrsWf c = true ↔
    AddrTables c ∧ (allAddrs c).Nodup ∧ ∀ a ∈ allAddrs c, a.toNat < 2 ^ c.aw := by
  simp only [cfgAddrsWf, Bool.and_eq_true, decide_eq_true_iff, allDistinct_eq_true_iff, List.all_eq_true,
    List.nodup_map_iff BitVec.toNat_injective]
  constructor
  · rintro ⟨⟨⟨⟨⟨hint, hmsk⟩, hhead⟩, htail⟩, hnodup⟩, hlt⟩
    exact ⟨⟨hint, hmsk, hhead, htail⟩, hnodup, hlt⟩
  · rintro ⟨⟨hint, hmsk, hhead, htail⟩, hnodup, hlt⟩
    exact ⟨⟨⟨⟨⟨hint, hmsk⟩, hhead⟩, htail⟩, hnodup⟩, hlt⟩

theorem addrTables_of_cfgWf {c : Cfg} (h : cfgWf c = true) : AddrTables c := by
  obtain ⟨_, haddrs, _⟩ := (cfgWf_eq_true_iff c).mp h
  exact ((cfgAddrsWf_iff c).mp haddrs).1

/-- R7 (a): two registers of a well-formed configuration have different addresses. -/
theorem addrOf_injective_of_cfgWf {c : Cfg} (h : cfgWf c = true) {p q : Reg} (hp : regExists c p = true)
    (hq : regExists c q = true) (heq : addrOf c p = addrOf c q) : p = q := by
  obtain ⟨_, haddrs, _⟩ := (cfgWf_eq_true_iff c).mp h
  obtain ⟨htables, hnodup, _⟩ := (cfgAddrsWf_iff c).mp haddrs
  rw [← map_addrOf_allRegs htables] at hnodup
  exact List.inj_on_of_nodup_map hnodup ((mem_allRegs c p).mpr hp) ((mem_allRegs c q).mpr hq) heq

/-- R7 (a): no address of a well-formed configuration needs more than `AW` bits. -/
theorem addrOf_lt_of_cfgWf {c : Cfg} (h : cfgWf c = true) {p : Reg} (hp : regExists c p = true) :
    (addrOf c p).toNat < 2 ^ c.aw := by
  obtain ⟨_, haddrs, _⟩ := (cfgWf_eq_true_iff c).mp h
  obtain ⟨htables, _, hlt⟩ := (cfgAddrsWf_iff c).mp haddrs
  refine hlt _ ?_
  rw [← map_addrOf_allRegs htables]
  exact List.mem_map_of_mem ((mem_allRegs c p).mpr hp)

/-! ## `KIND` -/

/-- An entry found by its address stands in the table. -/
theorem lt_length_of_findIdx? {α : Type} {p : α → Bool} {xs : List α} {i : Nat} (h : xs.findIdx? p = some i) :
    i < xs.length := by
  obtain ⟨hlt, _⟩ := List.findIdx?_eq_some_iff_getElem.mp h
  exact hlt

/-- A table in which no entry was found by address has none with that address. -/
theorem addr_ne_of_findIdx?_eq_none {α : Type} (f : α → Addr) {xs : List α} {a : Addr} {i : Nat} (dflt : α)
    (h : xs.findIdx? (fun x => decide (f x = a)) = none) (hi : i < xs.length) : f (xs.getD i dflt) ≠ a := by
  rw [List.getD_eq_getElem xs dflt hi]
  simpa using List.findIdx?_eq_none_iff.mp h _ (List.getElem_mem hi)

/-- An address names only registers that exist; each case is one table `KIND` searches. -/
theorem regExists_of_kind {c : Cfg} (h : AddrTables c) {a : Addr} {reg : Reg} (hk : kind c a = some reg) :
    regExists c reg = true := by
  unfold kind at hk
  split at hk
  · cases hk; rfl
  split at hk
  · next hidx => cases hk; exact decide_eq_true (h.shadowInt ▸ lt_length_of_findIdx? hidx)
  split at hk
  · next hidx => cases hk; exact decide_eq_true (h.shadowMsk ▸ lt_length_of_findIdx? hidx)
  split at hk
  · next hidx => cases hk; exact decide_eq_true (lt_length_of_findIdx? hidx)
  split at hk
  · next hidx => cases hk; exact decide_eq_true (lt_length_of_findIdx? hidx)
  split at hk
  · next hidx => cases hk; exact decide_eq_true (lt_length_of_findIdx? hidx)
  split at hk
  · next hidx => cases hk; exact decide_eq_true (lt_length_of_findIdx? hidx)
  split at hk
  · next hidx => cases hk; exact decide_eq_true (h.headPtr ▸ lt_length_of_findIdx? hidx)
  split at hk
  · next hidx => cases hk; exact decide_eq_true (h.tailPtr ▸ lt_length_of_findIdx? hidx)
  · cases hk

/-- An unmapped address is the address of no register that exists. -/
theorem addrOf_ne_of_kind_eq_none {c : Cfg} (h : AddrTables c) {a : Addr} (hk : kind c a = none) {reg : Reg}
    (hreg : regExists c reg = true) : addrOf c reg ≠ a := by
  unfold kind at hk
  split at hk
  · cases hk
  rename_i hglb
  split at hk
  · cases hk
  rename_i hint
  split at hk
  · cases hk
  rename_i hmsk
  split at hk
  · cases hk
  rename_i hstatus
  split at hk
  · cases hk
  rename_i henHi
  split at hk
  · cases hk
  rename_i henLo
  split at hk
  · cases hk
  rename_i hinject
  split at hk
  · cases hk
  rename_i hhead
  split at hk
  · cases hk
  rename_i htail
  cases reg with
  | glbShadow => exact fun h => hglb h.symm
  | shadowInt i => exact addr_ne_of_findIdx?_eq_none id _ hint (h.shadowInt ▸ of_decide_eq_true hreg)
  | shadowMsk i => exact addr_ne_of_findIdx?_eq_none id _ hmsk (h.shadowMsk ▸ of_decide_eq_true hreg)
  | status L => exact addr_ne_of_findIdx?_eq_none LeafDesc.statusAddr _ hstatus (of_decide_eq_true hreg)
  | enHi L => exact addr_ne_of_findIdx?_eq_none LeafDesc.enHiAddr _ henHi (of_decide_eq_true hreg)
  | enLo L => exact addr_ne_of_findIdx?_eq_none LeafDesc.enLoAddr _ henLo (of_decide_eq_true hreg)
  | inject L => exact addr_ne_of_findIdx?_eq_none LeafDesc.injectAddr _ hinject (of_decide_eq_true hreg)
  | headPtr r => exact addr_ne_of_findIdx?_eq_none id _ hhead (h.headPtr ▸ of_decide_eq_true hreg)
  | tailPtr r => exact addr_ne_of_findIdx?_eq_none id _ htail (h.tailPtr ▸ of_decide_eq_true hreg)

/-- Settles O8: `KIND` finds some register at the address of a register, and no two registers share an address. -/
theorem kindInvertsAddr : Obligations.KindInvertsAddr := by
  intro c hwf
  have htables := addrTables_of_cfgWf hwf
  refine ⟨fun reg hreg => ?_, fun a reg hk => ⟨addrOf_of_kind hk, regExists_of_kind htables hk⟩⟩
  cases hk : kind c (addrOf c reg) with
  | none => exact absurd rfl (addrOf_ne_of_kind_eq_none htables hk hreg)
  | some found =>
    rw [addrOf_injective_of_cfgWf hwf (regExists_of_kind htables hk) hreg (addrOf_of_kind hk)]

/-! ## Leaves and tables -/

/-- R7 (c): the tables of a well-formed configuration hold every leaf once and nothing else. -/
theorem placed_of_cfgWf {c : Cfg} (h : cfgWf c = true) :
    ((List.range nSlot).flatMap (slotLeaves c)).Nodup ∧
    ∀ L, L ∈ (List.range nSlot).flatMap (slotLeaves c) ↔ L < c.leaves.length := by
  obtain ⟨_, _, hleaves, _⟩ := (cfgWf_eq_true_iff c).mp h
  simp only [cfgLeavesWf, Bool.and_eq_true, allDistinct_eq_true_iff, List.all_eq_true, decide_eq_true_iff,
    occurs_eq_true_iff] at hleaves
  obtain ⟨⟨hnodup, hlt⟩, hall⟩ := hleaves
  exact ⟨hnodup, fun L => ⟨hlt L, fun hL => hall L (List.mem_range.mpr hL)⟩⟩

/-- R7 (d), (e): the tables of a well-formed configuration. -/
theorem table_of_cfgWf {c : Cfg} (h : cfgWf c = true) {i : Nat} {t : BusTable} (ht : slotTable c i = some t) :
    (t.entries.map Prod.fst).Nodup ∧ (∀ e ∈ t.entries, e.1 < nBit) ∧ ∀ e ∈ t.entries, bodyDepth e.2 ≤ 2 := by
  obtain ⟨_, _, _, htables, _⟩ := (cfgWf_eq_true_iff c).mp h
  have hmem : some t ∈ c.slots := by
    rw [slotTable, List.getD_eq_getElem?_getD] at ht
    cases hget : c.slots[i]? with
    | none => simp [hget] at ht
    | some x =>
      obtain rfl : x = some t := by simpa [hget] using ht
      exact List.mem_of_getElem? hget
  have hwf := htables t hmem
  simp only [tableWf, tableEntriesWf, Bool.and_eq_true, allDistinct_eq_true_iff, List.all_eq_true,
    decide_eq_true_iff] at hwf
  obtain ⟨⟨hnodup, hbits⟩, hdepth⟩ := hwf
  exact ⟨hnodup, hbits, hdepth⟩

/-- Settles O7: each clause is the contrapositive of what well-formedness gives. -/
theorem illFormedConfigRefused : Obligations.IllFormedConfigRefused := by
  refine ⟨fun s hill => ?refused, fun c => ⟨fun p q hp hq hne heq => ?sameAddr, fun p hp hbig => ?bigAddr,
    fun L M hL hM hne heq => ?sameStatus, fun L hL hcount => ?place, fun i t ht hbad => ?table⟩⟩
  case refused => simp [step, hill]
  all_goals
    rw [Bool.eq_false_iff]
    intro hwf
  case sameAddr => exact hne (addrOf_injective_of_cfgWf hwf hp hq heq)
  case bigAddr => exact absurd (addrOf_lt_of_cfgWf hwf hp) (not_lt.mpr hbig)
  case sameStatus =>
    have hreg : Reg.status L = .status M :=
      addrOf_injective_of_cfgWf hwf (decide_eq_true hL) (decide_eq_true hM) heq
    exact hne (Reg.status.inj hreg)
  case place =>
    obtain ⟨hnodup, hmem⟩ := placed_of_cfgWf hwf
    exact hcount (List.count_eq_one_of_mem hnodup ((hmem L).mpr hL))
  case table =>
    obtain ⟨hnodup, hbits, hdepth⟩ := table_of_cfgWf hwf ht
    rcases hbad with hdup | ⟨e, he, hbig⟩ | ⟨e, he, hdeep⟩
    · exact hdup hnodup
    · exact absurd (hbits e he) (not_lt.mpr hbig)
    · exact absurd (hdepth e he) (not_le.mpr hdeep)

end Sys2Proof.Machine
end

section
/-! PROOFS. The shadow tree under a mask write and under a source step (R25, R131, R132), and the ring pointers under the
DMA engine (R163, R164). -/

namespace Sys2Proof.Machine

/-! ## Masks -/

/-- A mask gates the global word alone: no shadow word depends on it (R25, R38). -/
@[simp] theorem shadowIntAt_setShadowMsk (st : State) (d d' : DevId) (s s' : SubId) (i j : Nat) (v : Word) :
    shadowIntAt (st.setShadowMsk d s i v) d' s' j = shadowIntAt st d' s' j :=
  shadowIntAt_congr st _ d' s' j rfl fun _ => rfl

/-- Settles O18: a bit of the global word reads its own slot's mask and no other. -/
theorem maskGatesGlobalWordOnly : Obligations.MaskGatesGlobalWordOnly := by
  intro st d s i j v hi
  refine ⟨shadowIntAt_setShadowMsk .., fun hne => ?other, ?allOnes, ?zero⟩
  case other =>
    rw [Bool.eq_iff_iff, getLsbD_glbShadowAt, getLsbD_glbShadowAt, shadowIntAt_setShadowMsk,
      State.shadowMskAt_setShadowMsk, if_neg fun h => hne h.2.2]
  case allOnes =>
    have hones : ~~~0xFFFFFFFF#32 = 0#32 := by decide
    rw [Bool.eq_false_iff, Ne, getLsbD_glbShadowAt, State.shadowMskAt_setShadowMsk_same, hones]
    simp
  case zero =>
    have hones : ~~~0#32 = BitVec.allOnes 32 := by decide
    rw [getLsbD_glbShadowAt, State.shadowMskAt_setShadowMsk_same, shadowIntAt_setShadowMsk, hones, BitVec.and_allOnes]
    exact and_iff_right hi

/-! ## Source steps -/

/-- What R131 asks of a source step. -/
theorem srcEnabled_iff (st : State) (d : DevId) (s : SubId) (L : LeafId) (bits : Word) :
    srcEnabled st d s L bits = true ↔
      d.toNat < st.cfg.nDev ∧ s.toNat < st.cfg.nSubdev ∧ L < st.cfg.leaves.length ∧ bits ≠ 0#32 := by
  simp [srcEnabled, idsOk, devOk, subOk, and_assoc]

theorem agentStep_srcRaise_of_enabled {st : State} {d : DevId} {s : SubId} {L : LeafId} {bits : Word}
    (h : srcEnabled st d s L bits = true) :
    agentStep (.srcRaise d s L bits) st = .next (st.setStatus d s L (st.statusAt d s L ||| bits)) := by
  rw [agentStep, srcRaise, if_pos h]

theorem agentStep_srcRaise_of_not_enabled {st : State} {d : DevId} {s : SubId} {L : LeafId} {bits : Word}
    (h : ¬ srcEnabled st d s L bits = true) : agentStep (.srcRaise d s L bits) st = .next st := by
  rw [agentStep, srcRaise, if_neg h]

/-- The slot of a leaf is one of the sixteen (R34). -/
theorem lt_of_slotOf {c : Cfg} {L : LeafId} {i : Nat} (h : slotOf c L = some i) : i < 16 :=
  List.mem_range.mp (List.mem_of_find?_eq_some h)

/-- All shadow bits of a pending leaf show in its slot's shadow word (R38). -/
theorem shadowMask_of_leafPending (st : State) {d : DevId} {s : SubId} {L : LeafId} {i : Nat}
    (hL : L < st.cfg.leaves.length) (hslot : slotOf st.cfg L = some i) (hpend : leafPending st d s L = true) :
    shadowIntAt st d s i &&& (leafDesc st.cfg L).shadowMask = (leafDesc st.cfg L).shadowMask := by
  refine BitVec.eq_of_getLsbD_eq fun b _ => ?_
  cases hbit : (leafDesc st.cfg L).shadowMask.getLsbD b with
  | false => simp [hbit]
  | true => simp [hbit, (getLsbD_shadowIntAt st d s i b).mpr ⟨L, hL, hslot, hbit, hpend⟩]

/-- Shadow bits that are not all masked raise their slot's bit of the global word (R39). -/
theorem glbShadowAt_of_unmasked {st : State} {d : DevId} {s : SubId} {i : Nat} {m : Word} (hi : i < 16)
    (hm : shadowIntAt st d s i &&& m = m) (hopen : m &&& ~~~ st.shadowMskAt d s i ≠ 0#32) :
    (glbShadowAt st d s).getLsbD i = true := by
  refine (getLsbD_glbShadowAt st d s i).mpr ⟨hi, fun hzero => hopen ?_⟩
  rw [← hm, BitVec.and_assoc, BitVec.and_comm m, ← BitVec.and_assoc, hzero, BitVec.zero_and]

/-- Settles O19: the leaf's status is the one register a source step writes, and the derived words read it live. -/
theorem sourceStepPropagatesAtOnce : Obligations.SourceStepPropagatesAtOnce := by
  intro st d s L bits isStep
  refine ⟨fun hstep => ⟨_, agentStep_srcRaise_of_enabled ((srcEnabled_iff ..).mpr hstep), rfl,
    fun d' s' L' => State.statusAt_setStatus .., fun i hslot hen => ?shows⟩,
    fun hno => agentStep_srcRaise_of_not_enabled (mt (srcEnabled_iff ..).mp hno)⟩
  case shows =>
    obtain ⟨_, _, hL, _⟩ := hstep
    have hpend : leafPending (st.setStatus d s L (st.statusAt d s L ||| bits)) d s L = true := by
      rw [leafPending_eq_true_iff, State.statusAt_setStatus_same]
      exact hen
    have hmask := shadowMask_of_leafPending (st.setStatus d s L (st.statusAt d s L ||| bits)) hL hslot hpend
    exact ⟨hmask, glbShadowAt_of_unmasked (lt_of_slotOf hslot) hmask⟩

/-! ## Occupancy -/

/-- Between `-depth` and `2 * depth`, a number is known by its residue if that is at most `depth`. -/
theorem eq_of_emod_two_mul_eq {u v d : Int} (hlo : -d < u) (hhi : u < 2 * d) (hv : v ≤ d) (h : u % (2 * d) = v) :
    u = v := by
  have hu := (emod_two_mul_le_iff hlo hhi).mp (h ▸ hv)
  rwa [Int.emod_eq_of_lt hu.1 hhi] at h

/-- The occupancy of a valid pair is the distance on the circle itself (R164 (b)). -/
theorem usedInt_eq_emod {head tail : Ptr} {depth : Nat} (h : validPtrs head tail depth = true) :
    usedInt head tail depth = ((pos tail depth : Int) - pos head depth) % (2 * (depth : Int)) := by
  obtain ⟨hdepth, hhead, htail, _⟩ := (validPtrs_eq_true_iff ..).mp h
  obtain ⟨hlo, hhi⟩ := (validPtrs_iff_usedInt hhead htail).mp h
  rw [pos_sub_pos_emod, Int.emod_eq_of_lt hlo (by omega)]

/-- The tail advanced within the room adds to the occupancy (R164 (e)). -/
theorem usedInt_adv_tail {head tail : Ptr} {depth n : Nat} (h : validPtrs head tail depth = true)
    (hn : (n : Int) ≤ depth - usedInt head tail depth) :
    usedInt head (adv tail n depth) depth = usedInt head tail depth + n := by
  obtain ⟨_, hhead, htail, _⟩ := (validPtrs_eq_true_iff ..).mp h
  obtain ⟨hlo, hhi⟩ := usedInt_bounds hhead (adv_idx_lt n htail)
  obtain ⟨hzero, _⟩ := (validPtrs_iff_usedInt hhead htail).mp h
  refine eq_of_emod_two_mul_eq hlo hhi (by omega) ?_
  rw [← pos_sub_pos_emod, pos_adv n htail]
  push_cast
  rw [Int.emod_sub_emod, show (pos tail depth : Int) + n - pos head depth = (pos tail depth - pos head depth) + n by ring,
    ← Int.emod_add_emod, ← usedInt_eq_emod h, Int.emod_eq_of_lt (by omega) (by omega)]

/-- The head advanced over what is there takes it off the occupancy (R164 (e)). -/
theorem usedInt_adv_head {head tail : Ptr} {depth n : Nat} (h : validPtrs head tail depth = true)
    (hn : (n : Int) ≤ usedInt head tail depth) :
    usedInt (adv head n depth) tail depth = usedInt head tail depth - n := by
  obtain ⟨hdepth, hhead, htail, _⟩ := (validPtrs_eq_true_iff ..).mp h
  obtain ⟨hlo, hhi⟩ := usedInt_bounds (adv_idx_lt n hhead) htail
  obtain ⟨_, hle⟩ := (validPtrs_iff_usedInt hhead htail).mp h
  refine eq_of_emod_two_mul_eq hlo hhi (by omega) ?_
  rw [← pos_sub_pos_emod, pos_adv n hhead]
  push_cast
  rw [Int.sub_emod_emod, show (pos tail depth : Int) - (pos head depth + n) = (pos tail depth - pos head depth) - n by ring,
    ← Int.emod_sub_emod, ← usedInt_eq_emod h, Int.emod_eq_of_lt (by omega) (by omega)]

theorem ptr_eq_iff (p q : Ptr) : p = q ↔ p.wrap = q.wrap ∧ p.idx = q.idx := by
  cases p
  cases q
  simp

/-- Settles O23: the occupancy of a valid pair is the distance on the circle, where an advance is an addition. -/
theorem occupancyLaws : Obligations.OccupancyLaws := by
  intro head tail depth h
  obtain ⟨hdepth, hhead, htail, _⟩ := (validPtrs_eq_true_iff ..).mp h
  refine ⟨(validPtrs_iff_usedInt hhead htail).mp h, usedInt_eq_emod h, ?empty, ?full, fun n => usedInt_adv_tail h,
    fun n => usedInt_adv_head h⟩
  case empty =>
    rw [ptr_eq_iff, usedInt]
    split
    case isTrue hsame => simp only [hsame, true_and]; omega
    case isFalse hdiff => simp only [Ne.symm hdiff, false_and, iff_false]; omega
  case full =>
    unfold usedInt
    split
    case isTrue hsame => simp only [hsame, ne_eq, not_true_eq_false, and_false, iff_false]; omega
    case isFalse hdiff => simp only [ne_eq, Ne.symm hdiff, not_false_eq_true, and_true]; omega

/-! ## Pointer words read back -/

/-- A pointer word decodes to the pointer it was made of (R27). -/
theorem decPtr_encPtr {c : Cfg} {p : Ptr} (hw : c.ptrIdxW ≤ 31) (hidx : p.idx < 2 ^ c.ptrIdxW) :
    decPtr c (encPtr c p) = p := by
  rw [ptr_eq_iff, decPtr, BitVec.getLsbD, encPtr_toNat hw hidx]
  refine ⟨?_, Nat.mul_add_mod_of_lt hidx⟩
  rw [Nat.testBit_eq_decide_div_mod_eq, Nat.mul_comm, Nat.mul_add_div (Nat.two_pow_pos _), Nat.div_eq_of_lt hidx]
  cases p.wrap <;> rfl

/-- Settles O20: the word is its index below its wrap bit, and the two examples are closed facts. -/
theorem pointerWordRoundTrip : Obligations.PointerWordRoundTrip := by
  refine ⟨fun c p => decPtr_encPtr, fun c hw => ?_⟩
  rw [encPtr, decPtr, hw]
  exact ⟨rfl, rfl⟩

/-! ## The DMA engine -/

theorem ringIdsOk_iff (c : Cfg) (d : DevId) (s : SubId) (r : RingId) :
    ringIdsOk c d s r = true ↔ d.toNat < c.nDev ∧ s.toNat < c.nSubdev ∧ r.toNat < c.nRing := by
  simp [ringIdsOk, devOk, subOk, ringOk, and_assoc]

theorem viewConfigured_iff (v : View) : viewConfigured v = true ↔ v.depth ≠ 0#32 ∧ v.base ≠ 0#64 := by
  simp [viewConfigured]

/-- The room in a ring's direction (R163). -/
theorem le_dmaRoom_iff (st : State) (d : DevId) (s : SubId) (r : RingId) (n : Nat) : (n : Int) ≤ dmaRoom st d s r ↔
    (ringDir st.cfg r = .hostProduces →
      (n : Int) ≤ usedInt (ringHead st d s r) (ringTail st d s r) (st.viewAt d s r).depth.toNat) ∧
    (ringDir st.cfg r = .hwProduces → (n : Int) ≤ (st.viewAt d s r).depth.toNat -
      usedInt (ringHead st d s r) (ringTail st d s r) (st.viewAt d s r).depth.toNat) := by
  unfold dmaRoom
  cases ringDir st.cfg r <;> simp

/-- What R163 asks of a DMA step. -/
theorem dmaEnabled_iff (st : State) (d : DevId) (s : SubId) (r : RingId) (n : Nat) : dmaEnabled st d s r n = true ↔
    ringIdsOk st.cfg d s r = true ∧ ((st.viewAt d s r).depth ≠ 0#32 ∧ (st.viewAt d s r).base ≠ 0#64) ∧ 1 ≤ n ∧
    validPtrs (ringHead st d s r) (ringTail st d s r) (st.viewAt d s r).depth.toNat = true ∧
    (n : Int) ≤ dmaRoom st d s r := by
  simp only [dmaEnabled, Bool.and_eq_true, decide_eq_true_iff, viewConfigured_iff, and_assoc]

/-- Where a DMA step is not enabled the engine has no step (R163). -/
theorem dmaAdv_of_not_enabled {st : State} {d : DevId} {s : SubId} {r : RingId} {n : Nat}
    (h : ¬ dmaEnabled st d s r n = true) : dmaAdv st d s r n = st := by
  unfold dmaAdv
  exact if_neg h

/-- On a ring the host fills the engine moves the head (R153, R163). -/
theorem dmaAdv_of_hostProduces {st : State} {d : DevId} {s : SubId} {r : RingId} {n : Nat}
    (h : dmaEnabled st d s r n = true) (hdir : ringDir st.cfg r = .hostProduces) :
    dmaAdv st d s r n = st.setHeadPtr d s r.toNat
      (encPtr st.cfg (adv (ringHead st d s r) n (st.viewAt d s r).depth.toNat)) := by
  unfold dmaAdv
  simp only [h, hdir, if_true]

/-- On a ring the hardware fills the engine moves the tail (R153, R163). -/
theorem dmaAdv_of_hwProduces {st : State} {d : DevId} {s : SubId} {r : RingId} {n : Nat}
    (h : dmaEnabled st d s r n = true) (hdir : ringDir st.cfg r = .hwProduces) :
    dmaAdv st d s r n = st.setTailPtr d s r.toNat
      (encPtr st.cfg (adv (ringTail st d s r) n (st.viewAt d s r).depth.toNat)) := by
  unfold dmaAdv
  simp only [h, hdir, if_true]

theorem ringHead_setHeadPtr_encPtr {st : State} {d : DevId} {s : SubId} {r : RingId} {p : Ptr}
    (hw : st.cfg.ptrIdxW ≤ 31) (hidx : p.idx < 2 ^ st.cfg.ptrIdxW) :
    ringHead (st.setHeadPtr d s r.toNat (encPtr st.cfg p)) d s r = p := by
  rw [ringHead, State.headPtrAt_setHeadPtr_same, State.setHeadPtr_cfg, decPtr_encPtr hw hidx]

theorem ringTail_setTailPtr_encPtr {st : State} {d : DevId} {s : SubId} {r : RingId} {p : Ptr}
    (hw : st.cfg.ptrIdxW ≤ 31) (hidx : p.idx < 2 ^ st.cfg.ptrIdxW) :
    ringTail (st.setTailPtr d s r.toNat (encPtr st.cfg p)) d s r = p := by
  rw [ringTail, State.tailPtrAt_setTailPtr_same, State.setTailPtr_cfg, decPtr_encPtr hw hidx]

/-- An enabled step on a ring the host fills: the head moves on, the pair stays valid (R163, R164 (e)). -/
theorem dmaAdv_hostProduces_valid {st : State} {d : DevId} {s : SubId} {r : RingId} {n : Nat}
    (h : dmaEnabled st d s r n = true) (hdir : ringDir st.cfg r = .hostProduces) (hw : st.cfg.ptrIdxW ≤ 31)
    (hdepth : (st.viewAt d s r).depth.toNat < 2 ^ st.cfg.ptrIdxW) :
    ringHead (dmaAdv st d s r n) d s r = adv (ringHead st d s r) n (st.viewAt d s r).depth.toNat ∧
    ringTail (dmaAdv st d s r n) d s r = ringTail st d s r ∧
    usedInt (adv (ringHead st d s r) n (st.viewAt d s r).depth.toNat) (ringTail st d s r)
      (st.viewAt d s r).depth.toNat = usedInt (ringHead st d s r) (ringTail st d s r) (st.viewAt d s r).depth.toNat - n ∧
    validPtrs (adv (ringHead st d s r) n (st.viewAt d s r).depth.toNat) (ringTail st d s r)
      (st.viewAt d s r).depth.toNat = true := by
  obtain ⟨_, _, _, hvalid, hroom⟩ := (dmaEnabled_iff ..).mp h
  obtain ⟨_, hhead, htail, _⟩ := (validPtrs_eq_true_iff ..).mp hvalid
  have hn := ((le_dmaRoom_iff ..).mp hroom).1 hdir
  have hused := usedInt_adv_head hvalid hn
  obtain ⟨_, hle⟩ := (validPtrs_iff_usedInt hhead htail).mp hvalid
  rw [dmaAdv_of_hostProduces h hdir]
  refine ⟨ringHead_setHeadPtr_encPtr hw ((adv_idx_lt n hhead).trans hdepth), rfl, hused, ?_⟩
  rw [validPtrs_iff_usedInt (adv_idx_lt n hhead) htail, hused]
  omega

/-- An enabled step on a ring the hardware fills: the tail moves on, the pair stays valid (R163, R164 (e)). -/
theorem dmaAdv_hwProduces_valid {st : State} {d : DevId} {s : SubId} {r : RingId} {n : Nat}
    (h : dmaEnabled st d s r n = true) (hdir : ringDir st.cfg r = .hwProduces) (hw : st.cfg.ptrIdxW ≤ 31)
    (hdepth : (st.viewAt d s r).depth.toNat < 2 ^ st.cfg.ptrIdxW) :
    ringHead (dmaAdv st d s r n) d s r = ringHead st d s r ∧
    ringTail (dmaAdv st d s r n) d s r = adv (ringTail st d s r) n (st.viewAt d s r).depth.toNat ∧
    validPtrs (ringHead st d s r) (adv (ringTail st d s r) n (st.viewAt d s r).depth.toNat)
      (st.viewAt d s r).depth.toNat = true := by
  obtain ⟨_, _, _, hvalid, hroom⟩ := (dmaEnabled_iff ..).mp h
  obtain ⟨_, hhead, htail, _⟩ := (validPtrs_eq_true_iff ..).mp hvalid
  have hn := ((le_dmaRoom_iff ..).mp hroom).2 hdir
  obtain ⟨hzero, _⟩ := (validPtrs_iff_usedInt hhead htail).mp hvalid
  rw [dmaAdv_of_hwProduces h hdir]
  refine ⟨rfl, ringTail_setTailPtr_encPtr hw ((adv_idx_lt n htail).trans hdepth), ?_⟩
  rw [validPtrs_iff_usedInt hhead (adv_idx_lt n htail), usedInt_adv_tail hvalid hn]
  omega

/-- Settles O24, by cases on the ring's direction: the engine moves its own pointer within the room there is. -/
theorem dmaStepKeepsRingValid : Obligations.DmaStepKeepsRingValid := by
  intro st d s r n hd hs hr view depth head tail isStep
  have henabled : dmaEnabled st d s r n = true ↔ isStep := by
    rw [dmaEnabled_iff, le_dmaRoom_iff, and_iff_right ((ringIdsOk_iff ..).mpr ⟨hd, hs, hr⟩)]
    rfl
  refine ⟨fun hstep hw hdepth => ⟨dmaAdv st d s r n, rfl, dmaAdv_eq .., ?_⟩,
    fun hno => congrArg Host.Outcome.next (dmaAdv_of_not_enabled (mt henabled.mp hno))⟩
  have h := henabled.mpr hstep
  cases hdir : ringDir st.cfg r with
  | hostProduces =>
    obtain ⟨hhead, htail, _, hvalid⟩ := dmaAdv_hostProduces_valid h hdir hw hdepth
    rw [hhead, htail]
    refine ⟨hvalid, fun _ => ⟨?_, rfl⟩, nofun, fun d' s' r' hne => ?_⟩
    · rw [dmaAdv_of_hostProduces h hdir, State.setHeadPtr_tailPtr]
    · rw [dmaAdv_of_hostProduces h hdir, State.headPtrAt_setHeadPtr, if_neg hne, State.setHeadPtr_tailPtrAt]
      exact ⟨rfl, rfl⟩
  | hwProduces =>
    obtain ⟨hhead, htail, hvalid⟩ := dmaAdv_hwProduces_valid h hdir hw hdepth
    rw [hhead, htail]
    refine ⟨hvalid, nofun, fun _ => ⟨?_, rfl⟩, fun d' s' r' hne => ?_⟩
    · rw [dmaAdv_of_hwProduces h hdir, State.setTailPtr_headPtr]
    · rw [dmaAdv_of_hwProduces h hdir, State.tailPtrAt_setTailPtr, if_neg hne, State.setTailPtr_headPtrAt]
      exact ⟨rfl, rfl⟩

end Sys2Proof.Machine
end

section
/-! PROOFS. Register writes and device initialisation (R121, R125 to R128), and the ids every command tests first
(R95). -/

namespace Sys2Proof.Machine

/-! ## What `WR` answers -/

theorem exec_wr (d : DevId) (s : SubId) (a : Addr) (v : Word) (st : State) :
    exec (.wr d s a v) st = execWr d s a v st := rfl

theorem exec_wr_of_not_idsOk {d : DevId} {s : SubId} {st : State} (a : Addr) (v : Word)
    (hids : idsOk st.cfg d s = false) : exec (.wr d s a v) st = st.fail rInvalid := by
  rw [exec_wr, execWr, if_pos hids]

theorem exec_wr_of_unmapped {d : DevId} {s : SubId} {a : Addr} {st : State} (v : Word) (hids : idsOk st.cfg d s = true)
    (hkind : kind st.cfg a = none) : exec (.wr d s a v) st = st.fail rInvalid := by
  simp [exec_wr, execWr, hids, hkind]

/-- A mapped address is written through the transport, which shows the address asked for (R121). -/
theorem exec_wr_of_mapped {d : DevId} {s : SubId} {a : Addr} {st : State} {reg : Reg} (v : Word)
    (hids : idsOk st.cfg d s = true) (hkind : kind st.cfg a = some reg) :
    exec (.wr d s a v) st = .next (((regStore st d s reg v).emit (.write d s a v)).respond rOk) := by
  simp [exec_wr, execWr, hids, hkind, regWrite, addrOf_of_kind hkind]

/-! ## The statements about `WR` -/

/-- Settles O10: the two tests come first, and a read-only register stores nothing. -/
theorem wrRejectsOrIgnores : Obligations.WrRejectsOrIgnores := by
  intro d s a v st
  refine ⟨exec_wr_of_not_idsOk a v, exec_wr_of_unmapped v, fun reg hids hkind hro => ?_⟩
  rw [exec_wr_of_mapped v hids hkind]
  rcases hro with rfl | ⟨i, rfl⟩ <;> rfl

/-- Settles O11: a status register and an inject register store into the leaf's status. -/
theorem wrAcknowledgesOrInjects : Obligations.WrAcknowledgesOrInjects := by
  intro d s a v L st hids hkind
  rcases hkind with hkind | hkind
  · refine ⟨_, exec_wr_of_mapped v hids hkind, rfl, fun _ => State.statusAt_setStatus_same .., fun h => ?_,
      fun d' s' L' hne => (State.statusAt_setStatus ..).trans (if_neg hne)⟩
    cases hkind.symm.trans h
  · refine ⟨_, exec_wr_of_mapped v hids hkind, rfl, fun h => ?_, fun _ => State.statusAt_setStatus_same ..,
      fun d' s' L' hne => (State.statusAt_setStatus ..).trans (if_neg hne)⟩
    cases hkind.symm.trans h

/-- Settles O12: each of the three registers stores the value in its own array. -/
theorem wrStoresEnablesAndMasks : Obligations.WrStoresEnablesAndMasks := by
  intro d s a v x st hids
  exact ⟨fun hkind => ⟨_, exec_wr_of_mapped v hids hkind, rfl, fun _ _ _ => State.enHiAt_setEnHi ..⟩,
    fun hkind => ⟨_, exec_wr_of_mapped v hids hkind, rfl, fun _ _ _ => State.enLoAt_setEnLo ..⟩,
    fun hkind => ⟨_, exec_wr_of_mapped v hids hkind, rfl, fun _ _ _ => State.shadowMskAt_setShadowMsk ..⟩⟩

/-- Settles O13: a pointer register stores the value under the pointer mask. -/
theorem wrStoresMaskedPointer : Obligations.WrStoresMaskedPointer := by
  intro d s a v r st hids
  exact ⟨fun hkind => ⟨_, exec_wr_of_mapped v hids hkind, rfl, fun _ _ _ => State.headPtrAt_setHeadPtr ..⟩,
    fun hkind => ⟨_, exec_wr_of_mapped v hids hkind, rfl, fun _ _ _ => State.tailPtrAt_setTailPtr ..⟩⟩

/-! ## `DEV_INIT` -/

theorem exec_devInit (d : DevId) (st : State) : exec (.devInit d) st = execDevInit d st := rfl

/-- A device with no poll and no `UPDATE_VIEW` in progress is rebuilt (R128, R311, R312). -/
theorem exec_devInit_of_free {d : DevId} {st : State} (hdev : devOk st.cfg d = true) (hidle : (st.seqAt d).st = .idle)
    (hfree : ∀ u ∈ st.updating, u.1 ≠ d) : exec (.devInit d) st = .next ((rebuildDevice st d).respond rOk) := by
  simp [exec_devInit, execDevInit, hdev, hidle, (deviceUpdating_eq_false st d).mpr hfree]

theorem countAt_rebuildDevice (st : State) (d d' : DevId) (L : LeafId) (b : Nat) :
    (rebuildDevice st d).countAt d' L b = if d' = d then 0#32 else st.countAt d' L b := by
  simp only [State.countAt, Memory.read, rebuildDevice, cntKey, Store.get_clearDev, dKey_mod, BitVec.toNat_inj]

theorem countShownAt_rebuildDevice (st : State) (d d' : DevId) (L : LeafId) (b : Nat) :
    (rebuildDevice st d).countShownAt d' L b = if d' = d then 0#32 else st.countShownAt d' L b := by
  simp only [State.countShownAt, Memory.read, rebuildDevice, cntKey, Store.get_clearDev, dKey_mod, BitVec.toNat_inj]

theorem seqAt_rebuildDevice (st : State) (d d' : DevId) :
    (rebuildDevice st d).seqAt d' = if d' = d then Seq.reset else st.seqAt d' := by
  simp only [State.seqAt, rebuildDevice, Store.get_put, dKey_inj, and_true]

/-- Settles O14: what a rebuild leaves of each array is its elements of the other devices. -/
theorem devInitRebuildsOneDevice : Obligations.DevInitRebuildsOneDevice := fun d st hdev hidle hfree =>
  ⟨_, exec_devInit_of_free hdev hidle hfree, rfl, cbAt_rebuildDevice st d, countAt_rebuildDevice st d,
    countShownAt_rebuildDevice st d, viewAt_rebuildDevice st d, seqAt_rebuildDevice st d, readyAt_rebuildDevice st d⟩

/-! ## Ids out of range -/

/-- The ids a command names are in range (R95). -/
def commandIdsOk (c : Cfg) : Instr → Bool
  | .rd d s _ | .wr d s _ _ | .poll _ d s | .injectAll d s _ | .enableAll _ d s _ | .logRead d s _ => idsOk c d s
  | .devInit d | .cbReg d _ _ _ | .cntShow d _ => devOk c d
  | .ringCfg d s r _ _ _ _ | .updateView d s r | .used d s r | .ringDump d s r | .logEvent d s r _ _ _ _ =>
    ringIdsOk c d s r

/-- Every command tests the ids it names before anything else (R95, R262). -/
theorem exec_of_not_commandIdsOk {i : Instr} {st : State} (h : i.wellFormed = true ∧ commandIdsOk st.cfg i = false) :
    exec i st = .next (st.respond rInvalid) := by
  obtain ⟨hwf, hids⟩ := h
  cases i with
  | rd d s a => exact if_pos hids
  | wr d s a v => exact if_pos hids
  | devInit d => exact if_pos hids
  | ringCfg d s r base depth wpd lock => exact if_pos hids
  | updateView d s r =>
    have hgate : viewGate st d s r = .answer rInvalid := if_pos hids
    simp only [exec, execUpdateView, hgate]
  | used d s r => exact if_pos hids
  | ringDump d s r => exact if_pos hids
  | poll f d s =>
    have hgate : pollGate st d s = .answer rInvalid := if_pos hids
    simp only [exec, execPoll, pollNested, pollWith, hgate]
  | cbReg d a fn ud => exact if_pos hids
  | cntShow d a => exact if_pos hids
  | injectAll d s a => exact exec_injectAll_of_answer (if_pos hids)
  | enableAll on d s a => exact exec_enableAll_of_answer (if_pos hids)
  | logEvent d s r dir head tail data =>
    have hfits : ¬ dataFits data = false := by simp [show dataFits data = true from hwf]
    have hgate : logGate st d s r data = .answer rInvalid := (if_neg hfits).trans (if_pos hids)
    simp only [exec, execLogEvent, hgate]
  | logRead d s filter => exact if_pos hids

theorem devOk_eq_false {c : Cfg} {d : DevId} (h : c.nDev ≤ d.toNat) : devOk c d = false :=
  decide_eq_false (not_lt.mpr h)

theorem subOk_eq_false {c : Cfg} {s : SubId} (h : c.nSubdev ≤ s.toNat) : subOk c s = false :=
  decide_eq_false (not_lt.mpr h)

theorem ringOk_eq_false {c : Cfg} {r : RingId} (h : c.nRing ≤ r.toNat) : ringOk c r = false :=
  decide_eq_false (not_lt.mpr h)

/-- Settles O15: every listed command is well formed and names the id that is out of range. -/
theorem deviceOutOfRangeIsInvalid : Obligations.DeviceOutOfRangeIsInvalid := by
  intro d s r a v b w f dir data st hdata
  have hfits : dataFits data = true := decide_eq_true hdata
  refine ⟨fun h i hi => exec_of_not_commandIdsOk ?dev, fun h i hi => exec_of_not_commandIdsOk ?sub,
    fun h i hi => exec_of_not_commandIdsOk ?ring⟩
  all_goals revert i
  case dev => simp [Instr.wellFormed, hfits, commandIdsOk, idsOk, ringIdsOk, devOk_eq_false h]
  case sub => simp [Instr.wellFormed, hfits, commandIdsOk, idsOk, ringIdsOk, subOk_eq_false h]
  case ring => simp [Instr.wellFormed, hfits, commandIdsOk, ringIdsOk, ringOk_eq_false h]

end Sys2Proof.Machine
end

section
/-! PROOFS. The ring commands: `RING_CFG`, `USED`, `RING_DUMP`, `UPDATE_VIEW` (R154 to R161), and an `UPDATE_VIEW` the DMA
engine steps into (R159, R322). -/

namespace Sys2Proof.Machine

/-! ## `RING_CFG` -/

theorem exec_ringCfg (d : DevId) (s : SubId) (r : RingId) (base : DWord) (depth : Word) (wpd : BitVec 16) (lock : Bool)
    (st : State) : exec (.ringCfg d s r base depth wpd lock) st = execRingCfg d s r base depth wpd lock st := rfl

theorem viewConfigured_eq_false_iff (v : View) : viewConfigured v = false ↔ v.depth = 0#32 ∨ v.base = 0#64 := by
  rw [← Bool.not_eq_true, viewConfigured_iff, not_and_or, not_not, not_not]

/-- Settles O25: every test passes, and the view is written. -/
theorem ringCfgCreatesView : Obligations.RingCfgCreatesView := by
  intro d s r base depth wpd lock st hids hready hfree hnew hdepth
  have hnew := (viewConfigured_eq_false_iff _).mpr hnew
  have hfree := (deviceUpdating_eq_false st d).mpr hfree
  have hexec : exec (.ringCfg d s r base depth wpd lock) st =
      .next ((st.setView d s r (freshView base depth wpd lock)).respond rOk) := by
    simp [exec_ringCfg, execRingCfg, hids, hready, hfree, hnew, hdepth]
  exact ⟨_, hexec, rfl, State.viewAt_setView_same .., fun _ _ _ hne => (State.viewAt_setView ..).trans (if_neg hne)⟩

/-- Settles O26: the test of readiness stands before that of the view, that before the depth's (R154). -/
theorem ringCfgRefusals : Obligations.RingCfgRefusals := by
  intro d s r base depth wpd lock st hids hfree
  have hfree := (deviceUpdating_eq_false st d).mpr hfree
  rw [exec_ringCfg, execRingCfg]
  refine ⟨fun hready => ?notReady, fun hready hdepth hbase => ?second, fun hready hdepth => ?tooDeep⟩
  case notReady => simp [hids, hready, State.respond, rOk]
  case second =>
    have hconf := (viewConfigured_iff _).mpr ⟨hdepth, hbase⟩
    simp [hids, hready, hfree, hconf, State.fail, State.respond, rInvalid]
  case tooDeep => simp [hids, hready, hfree, hdepth, State.fail, State.respond, rInvalid]

/-! ## `USED` and `RING_DUMP` -/

theorem exec_used_of_ids {d : DevId} {s : SubId} {r : RingId} {st : State} (hids : ringIdsOk st.cfg d s r = true) :
    exec (.used d s r) st = .next (st.respond ⟨.ok, [viewUsed (st.viewAt d s r)]⟩) := by
  simp [exec, execUsed, hids]

theorem exec_ringDump_of_ids {d : DevId} {s : SubId} {r : RingId} {st : State} (hids : ringIdsOk st.cfg d s r = true) :
    exec (.ringDump d s r) st = .next (st.respond ⟨.ok, viewDump st.cfg r (st.viewAt d s r)⟩) := by
  simp [exec, execRingDump, hids]

/-- Settles O27: the two cases of the view, configured or not. -/
theorem usedReturnsOccupancy : Obligations.UsedReturnsOccupancy := by
  intro d s r st hids
  rw [exec_used_of_ids hids, viewUsed]
  refine ⟨fun hnew => ?_, fun hdepth hbase => ?_⟩
  · rw [(viewConfigured_eq_false_iff _).mpr hnew]
    rfl
  · rw [(viewConfigured_iff _).mpr ⟨hdepth, hbase⟩]
    rfl

/-- Settles O28: the words are those of the view; the flag is a word of one bit. -/
theorem ringDumpReturnsView : Obligations.RingDumpReturnsView := by
  intro d s r st hids
  have hlock : boolWord (st.viewAt d s r).lockRequired = if (st.viewAt d s r).lockRequired then 1#32 else 0#32 := by
    cases (st.viewAt d s r).lockRequired <;> rfl
  rw [exec_ringDump_of_ids hids, viewDump, hlock]
  rfl

/-! ## `UPDATE_VIEW` -/

theorem exec_updateView (d : DevId) (s : SubId) (r : RingId) (st : State) :
    exec (.updateView d s r) st = execUpdateView d s r st := rfl

theorem viewBusy_eq_false_iff (st : State) (d : DevId) (s : SubId) (r : RingId) :
    viewBusy st d s r = false ↔ (d, s, r) ∉ st.updating := by
  simp [viewBusy]

theorem viewBusy_eq_true_iff (st : State) (d : DevId) (s : SubId) (r : RingId) :
    viewBusy st d s r = true ↔ (d, s, r) ∈ st.updating := by
  simp [viewBusy]

/-- Line 0 of `UPDATE_VIEW` ends it on a device that is not ready or a ring that is not configured (R158). -/
theorem viewGate_of_noOp {st : State} {d : DevId} {s : SubId} {r : RingId} (hids : ringIdsOk st.cfg d s r = true)
    (h : st.readyAt d = false ∨ viewConfigured (st.viewAt d s r) = false) : viewGate st d s r = .answer rOk := by
  unfold viewGate
  rcases h with h | h
  · simp [hids, h]
  · simp [hids, h]

/-- Settles O30: line 0 answers before the first boundary. -/
theorem updateViewNoOp : Obligations.UpdateViewNoOp := by
  intro d s r st hids h
  have hgate : viewGate st d s r = .answer rOk :=
    viewGate_of_noOp hids (h.imp_right (viewConfigured_eq_false_iff _).mpr)
  rw [exec_updateView, execUpdateView, hgate]
  rfl

/-- The state when line 3 of an `UPDATE_VIEW` that began in `st` has taken the words `h` and `t` and shown the reads
`evs`. -/
def viewUpdated (st : State) (d : DevId) (s : SubId) (r : RingId) (h t : Word) (evs : List Event) : State :=
  { st.setView d s r (updatedView st.cfg (st.viewAt d s r) h t) with trace := st.trace ++ evs, resp := rOk }

/-- The two reads of an `UPDATE_VIEW` as the transport sees them (R158). -/
def viewReads (st : State) (d : DevId) (s : SubId) (r : RingId) : List Event :=
  [.read d s (addrOf st.cfg (.headPtr r.toNat)) (st.headPtrAt d s r.toNat),
    .read d s (addrOf st.cfg (.tailPtr r.toNat)) (st.tailPtrAt d s r.toNat)]

theorem viewAt_viewUpdated (st : State) (d : DevId) (s : SubId) (r : RingId) (h t : Word) (evs : List Event) :
    (viewUpdated st d s r h t evs).viewAt d s r = updatedView st.cfg (st.viewAt d s r) h t :=
  State.viewAt_setView_same ..

/-- With no other agent stepping the three lines of `UPDATE_VIEW` follow each other, and the ring is off the list of
those being updated again (R158, R312). -/
theorem exec_updateView_of_pass {d : DevId} {s : SubId} {r : RingId} {st : State} (hgate : viewGate st d s r = .pass ())
    (hquiet : Quiet st) : exec (.updateView d s r) st =
      .next (viewUpdated st d s r (st.headPtrAt d s r.toNat) (st.tailPtrAt d s r.toNat) (viewReads st d s r)) := by
  have hhead : boundary (viewReadHead st d s r) = .next (viewReadHead st d s r) := boundary_nil _ hquiet
  have htail : boundary (viewReadTail (viewReadHead st d s r) d s r) =
      .next (viewReadTail (viewReadHead st d s r) d s r) := boundary_nil _ hquiet
  rw [exec_updateView, execUpdateView, hgate]
  simp only [hhead, htail, andThen_next]
  simp [viewCommit, viewReadTail, viewReadHead, viewUpdated, viewReads, regRead, regValue, State.emit, State.setView,
    State.respond, State.viewAt, State.tailPtrAt, State.headPtrAt]

/-- Settles O29: the view takes the words of the two reads. -/
theorem updateViewTakesSnapshot : Obligations.UpdateViewTakesSnapshot := by
  intro d s r st hquiet hids hready hdepth hbase hfree
  have hgate : viewGate st d s r = .pass () := (viewGate_pass ..).mpr
    ⟨hids, hready, (viewConfigured_iff _).mpr ⟨hdepth, hbase⟩, (viewBusy_eq_false_iff ..).mpr hfree⟩
  exact ⟨_, exec_updateView_of_pass hgate hquiet, rfl, State.viewAt_setView_same ..,
    fun _ _ _ hne => (State.viewAt_setView ..).trans (if_neg hne)⟩

/-! ## An `UPDATE_VIEW` the DMA engine steps into -/

/-- The state between the two reads of an `UPDATE_VIEW` when the DMA engine has advanced the head by `n`, but for the
trace and the note that the update is in progress. -/
def headAdvanced (st : State) (d : DevId) (s : SubId) (r : RingId) (n : Nat) : State :=
  { st.setHeadPtr d s r.toNat (encPtr st.cfg (adv (ringHead st d s r) n (st.viewAt d s r).depth.toNat)) with sched := [] }

/-- The state after that `UPDATE_VIEW`: the head word is the one from before the engine's step. -/
def tornState (st : State) (d : DevId) (s : SubId) (r : RingId) (n : Nat) : State :=
  viewUpdated (headAdvanced st d s r n) d s r (st.headPtrAt d s r.toNat) (st.tailPtrAt d s r.toNat) (viewReads st d s r)

/-- Between its two reads the DMA engine takes one step: the head read is the one before it (R159 (d)). -/
theorem exec_updateView_of_dmaAdv {d : DevId} {s : SubId} {r : RingId} {n : Nat} {st : State}
    (hgate : viewGate st d s r = .pass ()) (hsched : st.sched = [[.dmaAdv d s r n]])
    (hdir : ringDir st.cfg r = .hostProduces) (hen : dmaEnabled st d s r n = true) :
    exec (.updateView d s r) st = .next (tornState st d s r n) := by
  have hen' : dmaEnabled { viewReadHead st d s r with sched := [] } d s r n = true := hen
  have hstep : boundary (viewReadHead st d s r) =
      .next (dmaAdv { viewReadHead st d s r with sched := [] } d s r n) :=
    boundary_cons (viewReadHead st d s r) [.dmaAdv d s r n] [] hsched
  rw [dmaAdv_of_hostProduces hen' hdir] at hstep
  rw [exec_updateView, execUpdateView, hgate]
  simp only [hstep, andThen_next]
  rw [boundary_nil _ rfl, andThen_next]
  simp [viewCommit, viewReadTail, viewReadHead, tornState, viewUpdated, viewReads, headAdvanced, regRead, regValue,
    State.emit, State.setView, State.respond, State.viewAt, State.tailPtrAt, State.headPtrAt, State.setHeadPtr, ringHead]

section
variable (st : State) (d : DevId) (s : SubId) (r : RingId) (n : Nat)

theorem quiet_tornState : Quiet (tornState st d s r n) := rfl

theorem viewAt_tornState : (tornState st d s r n).viewAt d s r =
    updatedView st.cfg (st.viewAt d s r) (st.headPtrAt d s r.toNat) (st.tailPtrAt d s r.toNat) := viewAt_viewUpdated ..

theorem ringHead_tornState :
    ringHead (tornState st d s r n) d s r =
      ringHead (st.setHeadPtr d s r.toNat
        (encPtr st.cfg (adv (ringHead st d s r) n (st.viewAt d s r).depth.toNat))) d s r := rfl

theorem ringTail_tornState : ringTail (tornState st d s r n) d s r = ringTail st d s r := rfl

end

/-- The tests of line 0 pass again after the torn update (R158). -/
theorem viewGate_tornState {st : State} {d : DevId} {s : SubId} {r : RingId} (n : Nat)
    (hgate : viewGate st d s r = .pass ()) : viewGate (tornState st d s r n) d s r = .pass () := by
  obtain ⟨hids, hready, hconf, hfree⟩ := (viewGate_pass ..).mp hgate
  refine (viewGate_pass ..).mpr ⟨hids, hready, ?_, hfree⟩
  rw [viewAt_tornState]
  exact hconf

/-- The occupancy of a valid pair is read back from its word if the ring's depth is below `2^31` (R156). -/
theorem toInt_usedWord {head tail : Ptr} {depth : Nat} (h : validPtrs head tail depth = true) (hdepth : depth < 2 ^ 31) :
    (usedWord head tail depth).toInt = usedInt head tail depth := by
  obtain ⟨_, hhead, htail, _⟩ := (validPtrs_eq_true_iff ..).mp h
  obtain ⟨hlo, hhi⟩ := (validPtrs_iff_usedInt hhead htail).mp h
  rw [usedWord, BitVec.toInt_ofInt, Int.bmod_eq_of_le] <;> omega

/-- The advance of the head that a snapshot counts is the advance the engine made (R158). -/
theorem headDelta_adv {p : Ptr} {n depth : Nat} (hp : p.idx < depth) (hn : n ≤ depth) :
    headDelta (adv p n depth) p depth = n := by
  rw [headDelta, pos_adv n hp]
  push_cast
  rw [Int.emod_sub_emod, add_sub_cancel_left, Int.emod_eq_of_lt (by omega) (by omega), Int.toNat_natCast]

/-- Settles O31: the torn snapshot holds the head before the engine's step; the next one sees the step. -/
theorem tornSnapshotCorrectsItself : Obligations.TornSnapshotCorrectsItself := by
  intro d s r n st hsched hw hready hdepth hfree hdir hen
  obtain ⟨hids, hconf, _, hvalid, hroom⟩ := (dmaEnabled_iff ..).mp hen
  obtain ⟨_, hhead, htail, _⟩ := (validPtrs_eq_true_iff ..).mp hvalid
  have hn : n ≤ (st.viewAt d s r).depth.toNat := by
    have hle := ((validPtrs_iff_usedInt hhead htail).mp hvalid).2
    have := ((le_dmaRoom_iff ..).mp hroom).1 hdir
    omega
  obtain ⟨hhead', -, hused, hvalid'⟩ := dmaAdv_hostProduces_valid hen hdir (by omega) hdepth
  rw [dmaAdv_of_hostProduces hen hdir, ← ringHead_tornState] at hhead'
  have hsmall : (st.viewAt d s r).depth.toNat < 2 ^ 31 :=
    hdepth.trans (Nat.pow_lt_pow_right (by decide) (by omega))
  have htorn := toInt_usedWord hvalid hsmall
  have hfixed := toInt_usedWord hvalid' hsmall
  have hdelta := headDelta_adv hhead hn
  rw [← hhead'] at hused hfixed hdelta
  have hgate : viewGate st d s r = .pass () := (viewGate_pass ..).mpr
    ⟨hids, hready, (viewConfigured_iff _).mpr hconf, (viewBusy_eq_false_iff ..).mpr hfree⟩
  refine ⟨_, _, exec_updateView_of_dmaAdv hgate hsched hdir hen,
    exec_updateView_of_pass (viewGate_tornState n hgate) (quiet_tornState st d s r n), ?_⟩
  rw [viewAt_viewUpdated, viewAt_tornState, ringTail_tornState]
  refine ⟨rfl, rfl, ?torn, rfl, ?corrected, ?counted⟩
  case torn =>
    rw [hused, Int.sub_add_cancel]
    exact htorn
  case corrected => exact (hfixed.trans hused).trans (congrArg (· - (n : Int)) htorn.symm)
  case counted => exact congrArg (_ + BitVec.ofNat 64 ·) hdelta

end Sys2Proof.Machine
end

section
/-! PROOFS. Callbacks and counters (R200, R203), inject and enable (R223, R224), and the overlaps a device being polled
refuses (R311). -/

namespace Sys2Proof.Machine

/-! ## `CB_REG` and `CNT_SHOW` -/

theorem exec_cbReg (d : DevId) (a : Addr) (fn : Word) (ud : DWord) (st : State) :
    exec (.cbReg d a fn ud) st = execCbReg d a fn ud st := rfl

theorem exec_cntShow (d : DevId) (a : Addr) (st : State) : exec (.cntShow d a) st = execCntShow d a st := rfl

/-- An address that is no leaf's status address (R34). -/
theorem leafOf_eq_none {c : Cfg} {a : Addr} (h : ∀ l ∈ c.leaves, l.statusAddr ≠ a) : leafOf c a = none := by
  simpa [leafOf] using h

/-- Settles O43: the slot takes the new callback, and the words are the old one's. -/
theorem cbRegReplacesCallback : Obligations.CbRegReplacesCallback := by
  intro d a fn ud L st hdev hleaf hready hidle
  have hexec : exec (.cbReg d a fn ud) st = .next ((st.setCb d L (if fn = 0#32 then none else some ⟨fn, ud⟩)).respond
      ⟨.ok, callbackWords (st.cbAt d L)⟩) := by
    simp [exec_cbReg, execCbReg, hdev, hleaf, hready, hidle]
  refine ⟨_, hexec, ?_, State.cbAt_setCb_same .., fun _ _ hne => (State.cbAt_setCb ..).trans (if_neg hne)⟩
  cases st.cbAt d L <;> rfl

/-- Settles O45: the display loop runs over all 32 bits. -/
theorem cntShowReportsAndCopies : Obligations.CntShowReportsAndCopies := by
  intro d a L st hdev hleaf hfree
  have hexec : exec (.cntShow d a) st =
      .next ((showCounts st d L (List.range nBit)).respond ⟨.ok, countWords st d L⟩) := by
    have hgo : ¬ ((st.seqAt d).st ≠ .idle ∧ d ∉ st.polling) := by tauto
    simp only [exec_cntShow, execCntShow, hdev, hleaf, if_neg hgo]
    rfl
  refine ⟨_, hexec, ?frame, fun d' L' b hb => ?copied⟩
  case frame =>
    rw [showCounts_eq]
    rfl
  case copied =>
    rw [State.respond_countShownAt, countShownAt_showCounts st d d' L L' b _ hb fun x hx => List.mem_range.mp hx]
    simp [hb]

/-! ## `INJECT_ALL` and `ENABLE_ALL` -/

/-- Settles O46: one write to the inject register, which ORs into the status. -/
theorem injectAllSetsPattern : Obligations.InjectAllSetsPattern := by
  intro d s a L st hids hleaf hready hok
  exact ⟨_, exec_injectAll_of_pass ((leafGate_pass ..).mpr ⟨hids, hleaf, hready, hok⟩), rfl,
    fun _ _ _ => State.statusAt_setStatus ..⟩

/-- The two writes of `ENABLE_ALL` in a row (R224). -/
theorem enableLo_enableHi_eq (st : State) (on : Bool) (d : DevId) (s : SubId) (L : LeafId) :
    enableLo (enableHi st on d s L) on d s L =
      { (st.setEnHi d s L (enableWord on)).setEnLo d s L (enableWord on) with
        resp := rOk
        trace := st.trace ++ [.write d s (addrOf st.cfg (.enHi L)) (enableWord on),
          .write d s (addrOf st.cfg (.enLo L)) (enableWord on)] } := by
  simp [enableLo, enableHi, regWrite, regStore, State.emit, State.respond, State.setEnHi, State.setEnLo]

/-- Settles O47: two writes, each to its own enable register. -/
theorem enableAllWritesHiThenLo : Obligations.EnableAllWritesHiThenLo := by
  intro on d s a L st hquiet hids hleaf hready hok v
  have hgate := (leafGate_pass st d s a L).mpr ⟨hids, hleaf, hready, hok⟩
  exact ⟨_, (exec_enableAll_of_pass hgate hquiet).trans (congrArg _ (enableLo_enableHi_eq ..)), rfl,
    fun _ _ _ => State.enHiAt_setEnHi .., fun _ _ _ => State.enLoAt_setEnLo ..⟩

/-! ## Refusals -/

/-- An address that is no leaf's is an invalid argument of the two gated commands, whatever the subdevice (R222). -/
theorem leafGate_of_no_leaf {st : State} (d : DevId) (s : SubId) {a : Addr} (hleaf : leafOf st.cfg a = none) :
    leafGate st d s a = .answer rInvalid := by
  unfold leafGate
  rw [hleaf]
  exact ite_self _

/-- Settles O44: the address is looked up after the ids alone; readiness is tested before the callback is stored. -/
theorem callbackCommandRefusals : Obligations.CallbackCommandRefusals := by
  intro d s on a fn ud st hdev
  refine ⟨fun hno => ?noLeaf, fun L hleaf hready => ?notReady⟩
  case noLeaf =>
    have hleaf := leafOf_eq_none hno
    have hgate := leafGate_of_no_leaf d s hleaf
    refine ⟨?_, ?_, exec_injectAll_of_answer hgate, exec_enableAll_of_answer hgate⟩
    · simp [exec_cbReg, execCbReg, hdev, hleaf, State.fail, State.respond, rInvalid]
    · simp [exec_cntShow, execCntShow, hdev, hleaf, State.fail, State.respond, rInvalid]
  case notReady => simp [exec_cbReg, execCbReg, hdev, hleaf, hready, State.respond, callbackWords]

theorem devOk_of_idsOk {c : Cfg} {d : DevId} {s : SubId} (h : idsOk c d s = true) : devOk c d = true :=
  (Bool.and_eq_true_iff.mp h).1

theorem exec_poll (f : Bool) (d : DevId) (s : SubId) (st : State) :
    exec (.poll f d s) st = pollWith (runWith (pollNested 15)) f d s st := rfl

/-- P0 refuses a poll of a device that is being polled (R182). -/
theorem pollGate_of_busy {st : State} {d : DevId} {s : SubId} (hids : idsOk st.cfg d s = true)
    (hready : st.readyAt d = true) (hbusy : (st.seqAt d).st ≠ .idle) : pollGate st d s = .refuse (.deviceBusy d) := by
  simp [pollGate, hids, hready, hbusy]

/-- Settles O41: each of the four commands looks at the device's sequencer. -/
theorem busyDeviceIsRefused : Obligations.BusyDeviceIsRefused := by
  intro f d s a fn ud L st hids hready hleaf hbusy
  have hdev := devOk_of_idsOk hids
  refine ⟨?poll, ?cbReg, ?devInit, fun hout => ?cntShow⟩
  case poll => rw [exec_poll, pollWith, pollGate_of_busy hids hready hbusy]
  case cbReg => simp [exec_cbReg, execCbReg, hdev, hleaf, hready, hbusy]
  case devInit => simp [exec_devInit, execDevInit, hdev, hbusy]
  case cntShow => simp [exec_cntShow, execCntShow, hdev, hleaf, hbusy, hout]

end Sys2Proof.Machine
end

section
/-! PROOFS. The log (R240, R243, R246), the micro-steps of other threads (R244, R312), and the failure of a command
(R260). -/

namespace Sys2Proof.Machine

/-! ## `LOG_EVENT` and `LOG_READ` in one go -/

@[simp] theorem clockDrawn_logAt (st : State) (j : Nat) : (clockDrawn st).logAt j = st.logAt j := by
  rw [clockDrawn_eq]
  rfl

/-- The stamp goes to the slot and leaves its payload (R240). -/
theorem logAt_logStamp (st : State) (slot : BitVec 10) (j : Nat) : (logStamp st slot).logAt j =
    if j = slot.toNat then { st.logAt j with ts := clockValue st } else st.logAt j := by
  rw [logStamp, State.logAt_setLog, clockDrawn_logAt]
  split
  case isTrue h => rw [h]
  case isFalse => rfl

/-- The payload goes to the slot and leaves its stamp (R240). -/
theorem logAt_logFill (st : State) (slot : BitVec 10) (p : LogPayload) (j : Nat) : (logFill st slot p).logAt j =
    if j = slot.toNat then { st.logAt j with payload := p } else st.logAt j := by
  rw [logFill, State.respond_logAt, State.logAt_setLog]
  split
  case isTrue h => rw [h]
  case isFalse => rfl

@[simp] theorem logClaim_logAt (st : State) (j : Nat) : (logClaim st).logAt j = st.logAt j := rfl

@[simp] theorem logClaim_logNext (st : State) : (logClaim st).logNext = st.logNext + 1#64 := rfl

@[simp] theorem clockValue_logClaim (st : State) : clockValue (logClaim st) = clockValue st := rfl

@[simp] theorem logStamp_logNext (st : State) (slot : BitVec 10) : (logStamp st slot).logNext = st.logNext := by
  rw [logStamp, State.setLog_logNext, clockDrawn_logNext]

@[simp] theorem logFill_logNext (st : State) (slot : BitVec 10) (p : LogPayload) :
    (logFill st slot p).logNext = st.logNext := rfl

/-- The claim touches neither the queue of the clock nor its counter, so the draw is the one before it (R242, R243). -/
theorem clockDrawn_logClaim (st : State) :
    clockDrawn (logClaim st) = { clockDrawn st with logNext := st.logNext + 1#64, logLock := none } := by
  rw [logClaim_eq, clockDrawn, clockDrawn]
  cases st.clockIn <;> rfl

/-- Settles O49: the slot claimed, stamped and filled is the one `LOG.next` named before. -/
theorem logEventFillsClaimedSlot : Obligations.LogEventFillsClaimedSlot := by
  intro d s r dir head tail data st hquiet hids hdata
  refine ⟨_, exec_logEvent_of_pass dir head tail ((logGate_pass ..).mpr ⟨hdata, hids⟩) hquiet, ?frame, fun j => ?slots⟩
  case frame =>
    rw [logEventDone, logFill, logStamp, clockDrawn_logClaim]
    rfl
  case slots =>
    rw [logEventDone, logAt_logFill, logAt_logStamp, clockValue_logClaim, logClaim_logAt, logSlot_toNat]
    split <;> rfl

/-- Settles O50: the scan picks the wanted slots, and a record's identity word is the sum of its fields. -/
theorem logReadReturnsRecords : Obligations.LogReadReturnsRecords := by
  intro d s filter st hquiet hids halloc slots dirCode record
  refine ⟨_, exec_logRead_of_alloc filter hquiet hids halloc, ?_⟩
  have hslots : (List.range 1024).filter (fun j => logWanted d s filter (st.logAt j)) = slots := by
    refine List.filter_congr fun j _ => ?_
    rw [Bool.eq_iff_iff, logWanted_eq_true, decide_eq_true_iff]
  have hcode : ∀ dir : LogDir, dir.code.toNat = dirCode dir := fun dir => by cases dir <;> rfl
  have hrecord : (fun j => logRecord j (st.logAt j)) = record := by
    funext j
    rw [logRecord, identityWord_eq, hcode]
    rfl
  have hresp : logResponse ((List.range 1024).flatMap (logPick st d s filter)) =
      ⟨.ok, BitVec.ofNat 32 slots.length :: slots.flatMap record⟩ := by
    rw [flatMap_logPick, hslots, hrecord, logResponse, List.length_map, List.flatMap_def]
  rw [hresp, allocDrawn_eq]
  rfl

/-- Settles O51: the failing draw is answered at once; the value and the effect of a draw are cases of its definition. -/
theorem logReadAllocationFailure : Obligations.LogReadAllocationFailure := by
  intro d s filter st hids
  refine ⟨fun halloc => ?fails, fun hnever => ?never, fun b bs hcan hqueue => ?queued⟩
  case fails =>
    have hexec : exec (.logRead d s filter) st = execLogRead d s filter st := rfl
    rw [hexec, execLogRead, if_neg (by simp [hids]), if_pos halloc]
    rfl
  case never => exact ⟨if_pos hnever, if_pos hnever⟩
  case queued => simp [allocValue, allocDrawn, hcan, hqueue]

/-- Settles O52: two allocations less than 1024 apart differ modulo 1024, since 1024 divides the modulus of `LOG.next`. -/
theorem consecutiveSlotsDiffer : Obligations.ConsecutiveSlotsDiffer := by
  intro st i j hij hj
  have hne : (st.logNext + BitVec.ofNat 64 i).toNat % 1024 ≠ (st.logNext + BitVec.ofNat 64 j).toNat % 1024 := by
    simp only [BitVec.toNat_add, BitVec.toNat_ofNat]
    omega
  refine ⟨hne, fun hslot => hne ?_⟩
  have hnat := congrArg BitVec.toNat hslot
  rwa [logSlot_toNat, logSlot_toNat] at hnat

/-! ## Micro-steps of another thread -/

/-- The state a thread with the frames `fs` left over makes its micro-step in: its own response and polls in the place of
the running thread's. -/
def threadView (st : State) (t : Nat) (fs : List Frame) : State :=
  { st with resp := (st.threadAt t).resp, polling := pollsOf fs }

/-- The state after the micro-step, the running thread's response and polls in place again. -/
def threadLeave (st : State) (t : Nat) (fs : List Frame) (out : State × List Frame) : State :=
  { out.1.setThread t ⟨out.2 ++ fs, out.1.resp⟩ with resp := st.resp, polling := st.polling }

@[simp] theorem threadLeave_frames (st : State) (t : Nat) (fs : List Frame) (out : State × List Frame) :
    ((threadLeave st t fs out).threadAt t).frames = out.2 ++ fs := by
  have h : (threadLeave st t fs out).threadAt t = ⟨out.2 ++ fs, out.1.resp⟩ :=
    (State.threadAt_setThread ..).trans (if_pos rfl)
  rw [h]

@[simp] theorem threadLeave_logAt (st : State) (t : Nat) (fs : List Frame) (out : State × List Frame) (j : Nat) :
    (threadLeave st t fs out).logAt j = out.1.logAt j := rfl

@[simp] theorem threadLeave_logNext (st : State) (t : Nat) (fs : List Frame) (out : State × List Frame) :
    (threadLeave st t fs out).logNext = out.1.logNext := rfl

@[simp] theorem threadLeave_resp (st : State) (t : Nat) (fs : List Frame) (out : State × List Frame) :
    (threadLeave st t fs out).resp = st.resp := rfl

@[simp] theorem threadView_logAt (st : State) (t : Nat) (fs : List Frame) (j : Nat) :
    (threadView st t fs).logAt j = st.logAt j := rfl

@[simp] theorem threadView_logNext (st : State) (t : Nat) (fs : List Frame) :
    (threadView st t fs).logNext = st.logNext := rfl

@[simp] theorem clockValue_threadLeave (st : State) (t : Nat) (fs : List Frame) (out : State × List Frame) :
    clockValue (threadLeave st t fs out) = clockValue out.1 := rfl

@[simp] theorem clockValue_threadView (st : State) (t : Nat) (fs : List Frame) :
    clockValue (threadView st t fs) = clockValue st := rfl

theorem threadStep_of_next {st : State} {t : Nat} {f : Frame} {fs : List Frame} {out : State × List Frame}
    (h : frameStep f (threadView st t fs) = .next out) : threadStep t f fs st = .next (threadLeave st t fs out) := by
  have h' : frameStep f { st with resp := (st.threadAt t).resp, polling := pollsOf fs } = .next out := h
  rw [threadStep, h']
  rfl

/-- An idle thread presents a command: the command's first micro-step (R90). -/
theorem agentStep_present {st : State} {t : Nat} {i : Instr} {out : State × List Frame}
    (hidle : (st.threadAt t).frames = []) (h : frameStep (.cmd i) (threadView st t []) = .next out) :
    agentStep (.present t i) st = .next (threadLeave st t [] out) := by
  rw [agentStep, hidle]
  exact threadStep_of_next h

/-- A busy thread goes on with its innermost frame. -/
theorem agentStep_resume {st : State} {t : Nat} {f : Frame} {fs : List Frame} {out : State × List Frame}
    (hframes : (st.threadAt t).frames = f :: fs) (h : frameStep f (threadView st t fs) = .next out) :
    agentStep (.resume t) st = .next (threadLeave st t fs out) := by
  rw [agentStep, hframes]
  exact threadStep_of_next h

/-- Settles O54: the three frames of the thread's `LOG_EVENT` are `E1`, `E2`, `E3`. -/
theorem logEventMicroSteps : Obligations.LogEventMicroSteps := by
  intro d s r dir head tail data n st hids hdata hidle
  have hgate : logGate (threadView st n []) d s r data = .pass () := (logGate_pass ..).mpr ⟨hdata, hids⟩
  have hclaim : frameStep (.cmd (.logEvent d s r dir head tail data)) (threadView st n []) =
      .next (logClaim (threadView st n []), [.logStamp (logSlot (threadView st n []))
        (logPayload d s r dir head tail data)]) := by
    simp only [frameStep, handlerForbids, beginCommand, hgate]
  have hslot : (logSlot (threadView st n [])).toNat = st.logNext.toNat % 1024 := logSlot_toNat _
  have hpresent := agentStep_present hidle hclaim
  generalize logSlot (threadView st n []) = slot at hslot hpresent
  generalize ht : threadLeave st n [] _ = t at hpresent
  have htframes : (t.threadAt n).frames = [.logStamp slot (logPayload d s r dir head tail data)] := by simp [← ht]
  have hstamp := agentStep_resume htframes rfl
  generalize hu : threadLeave t n [] _ = u at hstamp
  have huframes : (u.threadAt n).frames = [.logFill slot (logPayload d s r dir head tail data)] := by simp [← hu]
  have htlog : ∀ j, t.logAt j = st.logAt j := fun j => by simp [← ht]
  have hulog : ∀ j, u.logAt j =
      if j = st.logNext.toNat % 1024 then { st.logAt j with ts := clockValue st } else st.logAt j := fun j => by
    simp [← hu, ← ht, logAt_logStamp, hslot]
  refine ⟨t, u, _, hpresent, hstamp, agentStep_resume huframes rfl, by simp [← ht], htlog, hulog, fun j => ?filled,
    by simp [← hu, ← ht], by simp [← hu, ← ht], threadLeave_frames ..⟩
  case filled =>
    rw [threadLeave_logAt, logAt_logFill, threadView_logAt, hulog, hslot]
    split <;> rfl

/-! ## Overlaps with another thread's `UPDATE_VIEW` -/

/-- A state inside another thread's `UPDATE_VIEW` that began in `st`: what line 0 tests is as it was, the ring is on the
list of those being updated (R312). -/
structure InUpdate (st x : State) (d : DevId) (s : SubId) (r : RingId) : Prop where
  cfg : x.cfg = st.cfg
  devReady : x.devReady = st.devReady
  view : x.view = st.view
  seq : x.seq = st.seq
  updating : x.updating = (d, s, r) :: st.updating

/-- The first line of `UPDATE_VIEW` begins it. -/
theorem inUpdate_viewReadHead (st : State) (n : Nat) (d : DevId) (s : SubId) (r : RingId) :
    InUpdate st (viewReadHead (threadView st n []) d s r) d s r := ⟨rfl, rfl, rfl, rfl, rfl⟩

/-- The second line does not end it. -/
theorem InUpdate.viewReadTail {d : DevId} {s : SubId} {r : RingId} {st x : State} (h : InUpdate st x d s r) (n : Nat) :
    InUpdate st (viewReadTail (threadView x n []) d s r) d s r :=
  ⟨h.cfg, h.devReady, h.view, h.seq, h.updating⟩

/-- Nothing of it changes when the thread's micro-step ends. -/
theorem InUpdate.threadLeave {d : DevId} {s : SubId} {r : RingId} {st : State} {out : State × List Frame}
    (h : InUpdate st out.1 d s r) (y : State) (n : Nat) (fs : List Frame) : InUpdate st (threadLeave y n fs out) d s r :=
  ⟨h.cfg, h.devReady, h.view, h.seq, h.updating⟩

/-- Inside an `UPDATE_VIEW` of the ring, another of the ring, a `RING_CFG` of any ring of the device and a `DEV_INIT` of the
idle device are refused, and `USED` and `RING_DUMP` run (R312). -/
theorem InUpdate.overlaps {d : DevId} {s : SubId} {r : RingId} {st x : State} (h : InUpdate st x d s r)
    (hids : ringIdsOk st.cfg d s r = true) (hready : st.readyAt d = true)
    (hconf : viewConfigured (st.viewAt d s r) = true) :
    exec (.updateView d s r) x = .refused (.ringBusy d) ∧
    (∀ s' r' base depth wpd lock, ringIdsOk st.cfg d s' r' = true →
      exec (.ringCfg d s' r' base depth wpd lock) x = .refused (.ringBusy d)) ∧
    ((st.seqAt d).st = .idle → exec (.devInit d) x = .refused (.ringBusy d)) ∧
    (∃ y, exec (.used d s r) x = .next y) ∧ (∃ y, exec (.ringDump d s r) x = .next y) := by
  have hready' : x.readyAt d = true := by rw [State.readyAt, h.devReady]; exact hready
  have hconf' : viewConfigured (x.viewAt d s r) = true := by rw [State.viewAt, h.view]; exact hconf
  have hseq : x.seqAt d = st.seqAt d := by rw [State.seqAt, h.seq]; rfl
  have hmem : (d, s, r) ∈ x.updating := h.updating ▸ List.mem_cons_self
  have hbusy : deviceUpdating x d = true := (deviceUpdating_eq_true x d).mpr ⟨_, hmem, rfl⟩
  have hdev : devOk st.cfg d = true := decide_eq_true ((ringIdsOk_iff ..).mp hids).1
  rw [← h.cfg] at hids hdev ⊢
  refine ⟨?updateView, fun s' r' base depth wpd lock hids' => ?ringCfg, fun hidle => ?devInit, ⟨_, exec_used_of_ids hids⟩,
    ⟨_, exec_ringDump_of_ids hids⟩⟩
  case updateView =>
    have hgate : viewGate x d s r = .refuse (.ringBusy d) := by
      simp [viewGate, hids, hready', hconf', (viewBusy_eq_true_iff ..).mpr hmem]
    rw [exec_updateView, execUpdateView, hgate]
  case ringCfg => simp [exec_ringCfg, execRingCfg, hids', hready', hbusy]
  case devInit => simp [exec_devInit, execDevInit, hdev, hseq, hidle, hbusy]

/-- A handler's `POLL`, `CB_REG` or `DEV_INIT` on a device its thread is polling is forbidden (R194). -/
theorem handlerForbids_of_mem {polled : List DevId} {d : DevId} (h : d ∈ polled) (f : Bool) (s : SubId) (a fn : Word)
    (ud : DWord) : ∀ i ∈ [Instr.poll f d s, .cbReg d a fn ud, .devInit d], handlerForbids polled i = some d := by
  have hfind : polled.find? (fun d' => decide (d' = d)) = some d := by
    induction polled with
    | nil => cases h
    | cons x xs ih =>
      by_cases hx : x = d
      · simp [hx]
      · simpa [hx] using ih ((List.mem_cons.mp h).resolve_left (Ne.symm hx))
  simp [handlerForbids, hfind]

/-- Settles O42: the first micro-step of an `UPDATE_VIEW` puts its ring on the list of those in progress, the last takes
it off; a handler's command is tested before it runs. -/
theorem overlapsAreRefused : Obligations.OverlapsAreRefused := by
  constructor
  · intro n d s r st hidle hids hready hdepth hbase hfree
    have hconf := (viewConfigured_iff _).mpr ⟨hdepth, hbase⟩
    have hgate : viewGate (threadView st n []) d s r = .pass () :=
      (viewGate_pass ..).mpr ⟨hids, hready, hconf, (viewBusy_eq_false_iff ..).mpr hfree⟩
    have hread : frameStep (.cmd (.updateView d s r)) (threadView st n []) =
        .next (viewReadHead (threadView st n []) d s r, [.viewTail d s r (st.headPtrAt d s r.toNat)]) := by
      simp only [frameStep, handlerForbids, beginCommand, hgate]
      rfl
    have hpresent := agentStep_present hidle hread
    generalize ht : threadLeave st n [] _ = t at hpresent
    have htframes : (t.threadAt n).frames = [.viewTail d s r (st.headPtrAt d s r.toNat)] := by simp [← ht]
    have hin : InUpdate st t d s r := ht ▸ (inUpdate_viewReadHead st n d s r).threadLeave ..
    have htail := agentStep_resume htframes rfl
    generalize hu : threadLeave t n [] _ = u at htail
    have huframes : (u.threadAt n).frames = [.viewCommit d s r (st.headPtrAt d s r.toNat)
        ((threadView t n []).tailPtrAt d s r.toNat)] := by simp [← hu]
    have hin' : InUpdate st u d s r := hu ▸ (hin.viewReadTail n).threadLeave ..
    refine ⟨t, u, _, hpresent, htail, agentStep_resume huframes rfl, ?_, ?_⟩
    · exact (congrArg (List.erase · (d, s, r)) hin'.updating).trans (List.erase_cons_head ..)
    · simp only [List.mem_cons, List.not_mem_nil, or_false, forall_eq_or_imp, forall_eq]
      exact ⟨hin.overlaps hids hready hconf, hin'.overlaps hids hready hconf⟩
  · intro run f d s a fn ud is st hpolled i hi
    have hforbid := handlerForbids_of_mem hpolled f s a fn ud i hi
    exact ⟨by rw [runHandler, hforbid], by rw [frameStep, hforbid]⟩

/-! ## The failure of a command -/

/-- What R260 says of a command that took `st` to `t`: it succeeded, or it answered no words and changed nothing but the
response and the allocation draws. -/
def OkOrUnchanged (st t : State) : Prop :=
  t.resp.status = .ok ∨ t.resp.words = [] ∧ t = { st with resp := t.resp, allocIn := t.allocIn, draws := t.draws }

theorem okOrUnchanged_of_ok {st t : State} (h : t.resp.status = .ok) : OkOrUnchanged st t := .inl h

theorem okOrUnchanged_respond (st : State) {r : Response} (h : r.words = []) : OkOrUnchanged st (st.respond r) :=
  .inr ⟨h, rfl⟩

theorem okOrUnchanged_of_fail {st t : State} {r : Response} (hr : r.words = []) (h : st.fail r = .next t) :
    OkOrUnchanged st t := by
  cases h
  exact okOrUnchanged_respond st hr

/-! ### What the gates answer -/

theorem viewGate_answer_words {st : State} {d : DevId} {s : SubId} {r : RingId} {resp : Response}
    (h : viewGate st d s r = .answer resp) : resp.words = [] := by
  unfold viewGate at h
  split at h
  · cases h; rfl
  split at h
  · cases h; rfl
  split at h
  · cases h; rfl
  split at h <;> cases h

theorem pollGate_answer_words {st : State} {d : DevId} {s : SubId} {resp : Response}
    (h : pollGate st d s = .answer resp) : resp.words = [] := by
  unfold pollGate at h
  split at h
  · cases h; rfl
  split at h
  · cases h; rfl
  split at h <;> cases h

theorem leafGate_answer_words {st : State} {d : DevId} {s : SubId} {a : Addr} {resp : Response}
    (h : leafGate st d s a = .answer resp) : resp.words = [] := by
  unfold leafGate at h
  split at h
  · cases h; rfl
  split at h
  · cases h; rfl
  split at h
  · cases h; rfl
  split at h <;> cases h
  rfl

theorem logGate_answer_words {st : State} {d : DevId} {s : SubId} {r : RingId} {data : List DWord} {resp : Response}
    (h : logGate st d s r data = .answer resp) : resp.words = [] := by
  unfold logGate at h
  split at h
  · cases h; rfl
  split at h <;> cases h
  rfl

/-! ### Command by command -/

theorem execRd_okOrUnchanged {d : DevId} {s : SubId} {a : Addr} {st t : State} (h : execRd d s a st = .next t) :
    OkOrUnchanged st t := by
  unfold execRd at h
  split at h
  · exact okOrUnchanged_of_fail rfl h
  split at h
  · exact okOrUnchanged_of_fail rfl h
  · cases h; exact okOrUnchanged_of_ok rfl

theorem execWr_okOrUnchanged {d : DevId} {s : SubId} {a : Addr} {v : Word} {st t : State}
    (h : execWr d s a v st = .next t) : OkOrUnchanged st t := by
  unfold execWr at h
  split at h
  · exact okOrUnchanged_of_fail rfl h
  split at h
  · exact okOrUnchanged_of_fail rfl h
  · cases h; exact okOrUnchanged_of_ok rfl

theorem execDevInit_okOrUnchanged {d : DevId} {st t : State} (h : execDevInit d st = .next t) : OkOrUnchanged st t := by
  unfold execDevInit at h
  split at h
  · exact okOrUnchanged_of_fail rfl h
  split at h
  · cases h
  split at h
  · cases h
  · cases h; exact okOrUnchanged_of_ok rfl

theorem execRingCfg_okOrUnchanged {d : DevId} {s : SubId} {r : RingId} {base : DWord} {depth : Word} {wpd : BitVec 16}
    {lock : Bool} {st t : State} (h : execRingCfg d s r base depth wpd lock st = .next t) : OkOrUnchanged st t := by
  unfold execRingCfg at h
  split at h
  · exact okOrUnchanged_of_fail rfl h
  split at h
  · cases h; exact okOrUnchanged_of_ok rfl
  split at h
  · cases h
  split at h
  · exact okOrUnchanged_of_fail rfl h
  split at h
  · exact okOrUnchanged_of_fail rfl h
  · cases h; exact okOrUnchanged_of_ok rfl

theorem execUpdateView_okOrUnchanged {d : DevId} {s : SubId} {r : RingId} {st t : State}
    (h : execUpdateView d s r st = .next t) : OkOrUnchanged st t := by
  unfold execUpdateView at h
  split at h
  · next hgate => cases h; exact okOrUnchanged_respond st (viewGate_answer_words hgate)
  · cases h
  · obtain ⟨_, _, h⟩ := (andThen_eq_next _ _ _).mp h
    obtain ⟨_, _, h⟩ := (andThen_eq_next _ _ _).mp h
    cases h
    exact okOrUnchanged_of_ok rfl

theorem execUsed_okOrUnchanged {d : DevId} {s : SubId} {r : RingId} {st t : State} (h : execUsed d s r st = .next t) :
    OkOrUnchanged st t := by
  unfold execUsed at h
  split at h
  · exact okOrUnchanged_of_fail rfl h
  · cases h; exact okOrUnchanged_of_ok rfl

theorem execRingDump_okOrUnchanged {d : DevId} {s : SubId} {r : RingId} {st t : State}
    (h : execRingDump d s r st = .next t) : OkOrUnchanged st t := by
  unfold execRingDump at h
  split at h
  · exact okOrUnchanged_of_fail rfl h
  · cases h; exact okOrUnchanged_of_ok rfl

theorem pollWith_okOrUnchanged {run : Runner} {f : Bool} {d : DevId} {s : SubId} {st t : State}
    (h : pollWith run f d s st = .next t) : OkOrUnchanged st t := by
  unfold pollWith at h
  split at h
  · next hgate => cases h; exact okOrUnchanged_respond st (pollGate_answer_words hgate)
  · cases h
  · obtain ⟨_, _, h⟩ := (andThen_eq_next _ _ _).mp h
    obtain ⟨_, _, h⟩ := (andThen_eq_next _ _ _).mp h
    cases h
    exact okOrUnchanged_of_ok rfl

theorem execCbReg_okOrUnchanged {d : DevId} {a : Addr} {fn : Word} {ud : DWord} {st t : State}
    (h : execCbReg d a fn ud st = .next t) : OkOrUnchanged st t := by
  unfold execCbReg at h
  split at h
  · exact okOrUnchanged_of_fail rfl h
  split at h
  · exact okOrUnchanged_of_fail rfl h
  split at h
  · cases h; exact okOrUnchanged_of_ok rfl
  split at h
  · cases h
  · cases h; exact okOrUnchanged_of_ok rfl

theorem execCntShow_okOrUnchanged {d : DevId} {a : Addr} {st t : State} (h : execCntShow d a st = .next t) :
    OkOrUnchanged st t := by
  unfold execCntShow at h
  split at h
  · exact okOrUnchanged_of_fail rfl h
  split at h
  · exact okOrUnchanged_of_fail rfl h
  split at h
  · cases h
  · cases h; exact okOrUnchanged_of_ok rfl

theorem execInjectAll_okOrUnchanged {d : DevId} {s : SubId} {a : Addr} {st t : State}
    (h : execInjectAll d s a st = .next t) : OkOrUnchanged st t := by
  unfold execInjectAll at h
  split at h
  · next hgate => cases h; exact okOrUnchanged_respond st (leafGate_answer_words hgate)
  · cases h
  · cases h; exact okOrUnchanged_of_ok rfl

theorem execEnableAll_okOrUnchanged {on : Bool} {d : DevId} {s : SubId} {a : Addr} {st t : State}
    (h : execEnableAll on d s a st = .next t) : OkOrUnchanged st t := by
  unfold execEnableAll at h
  split at h
  · next hgate => cases h; exact okOrUnchanged_respond st (leafGate_answer_words hgate)
  · cases h
  · obtain ⟨_, _, h⟩ := (andThen_eq_next _ _ _).mp h
    cases h
    exact okOrUnchanged_of_ok rfl

theorem execLogEvent_okOrUnchanged {d : DevId} {s : SubId} {r : RingId} {dir : LogDir} {head tail : Word}
    {data : List DWord} {st t : State} (h : execLogEvent d s r dir head tail data st = .next t) : OkOrUnchanged st t := by
  unfold execLogEvent at h
  split at h
  · next hgate => cases h; exact okOrUnchanged_respond st (logGate_answer_words hgate)
  · cases h
  · obtain ⟨_, _, h⟩ := (andThen_eq_next _ _ _).mp h
    obtain ⟨_, _, h⟩ := (andThen_eq_next _ _ _).mp h
    cases h
    exact okOrUnchanged_of_ok rfl

/-- A scan that ends answers `ST_OK`, whatever other agents did meanwhile (R246). -/
theorem logScan_status {d : DevId} {s : SubId} {filter : DWord} {js : List Nat} {out : List (List Word)} {st t : State}
    (h : logScan d s filter js out st = .next t) : t.resp.status = .ok := by
  induction js generalizing st out with
  | nil => cases h; rfl
  | cons j js ih =>
    obtain ⟨_, _, h⟩ := (andThen_eq_next _ _ _).mp h
    exact ih h

theorem execLogRead_okOrUnchanged {d : DevId} {s : SubId} {filter : DWord} {st t : State}
    (h : execLogRead d s filter st = .next t) : OkOrUnchanged st t := by
  unfold execLogRead at h
  split at h
  · exact okOrUnchanged_of_fail rfl h
  split at h
  · cases h
    refine .inr ⟨rfl, ?_⟩
    rw [allocDrawn_eq]
    rfl
  · exact okOrUnchanged_of_ok (logScan_status h)

/-- Settles O60, by cases on the command: every answer but `ST_OK` comes from a test at the command's head, or from the
failed draw of `LOG_READ`. -/
theorem failureChangesNothing : Obligations.FailureChangesNothing := by
  intro i st t h hfail
  refine Or.resolve_left (show OkOrUnchanged st t from ?_) hfail
  cases i with
  | rd d s a => exact execRd_okOrUnchanged h
  | wr d s a v => exact execWr_okOrUnchanged h
  | devInit d => exact execDevInit_okOrUnchanged h
  | ringCfg d s r base depth wpd lock => exact execRingCfg_okOrUnchanged h
  | updateView d s r => exact execUpdateView_okOrUnchanged h
  | used d s r => exact execUsed_okOrUnchanged h
  | ringDump d s r => exact execRingDump_okOrUnchanged h
  | poll f d s => exact pollWith_okOrUnchanged h
  | cbReg d a fn ud => exact execCbReg_okOrUnchanged h
  | cntShow d a => exact execCntShow_okOrUnchanged h
  | injectAll d s a => exact execInjectAll_okOrUnchanged h
  | enableAll on d s a => exact execEnableAll_okOrUnchanged h
  | logEvent d s r dir head tail data => exact execLogEvent_okOrUnchanged h
  | logRead d s filter => exact execLogRead_okOrUnchanged h

end Sys2Proof.Machine
end

section
/-! PROOFS. The table walk (R187 to R189): every leaf a complete table promises, none twice, each of the slot's own. -/

namespace Sys2Proof.Machine

/-! ## Complete tables -/

/-- Two words with a common bit meet. -/
theorem and_ne_zero_of_getLsbD {w m : Word} {b : Nat} (hw : w.getLsbD b = true) (hm : m.getLsbD b = true) :
    w &&& m ≠ 0#32 := by
  intro h
  have hb := congrArg (·.getLsbD b) h
  rw [BitVec.getLsbD_and, hw, hm] at hb
  simp at hb

mutual
/-- In a complete body a set bit leads to every leaf (R188). -/
theorem mem_walk_of_complete {c : Cfg} {w : Word} {b : Nat} (hw : w.getLsbD b = true) {L : LeafId} : ∀ body : Body,
    bodyComplete c b body = true → L ∈ bodyLeaves body → L ∈ walk c w body
  | .flat ls, hc, hL => by
    have hmask : (leafDesc c L).shadowMask.getLsbD b = true := List.all_eq_true.mp hc L hL
    exact List.mem_filter.mpr ⟨hL, decide_eq_true (and_ne_zero_of_getLsbD hw hmask)⟩
  | .nested g, hc, hL => mem_walkGroups_of_complete hw g hc hL

/-- The same for a list of groups. -/
theorem mem_walkGroups_of_complete {c : Cfg} {w : Word} {b : Nat} (hw : w.getLsbD b = true) {L : LeafId} : ∀ g : Groups,
    groupsComplete c b g = true → L ∈ groupsLeaves g → L ∈ walkGroups c w g
  | .nil, _, hL => hL
  | .cons submask body rest, hc, hL => by
    simp only [groupsComplete, Bool.and_eq_true] at hc
    obtain ⟨⟨hsub, hbody⟩, hrest⟩ := hc
    rw [walkGroups, if_pos (and_ne_zero_of_getLsbD hw hsub)]
    exact List.mem_append.mpr ((List.mem_append.mp hL).imp (mem_walk_of_complete hw body hbody)
      (mem_walkGroups_of_complete hw rest hrest))
end

/-- An entry of a table is in its list under its bit (R32). -/
theorem mem_entries_of_tableEntry {t : BusTable} {b : Nat} {body : Body} (h : tableEntry t b = some body) :
    (b, body) ∈ t.entries := by
  obtain ⟨e, he, rfl⟩ := Option.map_eq_some_iff.mp h
  have hb : e.1 = b := by simpa using List.find?_some he
  exact hb ▸ List.mem_of_find?_eq_some he

/-- The leaves to service, bit by bit (R188). -/
theorem mem_leavesToService {c : Cfg} {i : Nat} {w : Word} {t : BusTable} (ht : slotTable c i = some t) (L : LeafId) :
    L ∈ leavesToService c i w ↔
      ∃ b body, (b < 32 ∧ w.getLsbD b = true) ∧ tableEntry t b = some body ∧ L ∈ walk c w body := by
  rw [leavesToService, ht]
  simp only [List.mem_flatMap, mem_bitsAsc]
  constructor
  · rintro ⟨b, hb, hL⟩
    cases hentry : tableEntry t b with
    | none => simp [hentry] at hL
    | some body => exact ⟨b, body, hb, hentry, by simpa [hentry] using hL⟩
  · rintro ⟨b, body, hb, hentry, hL⟩
    exact ⟨b, hb, by simpa [hentry] using hL⟩

/-- Settles O32: the walk from the entry of a set bit passes every mask that has the bit. -/
theorem completeTableServesEveryLeaf : Obligations.CompleteTableServesEveryLeaf := by
  intro c i b t body w L ht hcomplete hb hentry hL
  have hbody : bodyComplete c b body = true := List.all_eq_true.mp hcomplete _ (mem_entries_of_tableEntry hentry)
  exact (mem_leavesToService ht L).mpr
    ⟨b, body, ⟨BitVec.lt_of_getLsbD hb, hb⟩, hentry, mem_walk_of_complete hb body hbody hL⟩

/-! ## Each leaf at most once -/

mutual
/-- The paths of a body lead to its leaves, in table order. -/
theorem map_snd_bodyPaths : ∀ body : Body, (bodyPaths body).map Prod.snd = bodyLeaves body
  | .flat ls => by simp [bodyPaths, bodyLeaves, Function.comp_def]
  | .nested g => map_snd_groupPaths g

theorem map_snd_groupPaths : ∀ g : Groups, (groupPaths g).map Prod.snd = groupsLeaves g
  | .nil => rfl
  | .cons submask body rest => by
    rw [groupPaths, groupsLeaves, List.map_append, map_snd_groupPaths rest, ← map_snd_bodyPaths body, List.map_map]
    rfl
end

/-- The walk skips leaves and keeps the table's order. -/
theorem walk_sublist (c : Cfg) (w : Word) (body : Body) : (walk c w body).Sublist (bodyLeaves body) := by
  rw [walk_eq_paths, ← map_snd_bodyPaths]
  exact List.filter_sublist.map _

/-- Where lists put together have no repeats, an element comes from one of them only. -/
theorem eq_of_mem_of_nodup_flatMap {α β : Type} {f : α → List β} {xs : List α} (h : (xs.flatMap f).Nodup) {a a' : α}
    (ha : a ∈ xs) (ha' : a' ∈ xs) {x : β} (hx : x ∈ f a) (hx' : x ∈ f a') : a = a' := by
  by_contra hne
  have hsymm : Std.Symm (Function.onFun List.Disjoint f) := ⟨fun _ _ hd => hd.symm⟩
  exact (List.nodup_flatMap.mp h).2.forall ha ha' hne hx hx'

/-- The service list of a table that holds no leaf twice has no repeats (R189). -/
theorem nodup_leavesToService {c : Cfg} {i : Nat} {t : BusTable} (w : Word) (ht : slotTable c i = some t)
    (h : (tableLeaves t).Nodup) : (leavesToService c i w).Nodup := by
  rw [leavesToService, ht]
  refine List.nodup_flatMap.mpr ⟨fun b _ => ?_, (nodup_bitsAsc w).imp fun {b b'} hne L hL hL' => ?_⟩
  · cases hentry : tableEntry t b with
    | none => exact List.nodup_nil
    | some body =>
      exact ((List.nodup_flatMap.mp h).1 _ (mem_entries_of_tableEntry hentry)).sublist (walk_sublist c w body)
  · cases hentry : tableEntry t b with
    | none => simp [hentry] at hL
    | some body =>
      cases hentry' : tableEntry t b' with
      | none => simp [hentry'] at hL'
      | some body' =>
        simp only [hentry, hentry'] at hL hL'
        exact hne (congrArg Prod.fst (eq_of_mem_of_nodup_flatMap h (mem_entries_of_tableEntry hentry)
          (mem_entries_of_tableEntry hentry') ((walk_sublist c w body).subset hL) ((walk_sublist c w body').subset hL')))

/-- Every leaf serviced is in the slot's table (R188). -/
theorem mem_slotLeaves_of_mem_leavesToService {c : Cfg} {i : Nat} {w : Word} {L : LeafId}
    (h : L ∈ leavesToService c i w) : L ∈ slotLeaves c i := by
  cases ht : slotTable c i with
  | none => simp [leavesToService, ht] at h
  | some t =>
    obtain ⟨b, body, _, hentry, hL⟩ := (mem_leavesToService ht L).mp h
    rw [slotLeaves, ht]
    exact List.mem_flatMap.mpr ⟨_, mem_entries_of_tableEntry hentry, (walk_sublist c w body).subset hL⟩

/-- On a well-formed configuration the slot of a leaf is the one whose table holds it (R7, R34). -/
theorem slotOf_of_mem_slotLeaves {c : Cfg} (hwf : cfgWf c = true) {i : Nat} (hi : i < 16) {L : LeafId}
    (hL : L ∈ slotLeaves c i) : slotOf c L = some i := by
  obtain ⟨hnodup, _⟩ := placed_of_cfgWf hwf
  cases hslot : slotOf c L with
  | none => simpa [hL] using List.find?_eq_none.mp hslot i (List.mem_range.mpr hi)
  | some j =>
    have hj : L ∈ slotLeaves c j := by simpa using List.find?_some hslot
    exact congrArg some (eq_of_mem_of_nodup_flatMap hnodup (List.mem_of_find?_eq_some hslot) (List.mem_range.mpr hi) hj hL)

/-- Settles O33: the list by the walk's paths; no repeats because the tables hold each leaf once. -/
theorem eachLeafServicedAtMostOnce : Obligations.EachLeafServicedAtMostOnce := by
  refine ⟨fun c i w => ?paths, fun c i w hwf hi => ⟨?nodup, fun L hL => ⟨?slot, ?leaf⟩⟩⟩
  case paths =>
    rw [leavesToService]
    cases slotTable c i with
    | none => rfl
    | some t =>
      refine congrArg (List.flatMap · (bitsAsc w)) (funext fun b => ?_)
      cases tableEntry t b with
      | none => rfl
      | some body => exact walk_eq_paths c w body
  case nodup =>
    cases ht : slotTable c i with
    | none => simp [leavesToService, ht]
    | some t =>
      have hslot : (slotLeaves c i).Nodup :=
        (List.nodup_flatMap.mp (placed_of_cfgWf hwf).1).1 i (List.mem_range.mpr hi)
      rw [slotLeaves, ht] at hslot
      exact nodup_leavesToService w ht hslot
  case slot => exact slotOf_of_mem_slotLeaves hwf hi (mem_slotLeaves_of_mem_leavesToService hL)
  case leaf =>
    exact ((placed_of_cfgWf hwf).2 L).mp
      (List.mem_flatMap.mpr ⟨i, List.mem_range.mpr hi, mem_slotLeaves_of_mem_leavesToService hL⟩)

end Sys2Proof.Machine
end

section
/-! PROOFS. The poll cycle with no callbacks and no other agent (R180 to R192, R196): what has been polled so far, and what
each micro-step adds to it. -/

namespace Sys2Proof.Machine

/-! ## The callback step -/

/-- No message is due for a leaf without a callback, nor for a zero status where `CB_ON_ZERO` is false (R192). -/
theorem leafMessage_eq_none {st : State} {d : DevId} {L : LeafId} {raw : Word}
    (h : st.cbAt d L = none ∨ (raw = 0#32 ∧ st.cfg.cbOnZero = false)) : leafMessage st d L raw = none := by
  unfold leafMessage
  rcases h with h | ⟨hraw, hzero⟩
  · rw [h]
  · cases st.cbAt d L with
    | none => rfl
    | some cb => simp [hraw, hzero]

theorem leafCallback_of_no_message {run : Runner} {st : State} {d : DevId} {L : LeafId} {raw : Word}
    (h : leafMessage st d L raw = none) : leafCallback run d L raw st = .next st := by
  rw [leafCallback, h]

theorem leafCallback_of_message {run : Runner} {st : State} {d : DevId} {L : LeafId} {raw : Word} {m : DispatchMsg}
    (h : leafMessage st d L raw = some m) (hquiet : Quiet st) :
    leafCallback run d L raw st = runHandler run (handlerCommands st.cfg m) (st.emit (.dispatch m)) := by
  have hb : boundary (st.emit (.dispatch m)) = .next (st.emit (.dispatch m)) := boundary_nil _ hquiet
  rw [leafCallback, h]
  simp only [hb, andThen_next]

/-- Settles O35: the message is due, or it is not. -/
theorem dispatchMessageIsTheRules : Obligations.DispatchMessageIsTheRules := by
  refine fun st d L raw run => ⟨fun h => leafCallback_of_no_message (leafMessage_eq_none h),
    fun fn ud hcb hdue hquiet => leafCallback_of_message ?_ hquiet⟩
  simp [leafMessage, hcb, hdue]

/-! ## The entry of a poll -/

theorem pollWith_of_answer {run : Runner} {f : Bool} {d : DevId} {s : SubId} {st : State} {r : Response}
    (h : pollGate st d s = .answer r) : pollWith run f d s st = .next (st.respond r) := by
  rw [pollWith, h]

/-- Settles O37: the three tests of P0, then the cycle. -/
theorem pollEntryTests : Obligations.PollEntryTests := by
  intro f d s st
  refine ⟨fun hids => ?outOfRange, fun hids hready => ?notReady, fun hids hready hbusy => ?busy,
    fun hids hready hidle => ⟨?cycle, State.seqAt_setSeq_same ..⟩⟩
  case outOfRange => exact (exec_poll ..).trans (pollWith_of_answer (if_pos hids))
  case notReady =>
    have hgate : pollGate st d s = .answer rOk := by simp [pollGate, hids, hready]
    exact (exec_poll ..).trans (pollWith_of_answer hgate)
  case busy => rw [exec_poll, pollWith, pollGate_of_busy hids hready hbusy]
  case cycle =>
    rw [exec_poll, pollWith, (pollGate_pass ..).mpr ⟨hids, hready, hidle⟩]
    rfl

/-! ## What a poll has done so far -/

/-- `x` with the fields a poll writes as they are in `st`. -/
def forgetPoll (st x : State) : State :=
  { x with shadowMsk := st.shadowMsk, count := st.count, seq := st.seq, trace := st.trace, polling := st.polling,
           resp := st.resp }

/-- Between P1 and the end of a poll of device `d`, subdevice `s`, that began in `st`: the masks of the subdevice read as
`msk` says, the leaves `visited` have been counted, the transport has shown `evs`, and nothing else has changed but the
device's own sequencer, which still holds what P0 and P1 latched. -/
structure InPoll (st : State) (f : Bool) (d : DevId) (s : SubId) (msk : Nat → Word) (visited : List LeafId)
    (evs : List Event) (x : State) : Prop where
  frame : forgetPoll st x = st
  sub : (x.seqAt d).sub = s
  force : (x.seqAt d).force = f
  global : (x.seqAt d).g = latchedGlobal st f d s
  others : ∀ d', d' ≠ d → x.seqAt d' = st.seqAt d'
  masks : ∀ d' s' i, x.shadowMskAt d' s' i = if d' = d ∧ s' = s then msk i else st.shadowMskAt d' s' i
  counts : ∀ d' L b, b < 32 → x.countAt d' L b =
    if d' = d ∧ (st.statusAt d s L).getLsbD b = true then st.countAt d L b + BitVec.ofNat 32 (visited.count L)
    else st.countAt d' L b
  trace : x.trace = st.trace ++ evs

theorem forgetPoll_self (st : State) : forgetPoll st st = st := rfl

theorem forgetPoll_setSeq (st x : State) (d : DevId) (q : Seq) : forgetPoll st (x.setSeq d q) = forgetPoll st x := rfl

theorem forgetPoll_emit (st x : State) (e : Event) : forgetPoll st (x.emit e) = forgetPoll st x := rfl

theorem forgetPoll_setPolling (st x : State) (ds : List DevId) : forgetPoll st (x.setPolling ds) = forgetPoll st x := rfl

section
variable {st x : State} {f : Bool} {d : DevId} {s : SubId} {msk : Nat → Word} {visited : List LeafId} {evs : List Event}

theorem InPoll.cfg (h : InPoll st f d s msk visited evs x) : x.cfg = st.cfg := by rw [← h.frame]; rfl

theorem InPoll.sched (h : InPoll st f d s msk visited evs x) : x.sched = st.sched := by rw [← h.frame]; rfl

theorem InPoll.cbAt (h : InPoll st f d s msk visited evs x) (d' : DevId) (L : LeafId) : x.cbAt d' L = st.cbAt d' L := by
  rw [← h.frame]; rfl

theorem InPoll.statusAt (h : InPoll st f d s msk visited evs x) (d' : DevId) (s' : SubId) (L : LeafId) :
    x.statusAt d' s' L = st.statusAt d' s' L := by rw [← h.frame]; rfl

/-- The shadow words do not depend on anything a poll writes (R38). -/
theorem InPoll.shadowIntAt (h : InPoll st f d s msk visited evs x) (d' : DevId) (s' : SubId) (i : Nat) :
    shadowIntAt x d' s' i = shadowIntAt st d' s' i := by rw [← h.frame]; rfl

/-- The state in which `POLL` returns (R182). -/
theorem InPoll.returned (h : InPoll st f d s msk visited evs x) :
    (x.setPolling st.polling).respond rOk =
      { st with shadowMsk := x.shadowMsk, count := x.count, seq := x.seq, resp := ⟨.ok, []⟩,
                trace := st.trace ++ evs } :=
  calc (x.setPolling st.polling).respond rOk
      = { forgetPoll st x with shadowMsk := x.shadowMsk, count := x.count, seq := x.seq, resp := ⟨.ok, []⟩,
                               trace := x.trace } := rfl
    _ = _ := by rw [h.frame, h.trace]

theorem InPoll.leafGated (h : InPoll st f d s msk visited evs x) (L : LeafId) :
    leafGated x d L = (st.cfg.secGatesDispatch && !(leafOk st.cfg d s L)) := by
  rw [Machine.leafGated, h.cfg, h.sub]

/-- What a micro-step may write in the sequencer and keep what P0 and P1 latched. -/
theorem InPoll.setSeq (h : InPoll st f d s msk visited evs x) {q : Seq}
    (hq : q.sub = (x.seqAt d).sub ∧ q.force = (x.seqAt d).force ∧ q.g = (x.seqAt d).g) :
    InPoll st f d s msk visited evs (x.setSeq d q) where
  frame := h.frame
  sub := by rw [State.seqAt_setSeq_same, hq.1, h.sub]
  force := by rw [State.seqAt_setSeq_same, hq.2.1, h.force]
  global := by rw [State.seqAt_setSeq_same, hq.2.2, h.global]
  others d' hd' := by rw [State.seqAt_setSeq, if_neg hd', h.others d' hd']
  masks := h.masks
  counts := h.counts
  trace := h.trace

/-- A read of the transport adds its access. -/
theorem InPoll.emit (h : InPoll st f d s msk visited evs x) (e : Event) :
    InPoll st f d s msk visited (evs ++ [e]) (x.emit e) where
  frame := h.frame
  sub := h.sub
  force := h.force
  global := h.global
  others := h.others
  masks := h.masks
  counts := h.counts
  trace := by rw [State.emit_trace, h.trace, List.append_assoc]

/-- A write of a mask of the subdevice. -/
theorem InPoll.setShadowMsk (h : InPoll st f d s msk visited evs x) (i : Nat) (v : Word) :
    InPoll st f d s (Function.update msk i v) visited evs (x.setShadowMsk d s i v) where
  frame := h.frame
  sub := h.sub
  force := h.force
  global := h.global
  others := h.others
  masks d' s' j := by
    rw [State.shadowMskAt_setShadowMsk, h.masks, Function.update_apply]
    by_cases hds : d' = d ∧ s' = s
    · simp [hds.1, hds.2]
    · rw [if_neg hds, if_neg hds, if_neg fun hij => hds ⟨hij.1, hij.2.1⟩]
  counts := h.counts
  trace := h.trace

/-- A micro-step that writes a mask through the transport and moves the sequencer on. -/
theorem InPoll.writeMask (h : InPoll st f d s msk visited evs x) (i : Nat) (v : Word) {q : Seq}
    (hq : q.sub = (x.seqAt d).sub ∧ q.force = (x.seqAt d).force ∧ q.g = (x.seqAt d).g) :
    InPoll st f d s (Function.update msk i v) visited (evs ++ [.write d s (addrOf st.cfg (.shadowMsk i)) v])
      ((regWrite x d (x.seqAt d).sub (.shadowMsk i) v).setSeq d q) := by
  rw [h.sub, regWrite, h.cfg]
  exact ((h.setShadowMsk i v).emit _).setSeq hq

/-- P3 (R186). -/
theorem InPoll.serviceMask (h : InPoll st f d s msk visited evs x) (i : Nat) :
    InPoll st f d s (Function.update msk i ones) visited (evs ++ [.write d s (addrOf st.cfg (.shadowMsk i)) ones])
      (serviceMask x d i) := h.writeMask i ones ⟨rfl, rfl, rfl⟩

/-- P6 (R192). -/
theorem InPoll.serviceUnmask (h : InPoll st f d s msk visited evs x) (i : Nat) :
    InPoll st f d s (Function.update msk i 0#32) visited (evs ++ [.write d s (addrOf st.cfg (.shadowMsk i)) 0#32])
      (serviceUnmask x d i) := h.writeMask i 0#32 ⟨rfl, rfl, rfl⟩

/-- P4: the shadow word read is the one before the poll (R186). -/
theorem InPoll.serviceLatch (h : InPoll st f d s msk visited evs x) (i : Nat) :
    InPoll st f d s msk visited (evs ++ [.read d s (addrOf st.cfg (.shadowInt i)) (Machine.shadowIntAt st d s i)])
      (serviceLatch x d i) := by
  rw [Machine.serviceLatch, regRead, regValue, h.sub, h.cfg, h.shadowIntAt]
  exact (h.emit _).setSeq ⟨h.sub.symm, rfl, rfl⟩

/-- P4: the leaves found are those of the latched word (R188). -/
theorem InPoll.todo_serviceLatch (h : InPoll st f d s msk visited evs x) (i : Nat) :
    ((Machine.serviceLatch x d i).seqAt d).todo = leavesToService st.cfg i (latchedWord st f d s i) := by
  rw [Machine.serviceLatch, State.seqAt_setSeq_same, regValue, h.cfg, h.force, h.sub, h.shadowIntAt]
  rfl

theorem InPoll.leafPop (h : InPoll st f d s msk visited evs x) (rest : List LeafId) :
    InPoll st f d s msk visited evs (leafPop x d rest) := h.setSeq ⟨rfl, rfl, rfl⟩

/-- P5: a leaf is read and counted (R190, R191). -/
theorem InPoll.leafRead (h : InPoll st f d s msk visited evs x) (L : LeafId) :
    InPoll st f d s msk (visited ++ [L]) (evs ++ [.read d s (addrOf st.cfg (.status L)) (st.statusAt d s L)])
      (leafRead x d L) := by
  have hraw : leafRaw x d L = st.statusAt d s L := by rw [leafRaw, h.sub, h.statusAt]
  exact {
    frame := by rw [leafRead_eq]; exact h.frame
    sub := by rw [leafRead_eq]; exact h.sub
    force := by rw [leafRead_eq]; exact h.force
    global := by rw [leafRead_eq]; exact h.global
    others := fun d' hd' => by rw [leafRead_eq]; exact h.others d' hd'
    masks := fun d' s' i => by rw [leafRead_eq]; exact h.masks d' s' i
    counts := fun d' L' b hb => by
      rw [countAt_leafRead _ _ _ _ _ hb, h.counts _ _ _ hb, hraw, List.count_append, List.count_singleton]
      by_cases hL : L' = L
      · subst hL
        by_cases hset : d' = d ∧ (st.statusAt d s L').getLsbD b = true
        · simp [hset.1, hset.2, BitVec.ofNat_add, BitVec.add_assoc]
        · simp [hset]
      · simp [hL, Ne.symm hL]
    trace := by rw [leafRead_eq, h.sub, h.cfg, hraw, h.trace, List.append_assoc] }

end

/-! ## The service of leaves and slots -/

/-- The leaf's status is read: leaf service is not gated, or the leaf passes the check (R190). -/
def leafVisited (st : State) (d : DevId) (s : SubId) (L : LeafId) : Bool :=
  !(st.cfg.secGatesDispatch && !(leafOk st.cfg d s L))

theorem visitedLeaves_eq (st : State) (f : Bool) (d : DevId) (s : SubId) (i : Nat) :
    visitedLeaves st f d s i = (leavesToService st.cfg i (latchedWord st f d s i)).filter (leafVisited st d s) := rfl

/-- The access of a leaf's service (R190). -/
def statusRead (st : State) (d : DevId) (s : SubId) (L : LeafId) : Event :=
  .read d s (addrOf st.cfg (.status L)) (st.statusAt d s L)

theorem slotTrace_eq (st : State) (d : DevId) (s : SubId) (i : Nat) (w : Word) (leaves : List LeafId) :
    slotTrace st d s i w leaves =
      [.write d s (addrOf st.cfg (.shadowMsk i)) ones, .read d s (addrOf st.cfg (.shadowInt i)) w] ++
        leaves.map (statusRead st d s) ++ [.write d s (addrOf st.cfg (.shadowMsk i)) 0#32] := rfl

/-- The mask registers after the listed slots were serviced (R192). -/
def servicedMasks (msk : Nat → Word) (slots : List Nat) (i : Nat) : Word := if i ∈ slots then 0#32 else msk i

theorem servicedMasks_nil (msk : Nat → Word) : servicedMasks msk [] = msk := rfl

theorem servicedMasks_cons (msk : Nat → Word) (i : Nat) (slots : List Nat) :
    servicedMasks (Function.update msk i 0#32) slots = servicedMasks msk (i :: slots) := by
  funext j
  rw [servicedMasks, servicedMasks, Function.update_apply]
  by_cases hj : j = i
  · simp [hj]
  · simp [hj]

section
variable {st x : State} {f : Bool} {d : DevId} {s : SubId} {msk : Nat → Word} {visited : List LeafId} {evs : List Event}

theorem InPoll.boundary (h : InPoll st f d s msk visited evs x) (hquiet : Quiet st) :
    Machine.boundary x = .next x := boundary_nil x (h.sched.trans hquiet)

/-- P5 without callbacks: each leaf that is not gated is read and counted. -/
theorem InPoll.serviceLeaves (hquiet : Quiet st) (hcb : NoCallbacks st d) (run : Runner) (ls : List LeafId)
    (h : InPoll st f d s msk visited evs x) :
    ∃ y, serviceLeaves run d ls x = .next y ∧
      InPoll st f d s msk (visited ++ ls.filter (leafVisited st d s))
        (evs ++ (ls.filter (leafVisited st d s)).map (statusRead st d s)) y := by
  induction ls generalizing x visited evs with
  | nil => exact ⟨x, rfl, by simpa using h⟩
  | cons L rest ih =>
    have hpop := h.leafPop rest
    have hvisited : leafVisited st d s L = !(Machine.leafGated x d L) := congrArg Bool.not (h.leafGated L).symm
    rw [Machine.serviceLeaves, List.filter_cons, hvisited]
    cases Machine.leafGated x d L with
    | true => exact ih hpop
    | false =>
      have hread := hpop.leafRead L
      have hnone : leafMessage (Machine.leafRead (Machine.leafPop x d rest) d L) d L (leafRaw x d L) = none :=
        leafMessage_eq_none (.inl ((hread.cbAt d L).trans (hcb L)))
      obtain ⟨y, hy, hpoll⟩ := ih hread
      refine ⟨y, ?_, by simpa [statusRead] using hpoll⟩
      simpa [hread.boundary hquiet, leafCallback_of_no_message hnone] using hy

/-- The service of a slot without callbacks: P3 to P6 (R186 to R192). -/
theorem InPoll.serviceSlot (hquiet : Quiet st) (hcb : NoCallbacks st d) (run : Runner) (i : Nat)
    (h : InPoll st f d s msk visited evs x) :
    ∃ y, serviceSlot run d i x = .next y ∧
      InPoll st f d s (Function.update msk i 0#32) (visited ++ visitedLeaves st f d s i)
        (evs ++ slotTrace st d s i (Machine.shadowIntAt st d s i) (visitedLeaves st f d s i)) y := by
  have hmask := h.serviceMask i
  have hlatch := hmask.serviceLatch i
  obtain ⟨z, hz, hleaves⟩ := hlatch.serviceLeaves hquiet hcb run (leavesToService st.cfg i (latchedWord st f d s i))
  have hunmask := hleaves.serviceUnmask i
  refine ⟨Machine.serviceUnmask z d i, ?_, ?_⟩
  · simp only [Machine.serviceSlot, hmask.boundary hquiet, andThen_next, hlatch.boundary hquiet,
      hmask.todo_serviceLatch, hz, hunmask.boundary hquiet]
  · rw [Function.update_idem] at hunmask
    simpa [slotTrace_eq, visitedLeaves_eq] using hunmask

/-- P2 without callbacks: the slots of the global word are serviced in order, then the sequencer is `IDLE` (R185). -/
theorem InPoll.scanSlots (hquiet : Quiet st) (hcb : NoCallbacks st d) (run : Runner) (is : List Nat)
    (h : InPoll st f d s msk visited evs x) :
    let slots := is.filter (fun i => (latchedGlobal st f d s).getLsbD i)
    ∃ y, scanSlots run d is x = .next y ∧ (y.seqAt d).st = .idle ∧
      InPoll st f d s (servicedMasks msk slots) (visited ++ slots.flatMap (visitedLeaves st f d s))
        (evs ++ slots.flatMap (fun i =>
          slotTrace st d s i (Machine.shadowIntAt st d s i) (visitedLeaves st f d s i))) y := by
  induction is generalizing x msk visited evs with
  | nil =>
    have hidle : ((pollClose x d).seqAt d).st = .idle := by rw [pollClose, State.seqAt_setSeq_same]
    have hclose : InPoll st f d s msk visited evs (pollClose x d) := h.setSeq ⟨rfl, rfl, rfl⟩
    exact ⟨pollClose x d, rfl, hidle, by simpa [servicedMasks_nil] using hclose⟩
  | cons i is ih =>
    rw [Machine.scanSlots, h.global, List.filter_cons]
    cases (latchedGlobal st f d s).getLsbD i with
    | false => exact ih (h.setSeq ⟨rfl, rfl, rfl⟩)
    | true =>
      obtain ⟨z, hz, hslot⟩ := h.serviceSlot hquiet hcb run i
      obtain ⟨y, hy, hidle, hpoll⟩ := ih hslot
      refine ⟨y, by simpa [hz] using hy, hidle, ?_⟩
      simpa [servicedMasks_cons] using hpoll

end

/-! ## A whole poll -/

/-- The state P0 leaves (R182). -/
def pollStart (st : State) (f : Bool) (d : DevId) (s : SubId) : State :=
  (pollOpen st d s f).setPolling (d :: st.polling)

theorem seqAt_pollStart (st : State) (f : Bool) (d : DevId) (s : SubId) :
    (pollStart st f d s).seqAt d = { Seq.reset with st := .globalCheck, sub := s, force := f } :=
  State.seqAt_setSeq_same st d { Seq.reset with st := .globalCheck, sub := s, force := f }

theorem seqAt_pollStart_other (st : State) (f : Bool) {d d' : DevId} (hd : d' ≠ d) (s : SubId) :
    (pollStart st f d s).seqAt d' = st.seqAt d' :=
  (State.seqAt_setSeq st d d' { Seq.reset with st := .globalCheck, sub := s, force := f }).trans (if_neg hd)

/-- Past its entry tests `POLL` is the poll cycle (R182). -/
theorem exec_poll_of_pass {f : Bool} {d : DevId} {s : SubId} {st y : State} (hquiet : Quiet st)
    (hgate : pollGate st d s = .pass ())
    (hcycle : pollCycle (runWith (pollNested 15)) d (pollStart st f d s) = .next y) :
    exec (.poll f d s) st = .next ((y.setPolling st.polling).respond rOk) := by
  have hb : boundary (pollStart st f d s) = .next (pollStart st f d s) := boundary_nil _ hquiet
  rw [exec_poll, pollWith, hgate]
  change andThen (boundary (pollStart st f d s)) _ = _
  rw [hb, andThen_next, hcycle, andThen_next]

/-- P1: the global word is read once (R183), then the poll ends (R184) or has latched it. -/
theorem pollGlobal_pollStart (st : State) (f : Bool) (d : DevId) (s : SubId) :
    pollGlobal (pollStart st f d s) d =
      ((pollStart st f d s).emit (.read d s (addrOf st.cfg .glbShadow) (glbShadowAt st d s))).setSeq d
        (if (glbShadowAt st d s).setWidth 16 = 0#16 ∧ f = false then { Seq.reset with sub := s, force := f }
         else { Seq.reset with st := .shadowWordScan, sub := s, force := f, g := latchedGlobal st f d s }) := by
  rw [pollGlobal, seqAt_pollStart]
  rfl

/-- P1 ends the poll when the word is zero and `force` is clear (R184). -/
theorem pollGlobal_idle_iff (st : State) (f : Bool) (d : DevId) (s : SubId) :
    ((pollGlobal (pollStart st f d s) d).seqAt d).st = .idle ↔
      (glbShadowAt st d s).setWidth 16 = 0#16 ∧ f = false := by
  rw [pollGlobal_pollStart, State.seqAt_setSeq_same]
  split
  next h => exact iff_of_true rfl h
  next h => exact iff_of_false (by simp) h

/-- The global word is read and latched: nothing but the sequencer and the trace has changed. -/
theorem inPoll_latched (st : State) {f : Bool} {d : DevId} {s : SubId} {q : Seq}
    (hq : q.sub = s ∧ q.force = f ∧ q.g = latchedGlobal st f d s) (e : Event) :
    InPoll st f d s (st.shadowMskAt d s) [] [e] (((pollStart st f d s).emit e).setSeq d q) where
  frame := by rw [forgetPoll_setSeq, forgetPoll_emit, pollStart, forgetPoll_setPolling, pollOpen, forgetPoll_setSeq,
    forgetPoll_self]
  sub := by rw [State.seqAt_setSeq_same, hq.1]
  force := by rw [State.seqAt_setSeq_same, hq.2.1]
  global := by rw [State.seqAt_setSeq_same, hq.2.2]
  others d' hd' := by rw [State.seqAt_setSeq, if_neg hd', State.emit_seqAt, seqAt_pollStart_other st f hd']
  masks d' s' i := by
    by_cases hds : d' = d ∧ s' = s
    · simp [pollStart, pollOpen, hds.1, hds.2]
    · simp [pollStart, pollOpen, hds]
  counts d' L b _ := by
    by_cases hd : d' = d
    · simp [pollStart, pollOpen, hd]
    · simp [pollStart, pollOpen, hd]
  trace := rfl

theorem inPoll_pollGlobal (st : State) (f : Bool) (d : DevId) (s : SubId) :
    InPoll st f d s (st.shadowMskAt d s) [] [.read d s (addrOf st.cfg .glbShadow) (glbShadowAt st d s)]
      (pollGlobal (pollStart st f d s) d) := by
  rw [pollGlobal_pollStart]
  refine inPoll_latched st ?_ _
  by_cases h : (glbShadowAt st d s).setWidth 16 = 0#16 ∧ f = false
  case pos =>
    rw [if_pos h, latchedGlobal, h.1, h.2]
    exact ⟨rfl, rfl, rfl⟩
  case neg =>
    rw [if_neg h]
    exact ⟨rfl, rfl, rfl⟩

/-- P1 to the return without callbacks (R180). -/
theorem pollCycle_without_callbacks {st : State} {f : Bool} {d : DevId} {s : SubId} (hquiet : Quiet st)
    (hcb : NoCallbacks st d) (run : Runner) :
    let slots := setSlots (latchedGlobal st f d s)
    ∃ y, pollCycle run d (pollStart st f d s) = .next y ∧ (y.seqAt d).st = .idle ∧
      InPoll st f d s (servicedMasks (st.shadowMskAt d s) slots) (slots.flatMap (visitedLeaves st f d s))
        (.read d s (addrOf st.cfg .glbShadow) (glbShadowAt st d s) ::
          slots.flatMap (fun i => slotTrace st d s i (shadowIntAt st d s i) (visitedLeaves st f d s i))) y := by
  have hglobal := inPoll_pollGlobal st f d s
  by_cases hidle : ((pollGlobal (pollStart st f d s) d).seqAt d).st = .idle
  case pos =>
    obtain ⟨hzero, rfl⟩ := (pollGlobal_idle_iff ..).mp hidle
    have hslots : setSlots (latchedGlobal st false d s) = [] := by simp [setSlots, latchedGlobal, hzero]
    refine ⟨pollGlobal (pollStart st false d s) d, if_pos hidle, hidle, ?_⟩
    rw [hslots]
    exact hglobal
  case neg =>
    have hb := hglobal.boundary hquiet
    obtain ⟨y, hy, hdone, hpoll⟩ := hglobal.scanSlots hquiet hcb run (List.range nSlot)
    refine ⟨y, ?_, hdone, hpoll⟩
    rw [pollCycle, if_neg hidle, hb, andThen_next, hy]

/-- Settles O38: the invariant of the poll at its end. -/
theorem pollWithoutCallbacks : Obligations.PollWithoutCallbacks := by
  intro f d s st hquiet hids hready hidle hcb
  obtain ⟨y, hcycle, hdone, hpoll⟩ := pollCycle_without_callbacks hquiet hcb (runWith (pollNested 15))
  refine ⟨_, exec_poll_of_pass hquiet ((pollGate_pass ..).mpr ⟨hids, hready, hidle⟩) hcycle, ?frame, ?masks,
    hpoll.counts, hdone, hpoll.others⟩
  case frame => exact hpoll.returned
  case masks =>
    intro d' s' i
    have hmask : ((y.setPolling st.polling).respond rOk).shadowMskAt d' s' i = _ := hpoll.masks d' s' i
    rw [hmask, servicedMasks]
    by_cases hds : d' = d ∧ s' = s
    · simp [hds.1, hds.2]
    · rw [if_neg hds, if_neg fun h => hds ⟨h.1, h.2.1⟩]

/-- Settles O36: P1 ends the poll (R184). -/
theorem idlePollIsOneRead : Obligations.IdlePollIsOneRead := by
  intro d s st hquiet hids hready hidle hzero
  have hend := (pollGlobal_idle_iff st false d s).mpr ⟨by rw [hzero]; rfl, rfl⟩
  have hpoll := inPoll_pollGlobal st false d s
  have hmasks : (pollGlobal (pollStart st false d s) d).shadowMsk = st.shadowMsk := by rw [pollGlobal_pollStart]; rfl
  have hcounts : (pollGlobal (pollStart st false d s) d).count = st.count := by rw [pollGlobal_pollStart]; rfl
  refine ⟨_, exec_poll_of_pass hquiet ((pollGate_pass ..).mpr ⟨hids, hready, hidle⟩) (if_pos hend), ?frame, hend,
    hpoll.others⟩
  case frame =>
    have hreturned := hpoll.returned
    rw [hmasks, hcounts, hzero] at hreturned
    exact hreturned

/-! ## The number of accesses -/

theorem length_visitedLeaves_le {st : State} (hwf : cfgWf st.cfg = true) (f : Bool) (d : DevId) (s : SubId) {i : Nat}
    (hi : i < 16) : (visitedLeaves st f d s i).length ≤ st.cfg.leaves.length := by
  obtain ⟨hnodup, hleaf⟩ := eachLeafServicedAtMostOnce.2 st.cfg i (latchedWord st f d s i) hwf hi
  have hrange : leavesToService st.cfg i (latchedWord st f d s i) ⊆ List.range st.cfg.leaves.length :=
    fun L hL => List.mem_range.mpr (hleaf L hL).2
  calc (visitedLeaves st f d s i).length
      ≤ (leavesToService st.cfg i (latchedWord st f d s i)).length := List.length_filter_le _ _
    _ ≤ (List.range st.cfg.leaves.length).length := (hnodup.subperm hrange).length_le
    _ = st.cfg.leaves.length := List.length_range

theorem length_slotTrace (st : State) (d : DevId) (s : SubId) (i : Nat) (w : Word) (leaves : List LeafId) :
    (slotTrace st d s i w leaves).length = 3 + leaves.length := by
  rw [slotTrace_eq, List.length_append, List.length_append, List.length_map]
  simp only [List.length_cons, List.length_nil]
  omega

/-- The services of at most 16 slots (R196 (e)). -/
theorem length_slotTraces_le {st : State} (hwf : cfgWf st.cfg = true) (f : Bool) (d : DevId) (s : SubId) (g : BitVec 16) :
    ((setSlots g).flatMap (fun i => slotTrace st d s i (shadowIntAt st d s i) (visitedLeaves st f d s i))).length ≤
      16 * (3 + st.cfg.leaves.length) := by
  have hslots : (setSlots g).length ≤ 16 := (List.length_filter_le _ _).trans_eq List.length_range
  have hslot (n : Nat) (hn : n ∈ (setSlots g).map fun i =>
      (slotTrace st d s i (shadowIntAt st d s i) (visitedLeaves st f d s i)).length) : n ≤ 3 + st.cfg.leaves.length := by
    obtain ⟨i, hi, rfl⟩ := List.mem_map.mp hn
    rw [length_slotTrace]
    exact Nat.add_le_add_left (length_visitedLeaves_le hwf f d s (List.mem_range.mp (List.mem_of_mem_filter hi))) 3
  rw [List.length_flatMap]
  exact (List.sum_le_card_nsmul _ _ hslot).trans (by rw [List.length_map]; exact Nat.mul_le_mul_right _ hslots)

/-- Settles O40: a poll that P0 ends makes no access; of any other the accesses are O38's. -/
theorem pollAccessBound : Obligations.PollAccessBound := by
  intro f d s st t hwf hquiet hcb h
  cases hgate : pollGate st d s with
  | answer r =>
    rw [exec_poll, pollWith_of_answer hgate] at h
    cases h
    exact Nat.le_add_right _ _
  | refuse why =>
    rw [exec_poll, pollWith, hgate] at h
    cases h
  | pass u =>
    obtain ⟨hids, hready, hidle⟩ := (pollGate_pass ..).mp hgate
    obtain ⟨t', ht', hframe, -⟩ := pollWithoutCallbacks f d s st hquiet hids hready hidle hcb
    obtain rfl : t' = t := Host.Outcome.next.inj (ht'.symm.trans h)
    have hbound := length_slotTraces_le hwf f d s (latchedGlobal st f d s)
    rw [congrArg State.trace hframe, List.length_append, List.length_cons]
    omega

end Sys2Proof.Machine
end

section
/-! PROOFS. A poll whose handlers are of the allowed shape completes (R194, R195): every allowed command completes and
leaves alone what the poll rests on. -/

namespace Sys2Proof.Machine

/-! ## What a handler's commands leave alone -/

/-- From `x` to `y` nothing changed on which the progress of the polls rests: registrations, readiness, sequencers, other
agents. -/
structure HandlerKeeps (x y : State) : Prop where
  cfg : y.cfg = x.cfg
  cb : y.cb = x.cb
  devReady : y.devReady = x.devReady
  port : y.port = x.port
  seq : y.seq = x.seq
  sched : y.sched = x.sched
  updating : y.updating = x.updating
  polling : y.polling = x.polling

theorem HandlerKeeps.refl (x : State) : HandlerKeeps x x := ⟨rfl, rfl, rfl, rfl, rfl, rfl, rfl, rfl⟩

theorem HandlerKeeps.trans {x y z : State} (h : HandlerKeeps x y) (h' : HandlerKeeps y z) : HandlerKeeps x z :=
  ⟨h'.cfg.trans h.cfg, h'.cb.trans h.cb, h'.devReady.trans h.devReady, h'.port.trans h.port, h'.seq.trans h.seq,
    h'.sched.trans h.sched, h'.updating.trans h.updating, h'.polling.trans h.polling⟩

theorem handlerKeeps_respond (x : State) (r : Response) : HandlerKeeps x (x.respond r) :=
  ⟨rfl, rfl, rfl, rfl, rfl, rfl, rfl, rfl⟩

theorem handlerKeeps_emit (x : State) (e : Event) : HandlerKeeps x (x.emit e) := ⟨rfl, rfl, rfl, rfl, rfl, rfl, rfl, rfl⟩

theorem handlerKeeps_regRead (x : State) (d : DevId) (s : SubId) (reg : Reg) : HandlerKeeps x (regRead x d s reg) :=
  handlerKeeps_emit x _

theorem handlerKeeps_regWrite (x : State) (d : DevId) (s : SubId) (reg : Reg) (v : Word) :
    HandlerKeeps x (regWrite x d s reg v) := by
  cases reg <;> exact ⟨rfl, rfl, rfl, rfl, rfl, rfl, rfl, rfl⟩

theorem handlerKeeps_leafRead (x : State) (d : DevId) (L : LeafId) : HandlerKeeps x (leafRead x d L) := by
  rw [leafRead_eq]
  exact ⟨rfl, rfl, rfl, rfl, rfl, rfl, rfl, rfl⟩

theorem handlerKeeps_allocDrawn (x : State) : HandlerKeeps x (allocDrawn x) := by
  rw [allocDrawn_eq]
  exact ⟨rfl, rfl, rfl, rfl, rfl, rfl, rfl, rfl⟩

theorem handlerKeeps_clockDrawn (x : State) : HandlerKeeps x (clockDrawn x) := by
  rw [clockDrawn_eq]
  exact ⟨rfl, rfl, rfl, rfl, rfl, rfl, rfl, rfl⟩

theorem handlerKeeps_setLog (x : State) (j : Nat) (e : LogEntry) : HandlerKeeps x (x.setLog j e) :=
  ⟨rfl, rfl, rfl, rfl, rfl, rfl, rfl, rfl⟩

theorem handlerKeeps_logEventDone (x : State) (p : LogPayload) : HandlerKeeps x (logEventDone x p) := by
  have hclaim : HandlerKeeps x (logClaim x) := ⟨rfl, rfl, rfl, rfl, rfl, rfl, rfl, rfl⟩
  have hstamp : HandlerKeeps x (logStamp (logClaim x) (logSlot x)) :=
    (hclaim.trans (handlerKeeps_clockDrawn _)).trans (handlerKeeps_setLog ..)
  exact (hstamp.trans (handlerKeeps_setLog ..)).trans (handlerKeeps_respond ..)

theorem handlerKeeps_showCounts (x : State) (d : DevId) (L : LeafId) (bs : List Nat) :
    HandlerKeeps x (showCounts x d L bs) := by
  rw [showCounts_eq]
  exact ⟨rfl, rfl, rfl, rfl, rfl, rfl, rfl, rfl⟩

/-! ## The allowed commands complete -/

/-- No gate of a leaf's commands refuses (R222). -/
theorem leafGate_ne_refuse (x : State) (d : DevId) (s : SubId) (a : Addr) (why : Refusal) :
    leafGate x d s a ≠ .refuse why := by
  intro h
  unfold leafGate at h
  split at h
  · cases h
  split at h
  · cases h
  split at h
  · cases h
  split at h <;> cases h

theorem logGate_ne_refuse (x : State) (d : DevId) (s : SubId) (r : RingId) (data : List DWord) (why : Refusal) :
    logGate x d s r data ≠ .refuse why := by
  intro h
  unfold logGate at h
  split at h
  · cases h
  split at h <;> cases h

/-- What the commands of a handler need to complete: no other agent, no `UPDATE_VIEW` in progress, and only the thread's
own polls (R311, R312). -/
structure CanRunHandler (x : State) : Prop where
  quiet : Quiet x
  updating : x.updating = []
  busy : ∀ d, (x.seqAt d).st ≠ .idle → d ∈ x.polling

theorem CanRunHandler.of_keeps {x y : State} (h : CanRunHandler x) (hk : HandlerKeeps x y) : CanRunHandler y where
  quiet := hk.sched.trans h.quiet
  updating := hk.updating.trans h.updating
  busy d hd := by
    rw [State.seqAt, hk.seq] at hd
    rw [hk.polling]
    exact h.busy d hd

/-- The outcome is a next state that differs in nothing the polls rest on. -/
def CompletesFrom (x : State) (o : Result) : Prop := ∃ y, o = .next y ∧ HandlerKeeps x y

theorem completesFrom_next {x y : State} (h : HandlerKeeps x y) : CompletesFrom x (.next y) := ⟨y, rfl, h⟩

theorem execRd_completes (d : DevId) (s : SubId) (a : Addr) (x : State) : CompletesFrom x (execRd d s a x) := by
  unfold execRd
  split
  · exact completesFrom_next (handlerKeeps_respond ..)
  split
  · exact completesFrom_next (handlerKeeps_respond ..)
  · exact completesFrom_next ((handlerKeeps_regRead ..).trans (handlerKeeps_respond ..))

theorem execWr_completes (d : DevId) (s : SubId) (a : Addr) (v : Word) (x : State) :
    CompletesFrom x (execWr d s a v x) := by
  unfold execWr
  split
  · exact completesFrom_next (handlerKeeps_respond ..)
  split
  · exact completesFrom_next (handlerKeeps_respond ..)
  · exact completesFrom_next ((handlerKeeps_regWrite ..).trans (handlerKeeps_respond ..))

theorem execUsed_completes (d : DevId) (s : SubId) (r : RingId) (x : State) : CompletesFrom x (execUsed d s r x) := by
  unfold execUsed
  split <;> exact completesFrom_next (handlerKeeps_respond ..)

theorem execRingDump_completes (d : DevId) (s : SubId) (r : RingId) (x : State) :
    CompletesFrom x (execRingDump d s r x) := by
  unfold execRingDump
  split <;> exact completesFrom_next (handlerKeeps_respond ..)

theorem execUpdateView_completes (d : DevId) (s : SubId) (r : RingId) {x : State} (h : CanRunHandler x) :
    CompletesFrom x (execUpdateView d s r x) := by
  cases hgate : viewGate x d s r with
  | answer resp =>
    rw [execUpdateView, hgate]
    exact completesFrom_next (handlerKeeps_respond ..)
  | refuse why => exact absurd (viewGate_refuse _ _ _ _ _ hgate).2 (h.updating ▸ List.not_mem_nil)
  | pass u =>
    exact ⟨_, exec_updateView_of_pass hgate h.quiet, rfl, rfl, rfl, rfl, rfl, rfl, rfl, rfl⟩

theorem execCntShow_completes (d : DevId) (a : Addr) {x : State} (h : CanRunHandler x) :
    CompletesFrom x (execCntShow d a x) := by
  unfold execCntShow
  split
  · exact completesFrom_next (handlerKeeps_respond ..)
  split
  · exact completesFrom_next (handlerKeeps_respond ..)
  split
  next hbusy => exact absurd (h.busy d hbusy.1) hbusy.2
  next => exact completesFrom_next ((handlerKeeps_showCounts ..).trans (handlerKeeps_respond ..))

theorem execInjectAll_completes (d : DevId) (s : SubId) (a : Addr) (x : State) :
    CompletesFrom x (execInjectAll d s a x) := by
  cases hgate : leafGate x d s a with
  | answer r => exact ⟨_, exec_injectAll_of_answer hgate, handlerKeeps_respond ..⟩
  | refuse why => exact (leafGate_ne_refuse _ _ _ _ _ hgate).elim
  | pass L =>
    exact ⟨_, exec_injectAll_of_pass hgate, (handlerKeeps_regWrite ..).trans (handlerKeeps_respond ..)⟩

theorem execEnableAll_completes (on : Bool) (d : DevId) (s : SubId) (a : Addr) {x : State} (h : CanRunHandler x) :
    CompletesFrom x (execEnableAll on d s a x) := by
  cases hgate : leafGate x d s a with
  | answer r => exact ⟨_, exec_enableAll_of_answer hgate, handlerKeeps_respond ..⟩
  | refuse why => exact (leafGate_ne_refuse _ _ _ _ _ hgate).elim
  | pass L =>
    exact ⟨_, exec_enableAll_of_pass hgate h.quiet, ((handlerKeeps_regWrite ..).trans (handlerKeeps_regWrite ..)).trans
      (handlerKeeps_respond ..)⟩

theorem execLogEvent_completes (d : DevId) (s : SubId) (r : RingId) (dir : LogDir) (head tail : Word) (data : List DWord)
    {x : State} (h : CanRunHandler x) : CompletesFrom x (execLogEvent d s r dir head tail data x) := by
  cases hgate : logGate x d s r data with
  | answer resp =>
    rw [execLogEvent, hgate]
    exact completesFrom_next (handlerKeeps_respond ..)
  | refuse why => exact (logGate_ne_refuse _ _ _ _ _ _ hgate).elim
  | pass u => exact ⟨_, exec_logEvent_of_pass dir head tail hgate h.quiet, handlerKeeps_logEventDone ..⟩

theorem execLogRead_completes (d : DevId) (s : SubId) (filter : DWord) {x : State} (h : CanRunHandler x) :
    CompletesFrom x (execLogRead d s filter x) := by
  have hdrawn := handlerKeeps_allocDrawn x
  unfold execLogRead
  split
  · exact completesFrom_next (handlerKeeps_respond ..)
  split
  · exact completesFrom_next (hdrawn.trans (handlerKeeps_respond ..))
  · rw [logScan_of_quiet _ _ _ _ _ (h.of_keeps hdrawn).quiet]
    exact completesFrom_next (hdrawn.trans (handlerKeeps_respond ..))

/-- Every command R194 allows in a handler completes, however the thread runs its polls. -/
theorem runWith_completes (poll : Bool → DevId → SubId → State → Result) {i : Instr} (hi : allowedInHandler i = true)
    {x : State} (h : CanRunHandler x) : CompletesFrom x (runWith poll i x) := by
  cases i with
  | rd d s a => exact execRd_completes ..
  | wr d s a v => exact execWr_completes ..
  | updateView d s r => exact execUpdateView_completes d s r h
  | used d s r => exact execUsed_completes ..
  | ringDump d s r => exact execRingDump_completes ..
  | cntShow d a => exact execCntShow_completes d a h
  | injectAll d s a => exact execInjectAll_completes ..
  | enableAll on d s a => exact execEnableAll_completes on d s a h
  | logEvent d s r dir head tail data => exact execLogEvent_completes d s r dir head tail data h
  | logRead d s filter => exact execLogRead_completes d s filter h
  | devInit => cases hi
  | ringCfg => cases hi
  | poll => cases hi
  | cbReg => cases hi

/-- No allowed command is forbidden on a device being polled (R194). -/
theorem handlerForbids_of_allowed {i : Instr} (hi : allowedInHandler i = true) (polled : List DevId) :
    handlerForbids polled i = none := by
  cases i
  case devInit => cases hi
  case ringCfg => cases hi
  case poll => cases hi
  case cbReg => cases hi
  all_goals rfl

theorem runHandler_completes (poll : Bool → DevId → SubId → State → Result) {is : List Instr}
    (his : ∀ i ∈ is, allowedInHandler i = true) {x : State} (h : CanRunHandler x) :
    CompletesFrom x (runHandler (runWith poll) is x) := by
  induction is generalizing x with
  | nil => exact completesFrom_next (.refl x)
  | cons i is ih =>
    have hi := his i List.mem_cons_self
    obtain ⟨y, hy, hkeeps⟩ := runWith_completes poll hi h
    have hrun := h.of_keeps hkeeps
    obtain ⟨z, hz, hrest⟩ := ih (fun j hj => his j (List.mem_cons_of_mem i hj)) hrun
    refine ⟨z, ?_, hkeeps.trans hrest⟩
    simp only [runHandler, handlerForbids_of_allowed hi, hy, andThen_next, boundary_nil y hrun.quiet, hz]

/-- The message names a callback registered for the leaf (R193). -/
theorem leafMessage_fn {x : State} {d : DevId} {L : LeafId} {raw : Word} {m : DispatchMsg}
    (h : leafMessage x d L raw = some m) : ∃ cb, x.cbAt d L = some cb ∧ m.fn = cb.fn := by
  unfold leafMessage at h
  split at h
  · cases h
  next cb hcb =>
    split at h
    · cases h
      exact ⟨cb, hcb, rfl⟩
    · cases h

theorem leafCallback_completes (poll : Bool → DevId → SubId → State → Result) {d : DevId} (L : LeafId) (raw : Word)
    {x : State} (hallowed : HandlersAllowed x d) (h : CanRunHandler x) :
    CompletesFrom x (leafCallback (runWith poll) d L raw x) := by
  cases hm : leafMessage x d L raw with
  | none =>
    rw [leafCallback_of_no_message hm]
    exact completesFrom_next (.refl x)
  | some m =>
    obtain ⟨cb, hcb, hfn⟩ := leafMessage_fn hm
    have hemit := handlerKeeps_emit x (.dispatch m)
    rw [leafCallback_of_message hm h.quiet]
    obtain ⟨y, hy, hkeeps⟩ := runHandler_completes poll (hallowed L cb hcb m hfn) (h.of_keeps hemit)
    exact ⟨y, hy, hemit.trans hkeeps⟩

/-! ## The poll completes -/

/-- Inside a poll of device `d` that began in `st`: only the device's own sequencer and what commands of a handler may
write have changed. -/
structure PollKeeps (st : State) (d : DevId) (x : State) : Prop where
  cfg : x.cfg = st.cfg
  cb : x.cb = st.cb
  devReady : x.devReady = st.devReady
  port : x.port = st.port
  sched : x.sched = st.sched
  updating : x.updating = st.updating
  polling : x.polling = d :: st.polling
  others : ∀ d', d' ≠ d → x.seqAt d' = st.seqAt d'

section
variable {st x : State} {d : DevId}

theorem PollKeeps.of_keeps (h : PollKeeps st d x) {y : State} (hk : HandlerKeeps x y) : PollKeeps st d y where
  cfg := hk.cfg.trans h.cfg
  cb := hk.cb.trans h.cb
  devReady := hk.devReady.trans h.devReady
  port := hk.port.trans h.port
  sched := hk.sched.trans h.sched
  updating := hk.updating.trans h.updating
  polling := hk.polling.trans h.polling
  others d' hd' := by
    rw [State.seqAt, hk.seq]
    exact h.others d' hd'

theorem PollKeeps.setSeq (h : PollKeeps st d x) (q : Seq) : PollKeeps st d (x.setSeq d q) :=
  ⟨h.cfg, h.cb, h.devReady, h.port, h.sched, h.updating, h.polling,
    fun d' hd' => (State.seqAt_setSeq ..).trans ((if_neg hd').trans (h.others d' hd'))⟩

theorem PollKeeps.canRunHandler (h : PollKeeps st d x) (hst : Settled st) : CanRunHandler x where
  quiet := h.sched.trans hst.1
  updating := h.updating.trans hst.2.1
  busy d' hd' := by
    rw [h.polling]
    refine List.mem_cons.mpr (.inl (by_contra fun hne => hd' ?_))
    rw [h.others d' hne]
    exact hst.2.2.2 d'

theorem PollKeeps.handlersAllowed (h : PollKeeps st d x) (hst : HandlersAllowed st d) : HandlersAllowed x d := by
  intro L cb hcb
  rw [State.cbAt, h.cb] at hcb
  rw [h.cfg]
  exact hst L cb hcb

theorem PollKeeps.boundary (h : PollKeeps st d x) (hst : Settled st) : Machine.boundary x = .next x :=
  boundary_nil x (h.canRunHandler hst).quiet

theorem PollKeeps.serviceLeaves (hst : Settled st) (hallowed : HandlersAllowed st d)
    (poll : Bool → DevId → SubId → State → Result) (ls : List LeafId) (h : PollKeeps st d x) :
    ∃ y, serviceLeaves (runWith poll) d ls x = .next y ∧ PollKeeps st d y := by
  induction ls generalizing x with
  | nil => exact ⟨x, rfl, h⟩
  | cons L rest ih =>
    have hpop : PollKeeps st d (leafPop x d rest) := h.setSeq _
    rw [Machine.serviceLeaves]
    cases Machine.leafGated x d L with
    | true => exact ih hpop
    | false =>
      have hread := hpop.of_keeps (handlerKeeps_leafRead _ d L)
      obtain ⟨y, hy, hkeeps⟩ := leafCallback_completes poll L (leafRaw x d L) (hread.handlersAllowed hallowed)
        (hread.canRunHandler hst)
      obtain ⟨z, hz, hrest⟩ := ih (hread.of_keeps hkeeps)
      exact ⟨z, by simpa [hread.boundary hst, hy] using hz, hrest⟩

theorem PollKeeps.serviceSlot (hst : Settled st) (hallowed : HandlersAllowed st d)
    (poll : Bool → DevId → SubId → State → Result) (i : Nat) (h : PollKeeps st d x) :
    ∃ y, serviceSlot (runWith poll) d i x = .next y ∧ PollKeeps st d y := by
  have hmask : PollKeeps st d (serviceMask x d i) := (h.of_keeps (handlerKeeps_regWrite ..)).setSeq _
  have hlatch : PollKeeps st d (serviceLatch (serviceMask x d i) d i) :=
    (hmask.of_keeps (handlerKeeps_regRead ..)).setSeq _
  obtain ⟨z, hz, hleaves⟩ := hlatch.serviceLeaves hst hallowed poll
    ((serviceLatch (serviceMask x d i) d i).seqAt d).todo
  have hunmask : PollKeeps st d (serviceUnmask z d i) := (hleaves.of_keeps (handlerKeeps_regWrite ..)).setSeq _
  refine ⟨serviceUnmask z d i, ?_, hunmask⟩
  simp only [Machine.serviceSlot, hmask.boundary hst, andThen_next, hlatch.boundary hst, hz, hunmask.boundary hst]

theorem PollKeeps.scanSlots (hst : Settled st) (hallowed : HandlersAllowed st d)
    (poll : Bool → DevId → SubId → State → Result) (is : List Nat) (h : PollKeeps st d x) :
    ∃ y, scanSlots (runWith poll) d is x = .next y ∧ (y.seqAt d).st = .idle ∧ PollKeeps st d y := by
  induction is generalizing x with
  | nil =>
    have hidle : ((pollClose x d).seqAt d).st = .idle := by rw [pollClose, State.seqAt_setSeq_same]
    exact ⟨pollClose x d, rfl, hidle, h.setSeq _⟩
  | cons i is ih =>
    rw [Machine.scanSlots]
    split
    case isFalse => exact ih (h.setSeq _)
    case isTrue =>
      obtain ⟨z, hz, hslot⟩ := h.serviceSlot hst hallowed poll i
      obtain ⟨y, hy, hdone⟩ := ih hslot
      exact ⟨y, by simpa [hz] using hy, hdone⟩

/-- P1 to the return: whatever the global word, the cycle ends with the sequencer `IDLE` (R180). -/
theorem PollKeeps.pollCycle (hst : Settled st) (hallowed : HandlersAllowed st d)
    (poll : Bool → DevId → SubId → State → Result) (h : PollKeeps st d x) :
    ∃ y, pollCycle (runWith poll) d x = .next y ∧ (y.seqAt d).st = .idle ∧ PollKeeps st d y := by
  have hglobal : PollKeeps st d (pollGlobal x d) := (h.of_keeps (handlerKeeps_regRead ..)).setSeq _
  by_cases hidle : ((pollGlobal x d).seqAt d).st = .idle
  case pos => exact ⟨pollGlobal x d, if_pos hidle, hidle, hglobal⟩
  case neg =>
    obtain ⟨y, hy, hdone⟩ := hglobal.scanSlots hst hallowed poll (List.range nSlot)
    refine ⟨y, ?_, hdone⟩
    rw [Machine.pollCycle, if_neg hidle, hglobal.boundary hst, andThen_next, hy]

end

theorem pollKeeps_pollStart (st : State) (f : Bool) (d : DevId) (s : SubId) : PollKeeps st d (pollStart st f d s) :=
  ⟨rfl, rfl, rfl, rfl, rfl, rfl, rfl, fun _ hd' => seqAt_pollStart_other st f hd' s⟩

/-- Settles O39: the poll keeps what its handlers' commands need, so each part of it completes. -/
theorem pollReturnsToIdle : Obligations.PollReturnsToIdle := by
  intro f d s st hst hids hready hallowed
  obtain ⟨y, hy, hdone, hkeeps⟩ := (pollKeeps_pollStart st f d s).pollCycle hst hallowed (pollNested 15)
  obtain ⟨hquiet, hupdating, hpolling, hidle⟩ := hst
  have hgate : pollGate st d s = .pass () := (pollGate_pass ..).mpr ⟨hids, hready, hidle d⟩
  refine ⟨_, exec_poll_of_pass hquiet hgate hy, rfl, hdone,
    ⟨hkeeps.sched.trans hquiet, hkeeps.updating.trans hupdating, hpolling, fun d' => ?_⟩,
    hkeeps.cb, hkeeps.devReady, hkeeps.cfg, hkeeps.port, hkeeps.others⟩
  by_cases hd' : d' = d
  · exact hd' ▸ hdone
  · exact (congrArg Seq.st (hkeeps.others d' hd')).trans (hidle d')

end Sys2Proof.Machine
end
